-- ==== Sys2Proof/Word.lean ====
section
/-! DEFINITION. The scalar types of the block: bit vectors for what the spec gives a width, exact rationals for
every "real" value (00_scope R8 row `R`, R10; 92_eei_decisions D1). -/

namespace Sys2Proof

/-- One byte of a byte space (20_memory R60). -/
abbrev Byte := BitVec 8

/-- One input sample or output channel value, `SAMPLE_BITS = 16`, unsigned (00_scope R7; 10_state R37). -/
abbrev Sample := BitVec 16

/-- A host-visible register, a command word (10_state R27, 30_encoding R91). -/
abbrev Word := BitVec 32

/-- A stage code, what `SEQ` holds (10_state R25, 30_encoding R93). -/
abbrev StageCode := BitVec 8

/-- The numeric domain of every "real" value: the exact rationals (00_scope R8, D1). -/
abbrev R := Rat

/-- An unsigned register field as an exact element of `R` (00_scope R10: integers embed exactly). -/
def toR {w : Nat} (v : BitVec w) : R := ((v.toNat : Nat) : R)

end Sys2Proof
end

