-- ==== Sys2Proof/Syntax.lean ====
section
/-! DEFINITION. The operations of the block (30_encoding R92, R93): four host commands and fifteen passes. No operation
has an operand field (R94). -/

namespace Sys2Proof

/-- One constructor per row of spec/opcode_table.json. -/
inductive Instr where
  /-- Format CMD (30_encoding R92). -/
  | nop | config | decode | resetprev
  /-- Format UOP (30_encoding R93), in sequence order. -/
  | fbinit | ilace | sep1d | sep2d | iqcomb | motion | sep3d | iqmix | clpf | ynr | cnr | yclean | torgb | overlay
  | storeprev
deriving DecidableEq, Repr

/-- The two formats of an encoded operation: a 32-bit command word and an 8-bit stage code (30_encoding R90). -/
inductive OpWord where
  | cmd (w : Word)
  | uop (c : StageCode)
deriving DecidableEq, Repr

end Sys2Proof
end

