-- ==== Sys2Proof/WellFormed.lean ====
section
/-! DEFINITION. Which encoded operations are legal (30_encoding R91, R93, R96). An operation carries no operand (R94),
so every term of `Instr` is well-formed; what can be ill-formed is a word. -/

namespace Sys2Proof

/-- 30_encoding R96: `bits[31:8] = 0` and `bits[7:0]` one of 0x00 to 0x03. -/
def legalCommandWord (w : Word) : Bool :=
  w.extractLsb 31 8 == 0 && [0x00#8, 0x01#8, 0x02#8, 0x03#8].contains (w.extractLsb' 0 8)

/-- 30_encoding R93: a stage code is one of 0x10 to 0x1E; 0x00 stands for "no command executing" (10_state R25). -/
def legalStageCode (c : StageCode) : Bool := (0x10#8).ule c && c.ule 0x1E#8

/-- A legal encoded operation of either format. -/
def OpWord.wellFormed : OpWord → Bool
  | .cmd w => legalCommandWord w
  | .uop c => legalStageCode c

/-- 30_encoding R94: no operation carries an operand, so there is nothing to check in a term. -/
def Instr.wellFormed (_ : Instr) : Bool := true

end Sys2Proof
end

