-- ==== Sys2Proof/Decode.lean ====
section
/-! DEFINITION. The decoder of command words and stage codes (30_encoding R92, R93, R96, R97, R100), total, rejecting
by name, and the encoder, both written from the tables of 30_encoding. -/

namespace Sys2Proof

/-- Why a word is no operation. -/
inductive DecodeError where
  /-- A command word outside R96's set; writing it raises `IllegalCommand` (93 S3). -/
  | illegalCommand (w : Word)
  /-- A value of `SEQ` that R93 assigns to no pass. -/
  | unassignedStage (c : StageCode)
deriving DecidableEq, Repr

/-- A row of the opcode table: a word `w` selects the row when `w AND mask = match` (30_encoding R100). -/
structure OpcodeRow (n : Nat) where
  instr : Instr
  pattern : BitVec n
  mask : BitVec n
deriving DecidableEq, Repr

/-- 30_encoding R92. -/
def commandTable : List (OpcodeRow 32) :=
  [⟨.nop, 0x00000000#32, 0xFFFFFFFF#32⟩, ⟨.config, 0x00000001#32, 0xFFFFFFFF#32⟩,
   ⟨.decode, 0x00000002#32, 0xFFFFFFFF#32⟩, ⟨.resetprev, 0x00000003#32, 0xFFFFFFFF#32⟩]

/-- 30_encoding R93. -/
def stageTable : List (OpcodeRow 8) :=
  [⟨.fbinit, 0x10#8, 0xFF#8⟩, ⟨.ilace, 0x11#8, 0xFF#8⟩, ⟨.sep1d, 0x12#8, 0xFF#8⟩, ⟨.sep2d, 0x13#8, 0xFF#8⟩,
   ⟨.iqcomb, 0x14#8, 0xFF#8⟩, ⟨.motion, 0x15#8, 0xFF#8⟩, ⟨.sep3d, 0x16#8, 0xFF#8⟩, ⟨.iqmix, 0x17#8, 0xFF#8⟩,
   ⟨.clpf, 0x18#8, 0xFF#8⟩, ⟨.ynr, 0x19#8, 0xFF#8⟩, ⟨.cnr, 0x1A#8, 0xFF#8⟩, ⟨.yclean, 0x1B#8, 0xFF#8⟩,
   ⟨.torgb, 0x1C#8, 0xFF#8⟩, ⟨.overlay, 0x1D#8, 0xFF#8⟩, ⟨.storeprev, 0x1E#8, 0xFF#8⟩]

/-- The first row a word selects. -/
def selectRow {n : Nat} (table : List (OpcodeRow n)) (w : BitVec n) : Option Instr :=
  (table.find? fun row => w &&& row.mask == row.pattern).map OpcodeRow.instr

/-- The decoder of format CMD (30_encoding R97). -/
def decodeCommand (w : Word) : Except DecodeError Instr :=
  match selectRow commandTable w with
  | some i => .ok i
  | none => .error (.illegalCommand w)

/-- The decoder of format UOP: the pass a value of `SEQ` names (30_encoding R93). -/
def decodeStage (c : StageCode) : Except DecodeError Instr :=
  match selectRow stageTable c with
  | some i => .ok i
  | none => .error (.unassignedStage c)

/-- The decoder of either format. -/
def decode : OpWord → Except DecodeError Instr
  | .cmd w => decodeCommand w
  | .uop c => decodeStage c

/-- The stage code of a pass, 0x00 for a command (30_encoding R93, 10_state R25). -/
def stageCode : Instr → StageCode
  | .nop | .config | .decode | .resetprev => 0x00#8
  | .fbinit => 0x10#8
  | .ilace => 0x11#8
  | .sep1d => 0x12#8
  | .sep2d => 0x13#8
  | .iqcomb => 0x14#8
  | .motion => 0x15#8
  | .sep3d => 0x16#8
  | .iqmix => 0x17#8
  | .clpf => 0x18#8
  | .ynr => 0x19#8
  | .cnr => 0x1A#8
  | .yclean => 0x1B#8
  | .torgb => 0x1C#8
  | .overlay => 0x1D#8
  | .storeprev => 0x1E#8

/-- The encoder (30_encoding R91 to R93). -/
def encode : Instr → OpWord
  | .nop => .cmd 0x00000000#32
  | .config => .cmd 0x00000001#32
  | .decode => .cmd 0x00000002#32
  | .resetprev => .cmd 0x00000003#32
  | .fbinit => .uop (stageCode .fbinit)
  | .ilace => .uop (stageCode .ilace)
  | .sep1d => .uop (stageCode .sep1d)
  | .sep2d => .uop (stageCode .sep2d)
  | .iqcomb => .uop (stageCode .iqcomb)
  | .motion => .uop (stageCode .motion)
  | .sep3d => .uop (stageCode .sep3d)
  | .iqmix => .uop (stageCode .iqmix)
  | .clpf => .uop (stageCode .clpf)
  | .ynr => .uop (stageCode .ynr)
  | .cnr => .uop (stageCode .cnr)
  | .yclean => .uop (stageCode .yclean)
  | .torgb => .uop (stageCode .torgb)
  | .overlay => .uop (stageCode .overlay)
  | .storeprev => .uop (stageCode .storeprev)

/-- The encoded operation that an instruction of `nbits` bits with value `w` is: 8 bits are a stage code, more are a
command word (30_encoding R90). -/
def opWordOfBits (nbits w : Nat) : OpWord :=
  if nbits ≤ 8 then .uop (BitVec.ofNat 8 w) else .cmd (BitVec.ofNat 32 w)

/-- The instruction the decoder reads from an instruction of the opcode table's bits. -/
def decodeTableWord (nbits w : Nat) : Option Instr :=
  match decode (opWordOfBits nbits w) with
  | .ok i => some i
  | .error _ => none

end Sys2Proof
end

