-- ==== Sys2Proof/Frame.lean ====
section
/-! DEFINITION. The data of frames and buffers as plain data: byte spaces, internal planes, the FrameBuffer
(10_state R37, R38). Their operations stand in Machine/Ops.lean. -/

namespace Sys2Proof

/-- One cell of the YIQ plane (10_state R37; 00_scope R14 "YIQ"). -/
structure Yiq where
  y : R
  i : R
  q : R
deriving DecidableEq, Repr, Inhabited

/-- An internal plane, sparse: the listed cells in strictly rising (row, column) order, and what an unlisted cell
reads as: 0 after FBINIT (`epoch = none`, 20_memory R67), or the unspecified contents number `n`
(`epoch = some n`, 10_state R42, 60_exceptions R236; log 4). -/
structure Plane (α : Type) where
  epoch : Option Nat
  cells : List ((Nat × Nat) × α)
deriving DecidableEq, Repr, Inhabited

/-- A byte space, sparse: the written bytes in strictly rising address order. An unlisted byte has no value
here and reads as the unspecified contents number `epoch` (10_state R42; log 4). -/
structure ByteBuf where
  epoch : Nat
  cells : List Host.Cell
deriving DecidableEq, Repr, Inhabited

/-- A whole FrameBuffer, `{RAW, C1D, C2D, C3D, YIQ, K, PH1, PH2, BURST}` (10_state R38). -/
structure FrameBuffer where
  raw   : Plane Sample
  c1d   : Plane R
  c2d   : Plane R
  c3d   : Plane R
  yiq   : Plane Yiq
  k     : Plane R
  ph1   : BitVec 8
  ph2   : BitVec 8
  burst : R
deriving DecidableEq, Repr, Inhabited

end Sys2Proof
end

