-- ==== Sys2Proof/Config.lean ====
section
/-! DEFINITION. What an implementation fixes (00_scope R7, R8) and the free values. An OPEN parameter of the spec is
an opaque constant whose type carries exactly its named properties; a claim holds for every value of it. -/

namespace Sys2Proof

/-! ### Types that carry the named properties of 00_scope R8 -/

/-- A finite, non-empty coefficient list over `R` (93_implementation_defined, section 2). -/
structure Taps where
  head : R
  tail : List R
deriving DecidableEq, Repr, Inhabited

/-- A non-negative element of `R`, every one of which is `num / (den + 1)` (property of `YNR_FACTOR`). -/
structure NonnegReal where
  num : Nat
  den : Nat
deriving DecidableEq, Repr, Inhabited

/-- A positive element of `R`, every one of which is `(num + 1) / (den + 1)` (property of `WP_ALT_GAIN`). -/
structure PosReal where
  num : Nat
  den : Nat
deriving DecidableEq, Repr, Inhabited

/-- An element of `R` in [0, 1], every one of which is `(num mod (den + 2)) / (den + 1)` (property of `MOTION_EST`). -/
structure UnitReal where
  num : Nat
  den : Nat
deriving DecidableEq, Repr, Inhabited

/-- An answer of the estimator that breaks its range (43_sep3d_motion R170): the cell, and the value there, `1 + excess`
or `-excess`; every rational outside [0, 1] is one of these (log 9). -/
structure OutOfRange where
  row : Nat
  col : Nat
  above : Bool
  excess : PosReal
deriving DecidableEq, Repr, Inhabited

/-- The I and Q coefficients of R, G and B (00_scope R8 `M_RGB`, 3 by 2 over `R`). -/
structure RgbMatrix where
  rI : R
  rQ : R
  gI : R
  gQ : R
  bI : R
  bQ : R
deriving DecidableEq, Repr, Inhabited

/-- The three byte spaces (20_memory R60). -/
inductive ByteSpace where
  | field1 | field2 | out
deriving DecidableEq, Repr

/-- The places of a FrameBuffer that hold elements of `R`. -/
inductive RealPlace where
  | c1d | c2d | c3d | yiqY | yiqI | yiqQ | k
deriving DecidableEq, Repr

/-- The inversion registers (10_state R21). -/
inductive InvReg where
  | topInv | botInv | inv
deriving DecidableEq, Repr

/-- The hold registers (10_state R22, R23). -/
inductive HoldReg where
  | si | sq | vi | vq
deriving DecidableEq, Repr

/-- The loop counters (10_state R25). -/
inductive CountReg where
  | row | col
deriving DecidableEq, Repr

/-- The implementation parameters of 00_scope R8, an argument of every pass (10_state R20). -/
structure Impl where
  /-- `CAP_ROWS`. -/
  capRows : Nat
  /-- `CAP_COLS`. -/
  capCols : Nat
  /-- `INV_NEGATES`. -/
  invNegates : Bool
  /-- `OUT_ROUND`, applied to a real clamped to [0, 65535]. -/
  outRound : R → Nat
  fir1dI : Taps
  fir1dQ : Taps
  firlpI : Taps
  firlpQ : Taps
  /-- `RES_Y`: a line's values (columns `[AVS, AVE)`) to the residual of each of its columns, by position. -/
  resY : List R → Nat → R
  /-- `RES_C`, the same for one chroma channel. -/
  resC : List R → Nat → R
  ynrFactor : NonnegReal
  wpAltGain : PosReal
  /-- `CGAIN (BURST, WHT, BLK, WP100)`. -/
  cgain : R → Nat → Nat → Bool → R
  mRgb : RgbMatrix
  /-- `MOTION_EST (current YIQ plane, PREV)`: the answered map, by row and column. -/
  motionEst : Plane Yiq → FrameBuffer → Nat → Nat → UnitReal

namespace Config

/-! ### OPEN parameters (00_scope R8, R9; 92_eei_decisions D9, D16, D19, D23, D25; log 7) -/

opaque fir1dI : Taps
opaque fir1dQ : Taps
opaque firlpI : Taps
opaque firlpQ : Taps
opaque resY : List R → Nat → R
opaque resC : List R → Nat → R
opaque ynrFactor : NonnegReal
opaque wpAltGain : PosReal
opaque cgain : R → Nat → Nat → Bool → R
opaque mRgb : RgbMatrix
/-- The external estimator with its two named properties: values in [0, 1], a function of its two arguments
(43_sep3d_motion R172; log 9). An answer that breaks its range is an input of the machine (`State.estimate`). -/
opaque motionEst : Plane Yiq → FrameBuffer → Nat → Nat → UnitReal
/-- `REAL_FMT`: how a written bit pattern conveys an element of `R` (30_encoding R95; log 11). -/
opaque realFmt : Word → R

/-! ### Free values -/

/-- Unspecified contents number `epoch` of a byte space, at an address (10_state R42, 60_exceptions R236; log 4). -/
opaque freeByte : ByteSpace → (epoch : Nat) → (addr : Nat) → Byte
/-- Unspecified contents number `epoch` of the `RAW` plane, at a row and column (log 4). -/
opaque freeSample : (epoch : Nat) → (row : Nat) → (col : Nat) → Sample
/-- Unspecified contents number `epoch` of a plane over `R`, at a row and column (log 4). -/
opaque freeReal : RealPlace → (epoch : Nat) → (row : Nat) → (col : Nat) → R
/-- A latched phase ID after a pass fault: `false` for `FB.PH1`, `true` for `FB.PH2` (60_exceptions R236; log 4). -/
opaque freePhaseId : Bool → Nat → BitVec 8
/-- `FB.BURST` after a pass fault (60_exceptions R236; log 4). -/
opaque freeBurst : Nat → R
/-- An inversion register between passes (93_implementation_defined S13; log 6). -/
opaque freeInv : InvReg → Nat → Bool
/-- A hold register between passes (S13; log 6). -/
opaque freeHold : HoldReg → Nat → R
/-- A loop counter between passes (S13; log 6). -/
opaque freeCount : CountReg → Nat → Nat
/-- What the 32-bit register `OUTLEN` shows for a length that 32 bits cannot hold (log 10). -/
opaque outLenBeyond : Nat → Word

/-! ### Constants the source fixes (00_scope R7) -/

/-- `MAX_FW`. -/
def maxFw : Nat := 910
/-- `MAX_FH`, named by the source; no rule of the block reads it. -/
def maxFh : Nat := 263
/-- `MAX_FRH`. -/
def maxFrh : Nat := 525
/-- `MIN_AVS`. -/
def minAvs : Nat := 16
/-- `K2D_RANGE`. -/
def k2dRange : R := 45
/-- `TOL_LINE`. -/
def tolLine : R := 1 / 10
/-- `TOL_PAIR`. -/
def tolPair : R := 1 / 5
/-- `RATIO_2D`. -/
def ratio2d : R := 3
/-- `DIV_2D`. -/
def div2d : R := 8
/-- `CLPF_SHIFT`, in columns. -/
def clpfShift : Nat := 2
/-- `CNR_FACTOR`. -/
def cnrFactor : R := 0
/-- `PHASES`, the length of the subcarrier cycle in columns. -/
def phases : Nat := 4
/-- `2^SAMPLE_BITS − 1`, the largest channel value. -/
def maxSample : Nat := 65535

/-- The implementation `exec` runs: the decided parameters at the spec's values (D5, D7, D20; log 8), the OPEN ones
opaque. -/
def impl : Impl where
  capRows := 526
  capCols := 910
  invNegates := true
  outRound v := v.floor.toNat
  fir1dI := fir1dI
  fir1dQ := fir1dQ
  firlpI := firlpI
  firlpQ := firlpQ
  resY := resY
  resC := resC
  ynrFactor := ynrFactor
  wpAltGain := wpAltGain
  cgain := cgain
  mRgb := mRgb
  motionEst := motionEst

end Config
end Sys2Proof
end

