-- ==== Sys2Proof/Machine/State.lean ====
section
/-! DEFINITION. The state of the block as plain data (10_state R20 to R40), its value after hardware reset (R42), and
the reasons a step can stop. -/

namespace Sys2Proof.Machine

/-- `STATUS.RUN` (10_state R29); the value 3 never occurs (93 S6). -/
inductive RunState where
  | idle | busy | faulted
deriving DecidableEq, Repr

/-- The causes of 60_exceptions R234. -/
inductive FaultCause where
  /-- A write to CMD of a word that is not legal. -/
  | illegalCommand
  /-- DECODE before any CONFIG. -/
  | notConfigured
  /-- FBINIT with `WHT ≤ BLK`. -/
  | calibration
  /-- An access outside the bounds of 20_memory R65, R66. -/
  | bounds
  /-- A map value outside [0, 1]. -/
  | motion
deriving DecidableEq, Repr

/-- The warnings of 60_exceptions R231. -/
inductive Warning where
  | width | height | activeStart
deriving DecidableEq, Repr

/-- One event of `LOG`: a warning and the value recorded with it (60_exceptions R231, R232). -/
structure LogEvent where
  warning : Warning
  value : Nat
deriving DecidableEq, Repr

/-- The fields of `STATUS` (10_state R29). `seq` is the stage code recorded by the last fault (60_exceptions R235). -/
structure Status where
  run : RunState
  configured : Bool
  done : Bool
  wFw : Bool
  wFrh : Bool
  wAvs : Bool
  fault : Option FaultCause
  seq : StageCode
deriving DecidableEq, Repr

/-- The eight configuration registers: the shadow copy the host writes (10_state R30, R32) and the active copy the
passes read (R31) have the same fields. -/
structure ConfigRegs where
  fw : BitVec 16
  fh : BitVec 16
  avs : BitVec 16
  ave : BitVec 16
  fvl : BitVec 16
  blk : BitVec 16
  wht : BitVec 16
  mode : BitVec 6
deriving DecidableEq, Repr

/-- The per-call argument registers (10_state R33). -/
structure Args where
  ph1 : BitVec 8
  ph2 : BitVec 8
  burst : R
  f1len : Word
  f2len : Word
deriving DecidableEq, Repr

/-- The three byte spaces (10_state R37, 20_memory R60). -/
structure Memory where
  field1 : ByteBuf
  field2 : ByteBuf
  out : ByteBuf
deriving DecidableEq, Repr

/-- The datapath working registers (10_state R21 to R23) and the FIR delay lines (R36), which exist only during a
line: an empty list is "no delay line". -/
structure Work where
  topInv : Bool
  botInv : Bool
  inv : Bool
  si : R
  sq : R
  vi : R
  vq : R
  fi : List R
  fq : List R
deriving DecidableEq, Repr

/-- One action of the block's environment: of the host (00_scope R15; 30_encoding R98), or of the estimator. Register numbers are those of 10_state R27; a write to
number 0x00 issues a command (R28). -/
inductive HostAction where
  /-- `WR <REG>, <value>`: a 32-bit register write. -/
  | wr (reg : Nat) (value : Word)
  /-- `WR ARG_BURST, p/q`: the element of `R` itself (30_encoding R95). -/
  | wrBurst (value : R)
  /-- `RD <REG>`. -/
  | rd (reg : Nat)
  /-- `LOAD FIELD1`: bytes from address 0 on and the matching length. -/
  | load1 (bytes : List Byte)
  /-- `LOAD FIELD2`. -/
  | load2 (bytes : List Byte)
  /-- One byte written into `FIELD1` (10_state R37). -/
  | put1 (addr : Nat) (value : Byte)
  /-- One byte written into `FIELD2` (10_state R37). -/
  | put2 (addr : Nat) (value : Byte)
  /-- One byte read from `OUT` (10_state R37). -/
  | getOut (addr : Nat)
  /-- `RESET`, the hardware reset (70 R260). -/
  | reset
  /-- Not the host's but the estimator's side: from now on its answer breaks the range in this cell, or (`none`) it is
  `MOTION_EST` (43 R170, R172; log 9). -/
  | estimate (broken : Option OutOfRange)
deriving DecidableEq, Repr

/-- What a host read returns: a 32-bit register, the element of `R` in `ARG_BURST` (10_state R33), or a byte. -/
inductive Answer where
  | word (w : Word)
  | real (q : R)
  | byte (b : Byte)
deriving DecidableEq, Repr

/-- The reasons a step faults: there are none. The block's own faults (60_exceptions R234) are each taken as the spec's
fault entry, a next state (log 3), and no access of the host raises one (40_sequencer R131; log 12). -/
inductive Fault
deriving DecidableEq, Repr

/-- The reasons a step is refused. -/
inductive Refusal where
  /-- Raised by `exec` for an instruction that has no meaning yet. Safe. -/
  | notModelled (mnemonic : String)
  /-- Raised by the fetch when the block is BUSY and `SEQ` holds no stage code of 30_encoding R93; no run reaches such
  a state (R96: "never appear in SEQ"; log 16). Safe. -/
  | unassignedStage (code : StageCode)
deriving DecidableEq, Repr

/-- The complete state (10_state R20), and four fields of the model's own: `host`, `answer`, `estimate`, `free`. -/
structure State where
  /-- `STATUS` (R29). -/
  status : Status
  /-- `CFG_FW` to `CFG_MODE` (R30, R32). -/
  shadow : ConfigRegs
  /-- `ACT_FW` to `ACT_MODE` (R31). -/
  active : ConfigRegs
  /-- `ARG_PH1` to `ARG_F2LEN` (R33). -/
  args : Args
  /-- `FIELD1`, `FIELD2`, `OUT` (R37). -/
  mem : Memory
  /-- The current FrameBuffer (R38). -/
  fb : FrameBuffer
  /-- The retained previous FrameBuffer (R39). -/
  prev : FrameBuffer
  /-- `SEQ` (R25). -/
  seq : StageCode
  /-- `ROW` (R25). -/
  row : Nat
  /-- `COL` (R25). -/
  col : Nat
  /-- The working registers and delay lines (R21 to R23, R36). -/
  work : Work
  /-- `LOG` (R40). -/
  log : List LogEvent
  /-- The MODEL's: the host's actions still to come (log 1). -/
  host : List HostAction
  /-- The MODEL's: what the host's last read returned (log 18). -/
  answer : Answer
  /-- The MODEL's: how the estimator's next answers break the range, if they do; an answer in range is always
  `MOTION_EST`'s, so that what a completed DECODE computes does not depend on this field (40_sequencer R128; log 9). -/
  estimate : Option OutOfRange
  /-- The MODEL's: the number of the next free draw (log 23). -/
  free : Nat
deriving DecidableEq, Repr

/-- Every configuration register 0 (R42). -/
def ConfigRegs.zero : ConfigRegs := ⟨0, 0, 0, 0, 0, 0, 0, 0⟩

/-- `ZeroFB`: every plane cell 0, `PH1 = PH2 = 0`, `BURST = 0` (R39; 40_sequencer R123). -/
def zeroFrame : FrameBuffer :=
  ⟨⟨none, []⟩, ⟨none, []⟩, ⟨none, []⟩, ⟨none, []⟩, ⟨none, []⟩, ⟨none, []⟩, 0, 0, 0⟩

/-- A FrameBuffer whose planes hold the unspecified contents number `n` (R42), with the given latched arguments. -/
def unspecifiedFrame (n : Nat) (ph1 ph2 : BitVec 8) (burst : R) : FrameBuffer :=
  ⟨⟨some n, []⟩, ⟨some n, []⟩, ⟨some n, []⟩, ⟨some n, []⟩, ⟨some n, []⟩, ⟨some n, []⟩, ph1, ph2, burst⟩

/-- Every working register 0 and no delay line (R42). -/
def Work.zero : Work := ⟨false, false, false, 0, 0, 0, 0, [], []⟩

/-- The state after hardware reset (R42; 70 R260), with the unspecified contents of the byte spaces and of `FB` being
draw number `n` (log 4) and the latched arguments of `FB` at 0 (log 5). -/
def State.freshReset (n : Nat) : State where
  status := ⟨.idle, false, false, false, false, false, none, 0⟩
  shadow := .zero
  active := .zero
  args := ⟨0, 0, 0, 0, 0⟩
  mem := ⟨⟨n, []⟩, ⟨n, []⟩, ⟨n, []⟩⟩
  fb := unspecifiedFrame n 0 0 0
  prev := zeroFrame
  seq := 0
  row := 0
  col := 0
  work := .zero
  log := []
  host := []
  answer := .word 0
  estimate := none
  free := n + 1

/-- The machine right after the first hardware reset (R42). -/
def State.reset : State := State.freshReset 0

end Sys2Proof.Machine
end

