-- ==== Sys2Proof/Machine/Operands.lean ====
section
/-! DEFINITION. The operand forms: the short names of 00_scope R13 over a configuration copy, arithmetic of R11, byte
addresses (20_memory R62, R69), the subcarrier phase, the tap lists of a pass, fixed values of parameters. -/

namespace Sys2Proof.Machine

/-! ### Arithmetic (00_scope R11) -/

/-- `clamp(v, lo, hi)`. -/
def clamp (v lo hi : R) : R := if v < lo then lo else if hi < v then hi else v

/-- `abs(v)`. -/
def magnitude (v : R) : R := if 0 ≤ v then v else -v

/-- `clip(v, t)` for `t ≥ 0`. -/
def clip (v t : R) : R := clamp v (-t) t

/-! ### Short names (00_scope R13) -/

/-- `FW`. -/
def ConfigRegs.FW (c : ConfigRegs) : Nat := c.fw.toNat
/-- `FH`. -/
def ConfigRegs.FH (c : ConfigRegs) : Nat := c.fh.toNat
/-- `AVS`. -/
def ConfigRegs.AVS (c : ConfigRegs) : Nat := c.avs.toNat
/-- `AVE`. -/
def ConfigRegs.AVE (c : ConfigRegs) : Nat := c.ave.toNat
/-- `FVL`. -/
def ConfigRegs.FVL (c : ConfigRegs) : Nat := c.fvl.toNat
/-- `BLK`. -/
def ConfigRegs.BLK (c : ConfigRegs) : Nat := c.blk.toNat
/-- `WHT`. -/
def ConfigRegs.WHT (c : ConfigRegs) : Nat := c.wht.toNat
/-- `MONO` (10_state R32). -/
def ConfigRegs.mono (c : ConfigRegs) : Bool := c.mode.getLsbD 0
/-- `WP100` (10_state R32). -/
def ConfigRegs.wp100 (c : ConfigRegs) : Bool := c.mode.getLsbD 1
/-- `CLPF` (10_state R32). -/
def ConfigRegs.clpfOn (c : ConfigRegs) : Bool := c.mode.getLsbD 2
/-- `CLPFHQ` (10_state R32). -/
def ConfigRegs.clpfHq (c : ConfigRegs) : Bool := c.mode.getLsbD 3
/-- `M3D` (10_state R32). -/
def ConfigRegs.m3d (c : ConfigRegs) : Bool := c.mode.getLsbD 4
/-- `OVL` (10_state R32). -/
def ConfigRegs.ovl (c : ConfigRegs) : Bool := c.mode.getLsbD 5

/-- `FRH = 2·FH − 1`, an integer: −1 when `FH = 0`. -/
def ConfigRegs.FRH (c : ConfigRegs) : Int := 2 * (c.FH : Int) - 1

/-- `max(FRH, 0)`: the number of frame rows, what `FRAMEH` shows (10_state R34). -/
def ConfigRegs.frameRows (c : ConfigRegs) : Nat := c.FRH.toNat

/-- `IRES = (WHT − BLK)/100`. -/
def ConfigRegs.IRES (c : ConfigRegs) : R := (toR c.wht - toR c.blk) / 100

/-- `OUTLEN = FW × max(FRH, 0) × 6`, in bytes (10_state R34, 40_sequencer R130). -/
def ConfigRegs.outLen (c : ConfigRegs) : Nat := c.FW * c.frameRows * 6

/-! ### Addresses -/

/-- Byte address of line `j`, column `c` of a field buffer of width `fw` (20_memory R62). -/
def fieldAddr (fw j c : Nat) : Nat := 2 * (j * fw + c)

/-- Byte address of channel `ch` of pixel `(r, h)` in `OUT` (20_memory R69, 47 R218). -/
def outAddr (fw r h ch : Nat) : Nat := 2 * (r * fw * 3 + 3 * h + 6 + ch)

/-! ### Subcarrier phase -/

/-- The four-phase cycle of the columns (00_scope R14 "Subcarrier phase"). -/
inductive Phase where
  | p0 | p1 | p2 | p3
deriving DecidableEq, Repr

/-- `h mod 4`. -/
def phase (h : Nat) : Phase :=
  if h % Config.phases = 0 then .p0 else if h % Config.phases = 1 then .p1
  else if h % Config.phases = 2 then .p2 else .p3

/-! ### Parameters as the passes read them -/

/-- The coefficient list `[b0, b1, …]` (41 R144). -/
def tapCoeffs (t : Taps) : List R := t.head :: t.tail

/-- `YNR_FACTOR`, `≥ 0`. -/
def nonnegVal (x : NonnegReal) : R := (x.num : R) / ((x.den : R) + 1)

/-- `WP_ALT_GAIN`, `> 0`. -/
def posVal (x : PosReal) : R := ((x.num : R) + 1) / ((x.den : R) + 1)

/-- A value of `MOTION_EST`, in [0, 1]. -/
def unitVal (x : UnitReal) : R := ((x.num % (x.den + 2) : Nat) : R) / ((x.den : R) + 1)

/-- The value, outside [0, 1], of an answer that breaks the range (43 R170). -/
def outOfRangeVal (a : OutOfRange) : R := if a.above then 1 + posVal a.excess else -posVal a.excess

/-- `FIRLP_I_HQ`, `FIRLP_Q_HQ`: "wired to the same coefficients as the standard one" (45 R192). -/
def firlpHq (P : Impl) : Taps × Taps := (P.firlpI, P.firlpQ)

/-- The coefficient lists `(BI, BQ)` that CLPF selects by `CLPFHQ` (45 R191, R192). -/
def lowPassTaps (P : Impl) (hq : Bool) : Taps × Taps := if hq then firlpHq P else (P.firlpI, P.firlpQ)

/-- `YGAIN` (47 R214). -/
def lumaGain (P : Impl) (c : ConfigRegs) : R :=
  let full := 65535 / (toR c.wht - toR c.blk)
  if c.wp100 then full else full * posVal P.wpAltGain

/-- `CGAIN(BURST, WHT, BLK, WP100)` (47 R215). -/
def chromaGain (P : Impl) (c : ConfigRegs) (burst : R) : R := P.cgain burst c.WHT c.BLK c.wp100

end Sys2Proof.Machine
end

