-- ==== Sys2Proof/Machine/Flags.lean ====
section
/-! DEFINITION. Every flag computation: the `STATUS` word and its codes (10_state R29; 60_exceptions R231, R234), the
warning conditions (60 R231), the phase-inversion flags (41 R140, R141) and the sign they stand for (41 R143). -/

namespace Sys2Proof.Machine

/-! ### `STATUS` -/

/-- The field `RUN` (10_state R29). -/
def runCode : RunState → BitVec 2
  | .idle => 0
  | .busy => 1
  | .faulted => 2

/-- The field `FAULT` (60_exceptions R234). -/
def faultCode : Option FaultCause → BitVec 8
  | none => 0
  | some .illegalCommand => 1
  | some .notConfigured => 2
  | some .calibration => 3
  | some .bounds => 4
  | some .motion => 5

/-- The field `SEQ`: the faulting pass when `RUN = FAULTED`, 0 otherwise (10_state R29). -/
def statusSeqField (st : Status) : StageCode := if st.run = .faulted then st.seq else 0

/-- The 32-bit register `STATUS` (10_state R29). -/
def statusWord (st : Status) : Word :=
  0#8 ++ statusSeqField st ++ faultCode st.fault ++ 0#1 ++ BitVec.ofBool st.wAvs ++ BitVec.ofBool st.wFrh
    ++ BitVec.ofBool st.wFw ++ BitVec.ofBool st.done ++ BitVec.ofBool st.configured ++ runCode st.run

/-! ### Warnings -/

/-- The code of a warning in `LOG` (60_exceptions R231). -/
def warningCode : Warning → Nat
  | .width => 1
  | .height => 2
  | .activeStart => 3

/-- The condition of a warning on a configuration (60_exceptions R231, 40_sequencer R121). -/
def warns (c : ConfigRegs) : Warning → Bool
  | .width => decide (c.FW > Config.maxFw)
  | .height => decide (c.FRH > (Config.maxFrh : Int))
  | .activeStart => decide (c.AVS < Config.minAvs)

/-- The value recorded with a warning (60_exceptions R231). -/
def warningValue (c : ConfigRegs) : Warning → Nat
  | .width => c.FW
  | .height => c.frameRows
  | .activeStart => c.AVS

/-- The events of one CONFIG, in the order Width, Height, ActiveStart (60_exceptions R233). -/
def warningEvents (c : ConfigRegs) : List LogEvent :=
  ([Warning.width, .height, .activeStart].filter (warns c)).map fun w => ⟨w, warningValue c w⟩

/-- `CALIBRATION`: `WHT ≤ BLK`, the condition of `CalibrationFault` (40_sequencer R125). -/
def calibrationBad (c : ConfigRegs) : Bool := decide (c.WHT ≤ c.BLK)

/-! ### The phase-inversion tracker -/

/-- The initial flag of the even/top field: its phase ID is 2 or 3 (41 R140). -/
def initTop (ph1 : BitVec 8) : Bool := ph1 == 2 || ph1 == 3

/-- The initial flag of the odd/bottom field: its phase ID is 1 or 4 (41 R140). -/
def initBot (ph2 : BitVec 8) : Bool := ph2 == 1 || ph2 == 4

/-- `TrackerInit()` (41 R140). -/
def trackerInit (fb : FrameBuffer) (w : Work) : Work :=
  { w with topInv := initTop fb.ph1, botInv := initBot fb.ph2 }

/-- `TrackerVisit(r)`: the flag of the row's parity toggles and is the line's inversion state (41 R141). -/
def trackerVisit (r : Nat) (w : Work) : Work :=
  if r % 2 = 0 then { w with topInv := !w.topInv, inv := !w.topInv }
  else { w with botInv := !w.botInv, inv := !w.botInv }

/-- `sgn(inv)`: −1 if `inv = INV_NEGATES`, else +1 (41 R143). -/
def sgn (P : Impl) (inv : Bool) : R := if inv = P.invNegates then -1 else 1

end Sys2Proof.Machine
end

