-- ==== Sys2Proof/Machine/Ops.lean ====
section
/-! DEFINITION. The named operations every meaning is built from: cells and bytes in canonical form, bounds-checked
access (20_memory R61, R65, R66), FIR lines (41 R144), loops (00_scope R12), fault entry (60_exceptions R236), the
sequencer (40_sequencer R124) and the frame of a pass. -/

namespace Sys2Proof.Machine

/-! ### Sparse data: cells listed in strictly rising key order -/

/-- The value listed at a key. -/
def lookupCell {κ α : Type} [DecidableEq κ] (k : κ) : List (κ × α) → Option α
  | [] => none
  | (k', v) :: rest => if k = k' then some v else lookupCell k rest

/-- The list with a value at a key, in key order. -/
def putCell {κ α : Type} [DecidableEq κ] (lt : κ → κ → Bool) (k : κ) (v : α) : List (κ × α) → List (κ × α)
  | [] => [(k, v)]
  | (k', v') :: rest =>
    if k = k' then (k, v) :: rest
    else if lt k k' then (k, v) :: (k', v') :: rest
    else (k', v') :: putCell lt k v rest

/-- The list with nothing at a key. -/
def dropCell {κ α : Type} [DecidableEq κ] (k : κ) (cells : List (κ × α)) : List (κ × α) :=
  cells.filter fun c => decide (c.1 ≠ k)

/-- The order of addresses. -/
def addrLt (a b : Nat) : Bool := decide (a < b)

/-- The order of plane coordinates: row by row, and by column in a row. -/
def coordLt (a b : Nat × Nat) : Bool := decide (a.1 < b.1) || (decide (a.1 = b.1) && decide (a.2 < b.2))

/-! ### Byte spaces -/

/-- The byte at an address: the one written there, else the unspecified contents of the space (log 4). -/
def byteAt (space : ByteSpace) (m : ByteBuf) (a : Nat) : Byte :=
  match lookupCell a m.cells with
  | some b => b
  | none => Config.freeByte space m.epoch a

/-- One byte written. -/
def setByte (m : ByteBuf) (a : Nat) (b : Byte) : ByteBuf := { m with cells := putCell addrLt a b m.cells }

/-- The bytes of a list written from an address on. -/
def setBytes (m : ByteBuf) (a : Nat) : List Byte → ByteBuf
  | [] => m
  | b :: rest => setBytes (setByte m a b) (a + 1) rest

/-- `MemWrite(S, 2·i, 2, 0)` for every 16-bit value below `len` bytes (40_sequencer R125): every byte below `len` is 0,
the rest as before. -/
def zeroFill (m : ByteBuf) (len : Nat) : ByteBuf :=
  { m with cells := (List.range len).map (fun a => (a, (0 : Byte))) ++ m.cells.filter fun c => decide (len ≤ c.1) }

/-- Contents that are unspecified from now on: free draw number `n` (10_state R42, 60_exceptions R236). -/
def forgetBytes (n : Nat) : ByteBuf := ⟨n, []⟩

/-- The canonical form: addresses strictly rising. An unlisted byte has no value, so no entry repeats it. -/
abbrev ByteBuf.wf (m : ByteBuf) : Prop := m.cells.Pairwise fun a b => addrLt a.1 b.1 = true

/-- The canonical form of the three byte spaces. -/
abbrev Memory.wf (m : Memory) : Prop := ByteBuf.wf m.field1 ∧ ByteBuf.wf m.field2 ∧ ByteBuf.wf m.out

/-- `MemRead(S, a, 2)`, little-endian, within `len` bytes (20_memory R61, R65). -/
def memRead (space : ByteSpace) (len : Nat) (m : ByteBuf) (a : Nat) : Except FaultCause Sample :=
  if a + 2 ≤ len then .ok (byteAt space m (a + 1) ++ byteAt space m a) else .error .bounds

/-- `MemWrite(S, a, 2, v)`, little-endian, within `len` bytes (20_memory R61, R65). -/
def memWrite (len : Nat) (m : ByteBuf) (a : Nat) (v : Sample) : Except FaultCause ByteBuf :=
  if a + 2 ≤ len then .ok (setByte (setByte m a (v.extractLsb' 0 8)) (a + 1) (v.extractLsb' 8 8))
  else .error .bounds

/-! ### Planes -/

/-- What a plane's cells are: the value 0 and the unspecified contents. -/
structure CellKind (α : Type) where
  zero : α
  free : (epoch : Nat) → (row : Nat) → (col : Nat) → α

/-- `RAW`. -/
def rawKind : CellKind Sample := ⟨0, Config.freeSample⟩
/-- `C1D`, `C2D`, `C3D`, `K`, by their place. -/
def realKind (p : RealPlace) : CellKind R := ⟨0, Config.freeReal p⟩
/-- `YIQ`. -/
def yiqKind : CellKind Yiq :=
  ⟨⟨0, 0, 0⟩, fun n r c => ⟨Config.freeReal .yiqY n r c, Config.freeReal .yiqI n r c, Config.freeReal .yiqQ n r c⟩⟩

/-- What an unlisted cell of a plane reads as: 0, or the unspecified contents of its epoch (20_memory R67, log 4). -/
def unlistedCell {α : Type} (kind : CellKind α) (epoch : Option Nat) (r c : Nat) : α :=
  match epoch with
  | none => kind.zero
  | some n => kind.free n r c

/-- `P[r][c]`, read. -/
def cellAt {α : Type} (kind : CellKind α) (p : Plane α) (r c : Nat) : α :=
  match lookupCell (r, c) p.cells with
  | some v => v
  | none => unlistedCell kind p.epoch r c

/-- `P[r][c] <- v`, keeping the canonical form: in a plane whose unlisted cells are 0, a 0 is not listed. -/
def setCell {α : Type} [DecidableEq α] (kind : CellKind α) (p : Plane α) (r c : Nat) (v : α) : Plane α :=
  if p.epoch = none ∧ v = kind.zero then { p with cells := dropCell (r, c) p.cells }
  else { p with cells := putCell coordLt (r, c) v p.cells }

/-- The plane whose cell `(r, c)` is `f r c` for every row below `rows` and column below `cols`, and 0 outside. -/
def planeOf {α : Type} [DecidableEq α] (kind : CellKind α) (rows cols : Nat) (f : Nat → Nat → α) : Plane α :=
  ⟨none, (List.range rows).flatMap fun r => (List.range cols).filterMap fun c =>
    if f r c = kind.zero then none else some ((r, c), f r c)⟩

/-- The canonical form: coordinates strictly rising, and no entry that repeats what an unlisted cell reads as. -/
abbrev Plane.wf {α : Type} [DecidableEq α] (kind : CellKind α) (p : Plane α) : Prop :=
  (p.cells.Pairwise fun a b => coordLt a.1 b.1 = true) ∧ (p.epoch = none → ∀ c ∈ p.cells, c.2 ≠ kind.zero)

/-- Every plane of a FrameBuffer is in canonical form. -/
abbrev FrameBuffer.wf (fb : FrameBuffer) : Prop :=
  Plane.wf rawKind fb.raw ∧ Plane.wf (realKind .c1d) fb.c1d ∧ Plane.wf (realKind .c2d) fb.c2d
    ∧ Plane.wf (realKind .c3d) fb.c3d ∧ Plane.wf yiqKind fb.yiq ∧ Plane.wf (realKind .k) fb.k

/-- `0 ≤ r < CAP_ROWS` and `0 ≤ c < CAP_COLS` (20_memory R66). -/
def inCapacity (P : Impl) (r c : Int) : Bool :=
  decide (0 ≤ r) && decide (r < (P.capRows : Int)) && decide (0 ≤ c) && decide (c < (P.capCols : Int))

/-- The further bound of the current frame's `RAW`: `r < FRH` and `c < FW` (20_memory R66). -/
def inFrame (cfg : ConfigRegs) (r c : Int) : Bool := decide (r < cfg.FRH) && decide (c < (cfg.FW : Int))

/-- `P[r][c]` read with its bounds check; row and column are integers before the check (20_memory R66). -/
def readCell {α : Type} (P : Impl) (kind : CellKind α) (p : Plane α) (r c : Int) : Except FaultCause α :=
  if inCapacity P r c then .ok (cellAt kind p r.toNat c.toNat) else .error .bounds

/-- `P[r][c] <- v` with its bounds check (20_memory R66). -/
def writeCell {α : Type} [DecidableEq α] (P : Impl) (kind : CellKind α) (p : Plane α) (r c : Int) (v : α) :
    Except FaultCause (Plane α) :=
  if inCapacity P r c then .ok (setCell kind p r.toNat c.toNat v) else .error .bounds

/-- `RAW[r][c]` of the current frame, exactly embedded in `R` (20_memory R66, 00_scope R10). -/
def readRaw (P : Impl) (cfg : ConfigRegs) (fb : FrameBuffer) (r c : Int) : Except FaultCause R :=
  if inFrame cfg r c then (readCell P rawKind fb.raw r c).map toR else .error .bounds

/-- `RAW[r][c] <- v` of the current frame (20_memory R66). -/
def writeRaw (P : Impl) (cfg : ConfigRegs) (fb : FrameBuffer) (r c : Int) (v : Sample) :
    Except FaultCause (Plane Sample) :=
  if inFrame cfg r c then writeCell P rawKind fb.raw r c v else .error .bounds

/-! ### FIR lines (41 R144) -/

/-- `fresh FIR(B)`: a delay line as long as the coefficient list, all zero. -/
def freshFir (t : Taps) : List R := List.replicate (tapCoeffs t).length 0

/-- `b0·d[0] + b1·d[1] + …`. -/
def weightedSum : List R → List R → R
  | b :: bs, d :: ds => b * d + weightedSum bs ds
  | _, _ => 0

/-- The delay line after `v` is shifted in. -/
def shiftIn (v : R) (d : List R) : List R := v :: d.dropLast

/-- `feed(v)`: what it returns, and the delay line it leaves. -/
def feed (t : Taps) (d : List R) (v : R) : R × List R := (weightedSum (tapCoeffs t) (shiftIn v d), shiftIn v d)

/-! ### Loops (00_scope R12) -/

/-- `for v in [a, b)`: ascending, no iteration when `b ≤ a`, stopping at the first fault. -/
def forRange {σ : Type} (a b : Nat) (body : Nat → σ → Except FaultCause σ) (x : σ) : Except FaultCause σ :=
  (List.range' a (b - a)).foldlM (fun y v => body v y) x

/-! ### What a pass works on -/

/-- The scratch state of a command (60_exceptions R240): the current FrameBuffer, `OUT` and the working registers. A
pass reads the rest of the state and changes only this; STOREPREV alone also writes `PREV`. -/
structure Scratch where
  fb : FrameBuffer
  out : ByteBuf
  work : Work
deriving DecidableEq, Repr

/-- The scratch state of a state. -/
def State.scratch (s : State) : Scratch := ⟨s.fb, s.mem.out, s.work⟩

/-- The state with another scratch state. -/
def State.withScratch (s : State) (x : Scratch) : State :=
  { s with fb := x.fb, mem := { s.mem with out := x.out }, work := x.work }

/-! ### Working registers between passes: any value (93 S13; log 6) -/

/-- After a pass that used the tracker (10_state R21). -/
def releaseTracker (n : Nat) (w : Work) : Work :=
  { w with topInv := Config.freeInv .topInv n, botInv := Config.freeInv .botInv n, inv := Config.freeInv .inv n }

/-- After a pass that used the combiner's hold registers (10_state R22). -/
def releaseCombiner (n : Nat) (w : Work) : Work :=
  { w with si := Config.freeHold .si n, sq := Config.freeHold .sq n }

/-- After a pass that used the low-pass hold registers (10_state R23). -/
def releaseLowPass (n : Nat) (w : Work) : Work :=
  { w with vi := Config.freeHold .vi n, vq := Config.freeHold .vq n }

/-- The delay lines are discarded at the end of the line (10_state R36). -/
def discardFir (w : Work) : Work := { w with fi := [], fq := [] }

/-- After a pass that uses no working register. -/
def keepWork (_ : Nat) (w : Work) : Work := w

/-- After a pass fault: every working register any value, no delay line (93 S13). -/
def releaseAll (n : Nat) (w : Work) : Work :=
  discardFir (releaseLowPass n (releaseCombiner n (releaseTracker n w)))

/-! ### Fault entry (60_exceptions R236) -/

/-- The causes raised before any state change, outside a pass (60_exceptions R236). -/
def raisedOutsidePass : FaultCause → Bool
  | .illegalCommand | .notConfigured => true
  | .calibration | .bounds | .motion => false

/-- The stage a fault records: `SEQ`, and 0 when it is raised outside a pass (60_exceptions R234, R236 (3)). -/
def faultStage (cause : FaultCause) (s : State) : StageCode := if raisedOutsidePass cause then 0 else s.seq

/-- R236 (2) to (5): code, stage, `SEQ` 0, `DONE` 0, `FAULTED`. -/
def recordFault (cause : FaultCause) (s : State) : State :=
  { s with
    status := { s.status with fault := some cause, seq := faultStage cause s, done := false, run := .faulted }
    seq := 0 }

/-- The contents of `FB` and `OUT` become unspecified (60_exceptions R236): free draw number `s.free`; so do the
counters and working registers (93 S13). -/
def forgetScratch (s : State) : State :=
  { s with
    fb := unspecifiedFrame s.free (Config.freePhaseId false s.free) (Config.freePhaseId true s.free)
      (Config.freeBurst s.free)
    mem := { s.mem with out := forgetBytes s.free }
    work := releaseAll s.free s.work
    row := Config.freeCount .row s.free
    col := Config.freeCount .col s.free
    free := s.free + 1 }

/-- `raise F` (60_exceptions R236). -/
def raise (cause : FaultCause) (s : State) : State :=
  recordFault cause (if raisedOutsidePass cause then s else forgetScratch s)

/-- Leaving `FAULTED`, the one way there is: hardware reset (60_exceptions R238, 70 R260, 10_state R42). The host's own
list and last answer and the estimator are not the block's and stay (log 15). -/
def hardwareReset (s : State) : State :=
  { State.freshReset s.free with host := s.host, answer := s.answer, estimate := s.estimate }

/-! ### The sequencer (40_sequencer R124) -/

/-- The stage code after a pass, 0x00 at the end (40_sequencer R124). A command has no stage after it. -/
def nextStage (c : ConfigRegs) : Instr → StageCode
  | .fbinit => stageCode .ilace
  | .ilace => stageCode .sep1d
  | .sep1d => stageCode .sep2d
  | .sep2d => stageCode .iqcomb
  | .iqcomb => if c.m3d then stageCode .motion else if c.clpfOn then stageCode .clpf else stageCode .ynr
  | .motion => stageCode .sep3d
  | .sep3d => stageCode .iqmix
  | .iqmix => if c.clpfOn then stageCode .clpf else stageCode .ynr
  | .clpf => stageCode .ynr
  | .ynr => stageCode .cnr
  | .cnr => stageCode .yclean
  | .yclean => stageCode .torgb
  | .torgb => if c.ovl && c.m3d then stageCode .overlay else if c.m3d then stageCode .storeprev else 0x00#8
  | .overlay => stageCode .storeprev
  | .storeprev => 0x00#8
  | .nop | .config | .decode | .resetprev => 0x00#8

/-- The next stage; at the end of the sequence `RUN <- IDLE`, `DONE <- 1` (40_sequencer R122, R124). -/
def advance (code : StageCode) (s : State) : State :=
  if code = 0x00#8 then { s with seq := 0x00#8, status := { s.status with run := .idle, done := true } }
  else { s with seq := code }

/-- The loop counters are any value between passes (93 S13), by one free draw. -/
def releaseCounters (s : State) : State :=
  { s with row := Config.freeCount .row s.free, col := Config.freeCount .col s.free, free := s.free + 1 }

/-- The end of a pass: its scratch state, its working registers released, the next stage. -/
def finishPass (i : Instr) (release : Nat → Work → Work) (s : State) (x : Scratch) : State :=
  advance (nextStage s.active i)
    (releaseCounters (s.withScratch { x with work := release s.free x.work }))

/-- A pass: its body on the scratch state, then its end, or the fault entry (40_sequencer R124, 60_exceptions R236). -/
def runPass (i : Instr) (release : Nat → Work → Work) (body : State → Scratch → Except FaultCause Scratch)
    (s : State) : Host.Outcome State Fault Refusal :=
  .next (match body s s.scratch with
    | .ok x => finishPass i release s x
    | .error cause => raise cause s)

end Sys2Proof.Machine
end

