-- ==== Sys2Proof/Machine/Combiner.lean ====
section
/-! DEFINITION. The IQ combiner: IQCOMB and IQMIX (44 R180 to R184). -/

namespace Sys2Proof.Machine

/-- The hold registers after a signed estimate is routed by the column's phase (44 R180, R183). -/
def routeIq (ph : Phase) (c : R) (w : Work) : Work :=
  match ph with
  | .p0 => { w with sq := c }
  | .p1 => { w with si := -c }
  | .p2 => { w with sq := -c }
  | .p3 => { w with si := c }

/-- One column of the combiner with estimate `est` (44 R180). -/
def combineColumn (P : Impl) (cfg : ConfigRegs) (est : FrameBuffer → Nat → Nat → Except FaultCause R) (r h : Nat)
    (x : Scratch) : Except FaultCause Scratch := do
  let e ← est x.fb r h
  let w := routeIq (phase h) (sgn P x.work.inv * e) x.work
  let y ← readRaw P cfg x.fb r h
  let yiq ← writeCell P yiqKind x.fb.yiq r h ⟨y, w.si, w.sq⟩
  .ok { x with fb := { x.fb with yiq := yiq }, work := w }

/-- The start of a line of the combiner: the tracker's visit, both hold registers 0 (44 R180, 10_state R22). -/
def combineLineStart (r : Nat) (w : Work) : Work := { trackerVisit r w with si := 0, sq := 0 }

/-- One line of the combiner (44 R180). -/
def combineLine (P : Impl) (cfg : ConfigRegs) (est : FrameBuffer → Nat → Nat → Except FaultCause R) (r : Nat)
    (x : Scratch) : Except FaultCause Scratch :=
  forRange cfg.AVS cfg.AVE (combineColumn P cfg est r) { x with work := combineLineStart r x.work }

/-- The combiner over the visible lines (44 R180). -/
def combineBody (P : Impl) (est : FrameBuffer → Nat → Nat → Except FaultCause R) (s : State) (x : Scratch) :
    Except FaultCause Scratch :=
  forRange s.active.FVL s.active.frameRows (combineLine P s.active est) { x with work := trackerInit x.fb x.work }

/-- `Est(r, h) = C2D[r][h]` (44 R180, R181). -/
def estimateFrom2d (P : Impl) (fb : FrameBuffer) (r h : Nat) : Except FaultCause R :=
  readCell P (realKind .c2d) fb.c2d r h

/-- `Est(r, h) = C2D·K + C3D·(1 − K)` (44 R184). -/
def estimateMixed (P : Impl) (fb : FrameBuffer) (r h : Nat) : Except FaultCause R := do
  let c2d ← readCell P (realKind .c2d) fb.c2d r h
  let k ← readCell P (realKind .k) fb.k r h
  let c3d ← readCell P (realKind .c3d) fb.c3d r h
  .ok (c2d * k + c3d * (1 - k))

/-- `IQCOMB` (44 R180). -/
def execIqcomb (s : State) : Host.Outcome State Fault Refusal :=
  runPass .iqcomb (fun n w => releaseCombiner n (releaseTracker n w))
    (combineBody Config.impl (estimateFrom2d Config.impl)) s

/-- `IQMIX` (44 R184). -/
def execIqmix (s : State) : Host.Outcome State Fault Refusal :=
  runPass .iqmix (fun n w => releaseCombiner n (releaseTracker n w))
    (combineBody Config.impl (estimateMixed Config.impl)) s

end Sys2Proof.Machine
end

