-- ==== Sys2Proof/Machine/Commands.lean ====
section
/-! DEFINITION. The host commands NOP, CONFIG, DECODE, RESETPREV (40_sequencer R120 to R123). That a command is issued
only while IDLE is the host port's business (10_state R28; Machine/HostPort.lean). -/

namespace Sys2Proof.Machine

/-- `NOP` (40_sequencer R120): no state changes. -/
def execNop (s : State) : Host.Outcome State Fault Refusal := .next s

/-- `CONFIG` (40_sequencer R121; 60_exceptions R232, R233): the shadow registers become active, the three warnings are
recomputed and logged; no value is refused. -/
def execConfig (s : State) : Host.Outcome State Fault Refusal :=
  .next { s with
    active := s.shadow
    status := { s.status with
      done := false
      wFw := warns s.shadow .width
      wFrh := warns s.shadow .height
      wAvs := warns s.shadow .activeStart
      configured := true }
    log := s.log ++ warningEvents s.shadow }

/-- `DECODE` (40_sequencer R122): `NotConfigured` before any state change, else the pass sequence starts at FBINIT; the
passes follow, one step each (R124; log 2). -/
def execDecode (s : State) : Host.Outcome State Fault Refusal :=
  .next (if s.status.configured then
      { s with status := { s.status with done := false, run := .busy }, seq := stageCode .fbinit }
    else raise .notConfigured s)

/-- `RESETPREV` (40_sequencer R123): `PREV <- ZeroFB`. -/
def execResetprev (s : State) : Host.Outcome State Fault Refusal := .next { s with prev := zeroFrame }

end Sys2Proof.Machine
end

