-- ==== Sys2Proof/Machine/Filters.lean ====
section
/-! DEFINITION. The chroma low-pass filter and the noise reducers: CLPF, YNR, CNR (45 R191; 46 R200 to R202). -/

namespace Sys2Proof.Machine

/-! ### CLPF (45 R191) -/

/-- The channel the column's phase advances: `VI` at phases 0 and 2, `VQ` at phases 1 and 3 (45 R191). -/
def advanceLowPass (taps : Taps × Taps) (ph : Phase) (v : Yiq) (w : Work) : Work :=
  match ph with
  | .p0 | .p2 => { w with vi := (feed taps.1 w.fi v.i).1, fi := (feed taps.1 w.fi v.i).2 }
  | .p1 | .p3 => { w with vq := (feed taps.2 w.fq v.q).1, fq := (feed taps.2 w.fq v.q).2 }

/-- One column of CLPF: column `h` read, then I and Q of column `h − 2` written, its Y kept (45 R191, R193). -/
def clpfColumn (P : Impl) (taps : Taps × Taps) (r h : Nat) (x : Scratch) : Except FaultCause Scratch := do
  let v ← readCell P yiqKind x.fb.yiq r h
  let w := advanceLowPass taps (phase h) v x.work
  let target ← readCell P yiqKind x.fb.yiq r ((h : Int) - Config.clpfShift)
  let yiq ← writeCell P yiqKind x.fb.yiq r ((h : Int) - Config.clpfShift) ⟨target.y, w.vi, w.vq⟩
  .ok { x with fb := { x.fb with yiq := yiq }, work := w }

/-- The start of a line of CLPF: two fresh filters, both hold registers 0 (45 R191, 10_state R23). -/
def clpfLineStart (taps : Taps × Taps) (w : Work) : Work :=
  { w with fi := freshFir taps.1, fq := freshFir taps.2, vi := 0, vq := 0 }

/-- One line of CLPF (45 R191). -/
def clpfLine (P : Impl) (cfg : ConfigRegs) (r : Nat) (x : Scratch) : Except FaultCause Scratch :=
  forRange cfg.AVS cfg.AVE (clpfColumn P (lowPassTaps P cfg.clpfHq) r)
    { x with work := clpfLineStart (lowPassTaps P cfg.clpfHq) x.work }

/-- The body of CLPF (45 R191). -/
def clpfBody (P : Impl) (s : State) (x : Scratch) : Except FaultCause Scratch :=
  forRange s.active.FVL s.active.frameRows (clpfLine P s.active) x

/-- `CLPF` (45 R191). -/
def execClpf (s : State) : Host.Outcome State Fault Refusal :=
  runPass .clpf (fun n w => discardFir (releaseLowPass n w)) (clpfBody Config.impl) s

/-! ### The noise reducers (46 R200) -/

/-- The values of one line's active columns, read left to right (46 R201, R202). -/
def readLine (P : Impl) (cfg : ConfigRegs) (fb : FrameBuffer) (part : Yiq → R) (r : Nat) : Except FaultCause (List R) :=
  (List.range' cfg.AVS (cfg.AVE - cfg.AVS)).mapM fun h => (readCell P yiqKind fb.yiq r h).map part

/-- One column of a noise reducer: the cell becomes `f` of its position in the line and of itself (46 R200). -/
def denoiseColumn (P : Impl) (cfg : ConfigRegs) (f : Nat → Yiq → Yiq) (r h : Nat) (x : Scratch) :
    Except FaultCause Scratch := do
  let v ← readCell P yiqKind x.fb.yiq r h
  let yiq ← writeCell P yiqKind x.fb.yiq r h (f (h - cfg.AVS) v)
  .ok { x with fb := { x.fb with yiq := yiq } }

/-- `T = YNR_FACTOR · IRES` (46 R201). -/
def ynrThreshold (P : Impl) (cfg : ConfigRegs) : R := nonnegVal P.ynrFactor * cfg.IRES

/-- One line of YNR: all residuals come from the line before any subtraction on it (46 R200, R201). -/
def ynrLine (P : Impl) (cfg : ConfigRegs) (r : Nat) (x : Scratch) : Except FaultCause Scratch := do
  let line ← readLine P cfg x.fb Yiq.y r
  forRange cfg.AVS cfg.AVE
    (denoiseColumn P cfg (fun j v => { v with y := v.y - clip (P.resY line j) (ynrThreshold P cfg) }) r) x

/-- The body of YNR (46 R201). -/
def ynrBody (P : Impl) (s : State) (x : Scratch) : Except FaultCause Scratch :=
  forRange s.active.FVL s.active.frameRows (ynrLine P s.active) x

/-- `YNR` (46 R201). -/
def execYnr (s : State) : Host.Outcome State Fault Refusal := runPass .ynr keepWork (ynrBody Config.impl) s

/-- `T = CNR_FACTOR · IRES`, that is 0 (46 R202). -/
def cnrThreshold (cfg : ConfigRegs) : R := Config.cnrFactor * cfg.IRES

/-- One line of CNR (46 R202). -/
def cnrLine (P : Impl) (cfg : ConfigRegs) (r : Nat) (x : Scratch) : Except FaultCause Scratch := do
  let lineI ← readLine P cfg x.fb Yiq.i r
  let lineQ ← readLine P cfg x.fb Yiq.q r
  forRange cfg.AVS cfg.AVE
    (denoiseColumn P cfg (fun j v => { v with
      i := v.i - clip (P.resC lineI j) (cnrThreshold cfg), q := v.q - clip (P.resC lineQ j) (cnrThreshold cfg) }) r) x

/-- The body of CNR (46 R202). -/
def cnrBody (P : Impl) (s : State) (x : Scratch) : Except FaultCause Scratch :=
  forRange s.active.FVL s.active.frameRows (cnrLine P s.active) x

/-- `CNR` (46 R202). -/
def execCnr (s : State) : Host.Outcome State Fault Refusal := runPass .cnr keepWork (cnrBody Config.impl) s

end Sys2Proof.Machine
end

