-- ==== Sys2Proof/Machine/FrameSetup.lean ====
section
/-! DEFINITION. The passes that build and keep a frame: FBINIT, ILACE, STOREPREV (40_sequencer R125 to R127). -/

namespace Sys2Proof.Machine

/-- The FrameBuffer FBINIT builds: every plane cell 0, the arguments latched (40_sequencer R125). -/
def freshFrame (a : Args) : FrameBuffer := { zeroFrame with ph1 := a.ph1, ph2 := a.ph2, burst := a.burst }

/-- The body of FBINIT (40_sequencer R125). -/
def fbinitBody (s : State) (x : Scratch) : Except FaultCause Scratch :=
  if calibrationBad s.active then .error .calibration
  else .ok { x with fb := freshFrame s.args, out := zeroFill x.out s.active.outLen }

/-- `FBINIT` (40_sequencer R125): its one fault leaves `FB` and `OUT` unspecified (60_exceptions R236), so the check
after the writes and the check before them are one. -/
def execFbinit (s : State) : Host.Outcome State Fault Refusal := runPass .fbinit keepWork fbinitBody s

/-- The sample of frame row `r`, column `c`: line `r div 2` of the first field for even rows, of the second for odd
rows (40_sequencer R126; 20_memory R62). -/
def fieldSample (s : State) (r c : Nat) : Except FaultCause Sample :=
  if r % 2 = 0 then memRead .field1 s.args.f1len.toNat s.mem.field1 (fieldAddr s.active.FW (r / 2) c)
  else memRead .field2 s.args.f2len.toNat s.mem.field2 (fieldAddr s.active.FW (r / 2) c)

/-- `RAW[r][c] <- MemRead(S, 2·(j·FW + c), 2)` (40_sequencer R126). -/
def ilaceCell (P : Impl) (s : State) (r c : Nat) (x : Scratch) : Except FaultCause Scratch := do
  let v ← fieldSample s r c
  let raw ← writeRaw P s.active x.fb r c v
  .ok { x with fb := { x.fb with raw := raw } }

/-- The body of ILACE: all rows `[0, FRH)`, all columns `[0, FW)` (40_sequencer R126). -/
def ilaceBody (P : Impl) (s : State) (x : Scratch) : Except FaultCause Scratch :=
  forRange 0 s.active.frameRows (fun r => forRange 0 s.active.FW (ilaceCell P s r)) x

/-- `ILACE` (40_sequencer R126). -/
def execIlace (s : State) : Host.Outcome State Fault Refusal := runPass .ilace keepWork (ilaceBody Config.impl) s

/-- `STOREPREV` (40_sequencer R127): `PREV <- FB`, the whole FrameBuffer as it stands. -/
def execStoreprev (s : State) : Host.Outcome State Fault Refusal :=
  .next (finishPass .storeprev keepWork { s with prev := s.fb } s.scratch)

end Sys2Proof.Machine
end

