-- ==== Sys2Proof/Machine/Output.lean ====
section
/-! DEFINITION. Y cleanup, the YIQ-to-RGB converter and the motion-map overlay: YCLEAN, TORGB, OVERLAY (47 R210 to
R219). -/

namespace Sys2Proof.Machine

/-! ### YCLEAN (47 R210) -/

/-- The correction term the neighbour two columns to the right supplies, by the phase of column `h` (47 R210). -/
def cleanupTerm (ph : Phase) (p : Yiq) : R :=
  match ph with
  | .p0 => p.q
  | .p1 => -p.i
  | .p2 => -p.q
  | .p3 => p.i

/-- One column of YCLEAN: only Y is written (47 R210, R211). -/
def ycleanColumn (P : Impl) (r h : Nat) (x : Scratch) : Except FaultCause Scratch := do
  let p ← readCell P yiqKind x.fb.yiq r ((h : Int) + 2)
  let v ← readCell P yiqKind x.fb.yiq r h
  let yiq ← writeCell P yiqKind x.fb.yiq r h { v with y := v.y + sgn P x.work.inv * cleanupTerm (phase h) p }
  .ok { x with fb := { x.fb with yiq := yiq } }

/-- One line of YCLEAN (47 R210). -/
def ycleanLine (P : Impl) (cfg : ConfigRegs) (r : Nat) (x : Scratch) : Except FaultCause Scratch :=
  forRange cfg.AVS cfg.AVE (ycleanColumn P r) { x with work := trackerVisit r x.work }

/-- The body of YCLEAN (47 R210). -/
def ycleanBody (P : Impl) (s : State) (x : Scratch) : Except FaultCause Scratch :=
  forRange s.active.FVL s.active.frameRows (ycleanLine P s.active) { x with work := trackerInit x.fb x.work }

/-- `YCLEAN` (47 R210). -/
def execYclean (s : State) : Host.Outcome State Fault Refusal :=
  runPass .yclean releaseTracker (ycleanBody Config.impl) s

/-! ### TORGB (47 R213 to R218) -/

/-- `(i, q)`: 0 in monochrome mode, else scaled by `CGAIN` (47 R215). -/
def chromaPair (P : Impl) (cfg : ConfigRegs) (burst : R) (v : Yiq) : R × R :=
  if cfg.mono then (0, 0) else (v.i * chromaGain P cfg burst, v.q * chromaGain P cfg burst)

/-- `y = (Y − BLK)·YGAIN` (47 R214). -/
def lumaValue (P : Impl) (cfg : ConfigRegs) (v : Yiq) : R := (v.y - toR cfg.blk) * lumaGain P cfg

/-- `(Rr, Gr, Br)` (47 R213, R216). -/
def rgbReal (P : Impl) (cfg : ConfigRegs) (burst : R) (v : Yiq) : R × R × R :=
  let y := lumaValue P cfg v
  let c := chromaPair P cfg burst v
  (y + P.mRgb.rI * c.1 + P.mRgb.rQ * c.2, y + P.mRgb.gI * c.1 + P.mRgb.gQ * c.2,
    y + P.mRgb.bI * c.1 + P.mRgb.bQ * c.2)

/-- A channel value: clamped to [0, 65535], then `OUT_ROUND` (47 R217). -/
def channelValue (P : Impl) (v : R) : Sample := BitVec.ofNat 16 (P.outRound (clamp v 0 (Config.maxSample : R)))

/-- One column of TORGB: the three channels in the order R, G, B (47 R213, R218). -/
def torgbColumn (P : Impl) (cfg : ConfigRegs) (r h : Nat) (x : Scratch) : Except FaultCause Scratch := do
  let v ← readCell P yiqKind x.fb.yiq r h
  let rgb := rgbReal P cfg x.fb.burst v
  let out0 ← memWrite cfg.outLen x.out (outAddr cfg.FW r h 0) (channelValue P rgb.1)
  let out1 ← memWrite cfg.outLen out0 (outAddr cfg.FW r h 1) (channelValue P rgb.2.1)
  let out2 ← memWrite cfg.outLen out1 (outAddr cfg.FW r h 2) (channelValue P rgb.2.2)
  .ok { x with out := out2 }

/-- The body of TORGB (47 R213). -/
def torgbBody (P : Impl) (s : State) (x : Scratch) : Except FaultCause Scratch :=
  forRange s.active.FVL s.active.frameRows
    (fun r => forRange s.active.AVS s.active.AVE (torgbColumn P s.active r)) x

/-- `TORGB` (47 R213). -/
def execTorgb (s : State) : Host.Outcome State Fault Refusal := runPass .torgb keepWork (torgbBody Config.impl) s

/-! ### OVERLAY (47 R219) -/

/-- `min(65535, old + floor(k·65535))` (47 R219). -/
def tinted (k : R) (old : Sample) : Sample :=
  BitVec.ofInt 16 (min (Config.maxSample : Int) ((old.toNat : Int) + (k * (Config.maxSample : R)).floor))

/-- One channel of OVERLAY (47 R219). -/
def tintChannel (cfg : ConfigRegs) (k : R) (r h ch : Nat) (out : ByteBuf) : Except FaultCause ByteBuf := do
  let old ← memRead .out cfg.outLen out (outAddr cfg.FW r h ch)
  memWrite cfg.outLen out (outAddr cfg.FW r h ch) (tinted k old)

/-- One column of OVERLAY: red and blue (47 R219). -/
def overlayColumn (P : Impl) (cfg : ConfigRegs) (r h : Nat) (x : Scratch) : Except FaultCause Scratch := do
  let k ← readCell P (realKind .k) x.fb.k r h
  let out0 ← tintChannel cfg k r h 0 x.out
  let out2 ← tintChannel cfg k r h 2 out0
  .ok { x with out := out2 }

/-- The body of OVERLAY (47 R219). -/
def overlayBody (P : Impl) (s : State) (x : Scratch) : Except FaultCause Scratch :=
  forRange s.active.FVL s.active.frameRows
    (fun r => forRange s.active.AVS s.active.AVE (overlayColumn P s.active r)) x

/-- `OVERLAY` (47 R219). -/
def execOverlay (s : State) : Host.Outcome State Fault Refusal :=
  runPass .overlay keepWork (overlayBody Config.impl) s

end Sys2Proof.Machine
end

