-- ==== Sys2Proof/Machine/Separators.lean ====
section
/-! DEFINITION. The 1D, 2D and 3D separators and the motion interface (41 R145; 42 R160 to R165; 43 R170, R173). -/

namespace Sys2Proof.Machine

/-! ### SEP1D (41 R145) -/

/-- One sample through the filter its column's phase selects, with the quadrant sign before it and its inverse after
it: the value `f` and the working registers (41 R145). -/
def route1d (P : Impl) (ph : Phase) (t : R) (w : Work) : R × Work :=
  match ph with
  | .p0 => ((feed P.fir1dI w.fi t).1, { w with fi := (feed P.fir1dI w.fi t).2 })
  | .p1 => (-(feed P.fir1dQ w.fq (-t)).1, { w with fq := (feed P.fir1dQ w.fq (-t)).2 })
  | .p2 => (-(feed P.fir1dI w.fi (-t)).1, { w with fi := (feed P.fir1dI w.fi (-t)).2 })
  | .p3 => ((feed P.fir1dQ w.fq t).1, { w with fq := (feed P.fir1dQ w.fq t).2 })

/-- One column of SEP1D (41 R145): the exact mean of the two neighbours minus the sample, signed, routed, signed back. -/
def sep1dColumn (P : Impl) (cfg : ConfigRegs) (r h : Nat) (x : Scratch) : Except FaultCause Scratch := do
  let left ← readRaw P cfg x.fb r ((h : Int) - 2)
  let right ← readRaw P cfg x.fb r ((h : Int) + 2)
  let mid ← readRaw P cfg x.fb r h
  let s := sgn P x.work.inv
  let routed := route1d P (phase h) (s * ((left + right) / 2 - mid)) x.work
  let c1d ← writeCell P (realKind .c1d) x.fb.c1d r h (s * routed.1)
  .ok { x with fb := { x.fb with c1d := c1d }, work := routed.2 }

/-- The start of a line of SEP1D: the tracker's visit and two fresh filters (41 R145). -/
def sep1dLineStart (P : Impl) (r : Nat) (w : Work) : Work :=
  { trackerVisit r w with fi := freshFir P.fir1dI, fq := freshFir P.fir1dQ }

/-- One line of SEP1D. -/
def sep1dLine (P : Impl) (cfg : ConfigRegs) (r : Nat) (x : Scratch) : Except FaultCause Scratch :=
  forRange cfg.AVS cfg.AVE (sep1dColumn P cfg r) { x with work := sep1dLineStart P r x.work }

/-- The body of SEP1D (41 R145). -/
def sep1dBody (P : Impl) (s : State) (x : Scratch) : Except FaultCause Scratch :=
  forRange s.active.FVL s.active.frameRows (sep1dLine P s.active) { x with work := trackerInit x.fb x.work }

/-- `SEP1D` (41 R145). -/
def execSep1d (s : State) : Host.Outcome State Fault Refusal :=
  runPass .sep1d (fun n w => discardFir (releaseTracker n w)) (sep1dBody Config.impl) s

/-! ### SEP2D (42 R160 to R165) -/

/-- The difference measure of one neighbour line `x` (42 R161). -/
def lineDifference (c0 c1 x0 x1 : R) : R :=
  magnitude (magnitude c0 - magnitude x0) + magnitude (magnitude c1 - magnitude x1)
    - Config.tolLine * (magnitude c0 + magnitude c1)

/-- The weight of a difference (42 R162). -/
def lineWeight (ires d : R) : R := clamp (1 - d / (Config.k2dRange * ires)) 0 1

/-- `(kp, kn, sc)` after the tie-break (42 R163) or, when both weights are 0, after the agreement test (42 R164). -/
def tieBreak (kp kn p0 n0 : R) : R × R × R :=
  if 0 < kp ∨ 0 < kn then
    let kp' := if Config.ratio2d * kp < kn then 0 else kp
    let kn' := if Config.ratio2d * kp < kn then kn else if Config.ratio2d * kn < kp then 0 else kn
    let sc := 2 / (kp' + kn')
    (kp', kn', if sc < 1 then 1 else sc)
  else if magnitude (magnitude p0 - magnitude n0) - Config.tolPair * magnitude (p0 + n0) ≤ 0 then (1, 1, 1)
  else (kp, kn, 1)

/-- The 2D estimate of one pixel (42 R161 to R165). -/
def estimate2d (ires c0 c1 p0 p1 n0 n1 : R) : R :=
  let k := tieBreak (lineWeight ires (lineDifference c0 c1 p0 p1)) (lineWeight ires (lineDifference c0 c1 n0 n1)) p0 n0
  ((c0 - p0) * k.1 * k.2.2 + (c0 - n0) * k.2.1 * k.2.2) / Config.div2d

/-- One column of SEP2D (42 R160). -/
def sep2dColumn (P : Impl) (cfg : ConfigRegs) (r h : Nat) (x : Scratch) : Except FaultCause Scratch := do
  let c0 ← readCell P (realKind .c1d) x.fb.c1d r h
  let c1 ← readCell P (realKind .c1d) x.fb.c1d r ((h : Int) - 1)
  let p0 ← readCell P (realKind .c1d) x.fb.c1d ((r : Int) - 2) h
  let p1 ← readCell P (realKind .c1d) x.fb.c1d ((r : Int) - 2) ((h : Int) - 1)
  let n0 ← readCell P (realKind .c1d) x.fb.c1d ((r : Int) + 2) h
  let n1 ← readCell P (realKind .c1d) x.fb.c1d ((r : Int) + 2) ((h : Int) - 1)
  let c2d ← writeCell P (realKind .c2d) x.fb.c2d r h (estimate2d cfg.IRES c0 c1 p0 p1 n0 n1)
  .ok { x with fb := { x.fb with c2d := c2d } }

/-- The body of SEP2D: rows `r ≥ FVL`, `r ≥ 4`, `r < FRH − 1` (42 R160). -/
def sep2dBody (P : Impl) (s : State) (x : Scratch) : Except FaultCause Scratch :=
  forRange (max s.active.FVL 4) (s.active.FRH - 1).toNat
    (fun r => forRange s.active.AVS s.active.AVE (sep2dColumn P s.active r)) x

/-- `SEP2D` (42 R160). -/
def execSep2d (s : State) : Host.Outcome State Fault Refusal := runPass .sep2d keepWork (sep2dBody Config.impl) s

/-! ### MOTION (43 R170) -/

/-- Every value of the answered map lies in [0, 1] (43 R170). -/
def mapInRange (P : Impl) (m : Nat → Nat → R) : Bool :=
  (List.range P.capRows).all fun r => (List.range P.capCols).all fun c => decide (0 ≤ m r c) && decide (m r c ≤ 1)

/-- The estimator's answer to the current YIQ plane and `PREV`: `MOTION_EST` (43 R172), but for the one cell of the plane
in which an answer that breaks the range does so (log 9). -/
def motionAnswer (P : Impl) (s : State) (yiq : Plane Yiq) (r c : Nat) : R :=
  match s.estimate with
  | none => unitVal (P.motionEst yiq s.prev r c)
  | some a =>
    if r = a.row % P.capRows ∧ c = a.col % P.capCols then outOfRangeVal a else unitVal (P.motionEst yiq s.prev r c)

/-- The plane of an answered map, every value of it checked (43 R170). -/
def checkedMap (P : Impl) (m : Nat → Nat → R) : Except FaultCause (Plane R) :=
  if mapInRange P m then .ok (planeOf (realKind .k) P.capRows P.capCols m) else .error .motion

/-- The body of MOTION (43 R170): the estimator's answer, checked, becomes `K`. -/
def motionBody (P : Impl) (s : State) (x : Scratch) : Except FaultCause Scratch := do
  let k ← checkedMap P (motionAnswer P s x.fb.yiq)
  .ok { x with fb := { x.fb with k := k } }

/-- `MOTION` (43 R170). -/
def execMotion (s : State) : Host.Outcome State Fault Refusal := runPass .motion keepWork (motionBody Config.impl) s

/-! ### SEP3D (43 R173) -/

/-- One column of SEP3D: the exact half-difference to the previous frame; `PREV.RAW` is checked against the capacity
only (43 R173, 20_memory R66). -/
def sep3dColumn (P : Impl) (s : State) (r h : Nat) (x : Scratch) : Except FaultCause Scratch := do
  let before ← readCell P rawKind s.prev.raw r h
  let now ← readRaw P s.active x.fb r h
  let c3d ← writeCell P (realKind .c3d) x.fb.c3d r h ((toR before - now) / 2)
  .ok { x with fb := { x.fb with c3d := c3d } }

/-- The body of SEP3D (43 R173). -/
def sep3dBody (P : Impl) (s : State) (x : Scratch) : Except FaultCause Scratch :=
  forRange s.active.FVL s.active.frameRows
    (fun r => forRange s.active.AVS s.active.AVE (sep3dColumn P s r)) x

/-- `SEP3D` (43 R173). -/
def execSep3d (s : State) : Host.Outcome State Fault Refusal := runPass .sep3d keepWork (sep3dBody Config.impl) s

end Sys2Proof.Machine
end

