-- ==== Sys2Proof/Machine/Dispatch.lean ====
section
/-! DEFINITION. The dispatch: one arm per operation, each one direct call of its meaning. -/

namespace Sys2Proof.Machine

def exec (i : Instr) (s : State) : Host.Outcome State Fault Refusal :=
  match i with
  | .nop => Sys2Proof.Machine.execNop s
  | .config => Sys2Proof.Machine.execConfig s
  | .decode => Sys2Proof.Machine.execDecode s
  | .resetprev => Sys2Proof.Machine.execResetprev s
  | .fbinit => Sys2Proof.Machine.execFbinit s
  | .ilace => Sys2Proof.Machine.execIlace s
  | .sep1d => Sys2Proof.Machine.execSep1d s
  | .sep2d => Sys2Proof.Machine.execSep2d s
  | .iqcomb => Sys2Proof.Machine.execIqcomb s
  | .motion => Sys2Proof.Machine.execMotion s
  | .sep3d => Sys2Proof.Machine.execSep3d s
  | .iqmix => Sys2Proof.Machine.execIqmix s
  | .clpf => Sys2Proof.Machine.execClpf s
  | .ynr => Sys2Proof.Machine.execYnr s
  | .cnr => Sys2Proof.Machine.execCnr s
  | .yclean => Sys2Proof.Machine.execYclean s
  | .torgb => Sys2Proof.Machine.execTorgb s
  | .overlay => Sys2Proof.Machine.execOverlay s
  | .storeprev => Sys2Proof.Machine.execStoreprev s

end Sys2Proof.Machine
end

