-- ==== Sys2Proof/Machine/HostPort.lean ====
section
/-! DEFINITION. The host port and the fetch: register reads and writes (10_state R27 to R35; 40_sequencer R131), the
byte spaces (R37), command issue (R28), hardware reset (70 R260), and what one step takes up. -/

namespace Sys2Proof.Machine

/-! ### Register reads -/

/-- The register `OUTLEN`, 32 bits wide (10_state R27, R34); a length it cannot hold shows a free value (log 10). -/
def outLenWord (c : ConfigRegs) : Word :=
  if c.outLen < 2 ^ 32 then BitVec.ofNat 32 c.outLen else Config.outLenBeyond c.outLen

/-- A host read of a register by number (10_state R27, R28, R35; 40_sequencer R131): no effect; reserved numbers and
`CMD` read 0. -/
def readReg (s : State) : Nat → Answer
  | 0x01 => .word (statusWord s.status)
  | 0x02 => .word (s.shadow.fw.setWidth 32)
  | 0x03 => .word (s.shadow.fh.setWidth 32)
  | 0x04 => .word (s.shadow.avs.setWidth 32)
  | 0x05 => .word (s.shadow.ave.setWidth 32)
  | 0x06 => .word (s.shadow.fvl.setWidth 32)
  | 0x07 => .word (s.shadow.blk.setWidth 32)
  | 0x08 => .word (s.shadow.wht.setWidth 32)
  | 0x09 => .word (s.shadow.mode.setWidth 32)
  | 0x0A => .word (s.args.ph1.setWidth 32)
  | 0x0B => .word (s.args.ph2.setWidth 32)
  | 0x0C => .real s.args.burst
  | 0x0D => .word s.args.f1len
  | 0x0E => .word s.args.f2len
  | 0x0F => .word (outLenWord s.active)
  | 0x10 => .word (BitVec.ofNat 32 s.active.frameRows)
  | _ => .word 0

/-! ### Register and buffer writes -/

/-- A write of a register other than `CMD` by number (10_state R30, R32, R33; 40_sequencer R131): fields are cut to
their widths, read-only and reserved numbers ignore it. -/
def writeReg (s : State) (v : Word) : Nat → State
  | 0x02 => { s with shadow := { s.shadow with fw := v.setWidth 16 } }
  | 0x03 => { s with shadow := { s.shadow with fh := v.setWidth 16 } }
  | 0x04 => { s with shadow := { s.shadow with avs := v.setWidth 16 } }
  | 0x05 => { s with shadow := { s.shadow with ave := v.setWidth 16 } }
  | 0x06 => { s with shadow := { s.shadow with fvl := v.setWidth 16 } }
  | 0x07 => { s with shadow := { s.shadow with blk := v.setWidth 16 } }
  | 0x08 => { s with shadow := { s.shadow with wht := v.setWidth 16 } }
  | 0x09 => { s with shadow := { s.shadow with mode := v.setWidth 6 } }
  | 0x0A => { s with args := { s.args with ph1 := v.setWidth 8 } }
  | 0x0B => { s with args := { s.args with ph2 := v.setWidth 8 } }
  | 0x0C => { s with args := { s.args with burst := Config.realFmt v } }
  | 0x0D => { s with args := { s.args with f1len := v } }
  | 0x0E => { s with args := { s.args with f2len := v } }
  | _ => s

/-- A host write, ignored in `FAULTED` (10_state R35; 60_exceptions R238; log 13). -/
def hostWrite (s : State) (t : State) : State := if s.status.run = .faulted then s else t

/-- `LOAD FIELD1` (30_encoding R98; log 14). -/
def loadField1 (s : State) (bytes : List Byte) : State :=
  { s with
    mem := { s.mem with field1 := setBytes s.mem.field1 0 bytes }
    args := { s.args with f1len := BitVec.ofNat 32 bytes.length } }

/-- `LOAD FIELD2` (30_encoding R98; log 14). -/
def loadField2 (s : State) (bytes : List Byte) : State :=
  { s with
    mem := { s.mem with field2 := setBytes s.mem.field2 0 bytes }
    args := { s.args with f2len := BitVec.ofNat 32 bytes.length } }

/-! ### Commands -/

/-- A write of word `w` to `CMD` (10_state R28): issued in `IDLE`, ignored in `FAULTED`; an illegal word raises
`IllegalCommand` (30_encoding R96). -/
def issueCommand (run : Instr → State → Host.Outcome State Fault Refusal) (w : Word) (s : State) :
    Host.Outcome State Fault Refusal :=
  if s.status.run = .idle then
    match decodeCommand w with
    | .ok i => run i s
    | .error _ => .next (raise .illegalCommand s)
  else .next s

/-! ### One host action -/

/-- The state with the host's first action taken off its list (log 1). -/
def State.popHost (s : State) : State := { s with host := s.host.tail }

/-- One host action on the state it is taken off of (00_scope R15; 30_encoding R98; 40_sequencer R131). A byte of `OUT`
reads as what stands there, whatever configuration is active by then: the frame stays valid until the next DECODE or reset
(70 R270; log 12). -/
def hostAct (run : Instr → State → Host.Outcome State Fault Refusal) (a : HostAction) (s : State) :
    Host.Outcome State Fault Refusal :=
  match a with
  | .wr reg v => if reg = 0x00 then issueCommand run v s else .next (hostWrite s (writeReg s v reg))
  | .wrBurst q => .next (hostWrite s { s with args := { s.args with burst := q } })
  | .rd reg => .next { s with answer := readReg s reg }
  | .load1 bytes => .next (hostWrite s (loadField1 s bytes))
  | .load2 bytes => .next (hostWrite s (loadField2 s bytes))
  | .put1 a b => .next (hostWrite s { s with mem := { s.mem with field1 := setByte s.mem.field1 a b } })
  | .put2 a b => .next (hostWrite s { s with mem := { s.mem with field2 := setByte s.mem.field2 a b } })
  | .getOut a => .next { s with answer := .byte (byteAt .out s.mem.out a) }
  | .reset => .next (hardwareReset s)
  | .estimate broken => .next { s with estimate := broken }

/-- The host's next action; with none to come the block stays as it is (10_state R43; 60_exceptions R246). -/
def hostStep (run : Instr → State → Host.Outcome State Fault Refusal) (s : State) : Host.Outcome State Fault Refusal :=
  match s.host with
  | [] => .next s
  | a :: _ => hostAct run a s.popHost

/-! ### One step -/

/-- The pass `SEQ` names (10_state R25; 40_sequencer R124). -/
def passStep (run : Instr → State → Host.Outcome State Fault Refusal) (s : State) : Host.Outcome State Fault Refusal :=
  match decodeStage s.seq with
  | .ok i => run i s
  | .error _ => .refused (.unassignedStage s.seq)

/-- One step: the pass in `SEQ` while BUSY, when the host has no step (00_scope R15); else the host's next action. -/
def stepWith (run : Instr → State → Host.Outcome State Fault Refusal) (s : State) : Host.Outcome State Fault Refusal :=
  if s.status.run = .busy then passStep run s else hostStep run s

/-- An encoded operation put where the next step takes it up (log 1): a stage code in `SEQ` of a BUSY block; a command
word as the host's next write to `CMD` of an IDLE block. -/
def placeOpWord (s : State) : OpWord → State
  | .uop c => { s with status := { s.status with run := .busy }, seq := c }
  | .cmd w => { s with status := { s.status with run := .idle }, host := .wr 0x00 w :: s.host }

end Sys2Proof.Machine
end

