-- ==== Sys2Proof/Machine/Step.lean ====
section
/-! DEFINITION. One step of the machine, and where the host's probe puts an instruction. -/

namespace Sys2Proof.Machine

/-- One step (log 1, log 2): the pass `SEQ` names while BUSY, else the host's next action. -/
def step (s : State) : Host.Outcome State Fault Refusal := stepWith exec s

/-- `s` with an instruction of the opcode table's bits where the next step takes it up (log 1). -/
def State.withFetchWord (s : State) (nbits w : Nat) : State := placeOpWord s (opWordOfBits nbits w)

end Sys2Proof.Machine
end

