-- ==== Sys2Proof/Safety.lean ====
section
/-! DEFINITION. What a safe run is, in the terms claims use: the states a run can be in, the conditions of 20_memory R68
under which no pass raises `BoundsFault`, and what an operation leaves alone. -/

namespace Sys2Proof.Safety

open Sys2Proof Sys2Proof.Machine

/-! ### The states a run can be in -/

/-- `SEQ` names a pass exactly while a command executes, and is 0x00 otherwise (10_state R25; 30_encoding R96). -/
def SeqMatchesRun (s : State) : Prop :=
  (s.status.run = .busy → legalStageCode s.seq = true) ∧ (s.status.run ≠ .busy → s.seq = 0)

/-- A fault code stands exactly in `FAULTED`, and a recorded stage at most there (10_state R29; 60_exceptions R234,
R236, R238). -/
def FaultFieldsMatchRun (s : State) : Prop :=
  (s.status.fault.isSome = true ↔ s.status.run = .faulted) ∧ (s.status.run ≠ .faulted → s.status.seq = 0)

/-- The warning flags are those of the active configuration once there is one, and before that all clear over an
all-zero active copy (10_state R26, R42; 40_sequencer R121). -/
def WarningsMatchActive (s : State) : Prop :=
  (s.status.configured = true → s.status.wFw = warns s.active .width ∧ s.status.wFrh = warns s.active .height
    ∧ s.status.wAvs = warns s.active .activeStart)
  ∧ (s.status.configured = false → s.active = ConfigRegs.zero ∧ s.status.wFw = false ∧ s.status.wFrh = false
    ∧ s.status.wAvs = false)

/-- A command executes, and a frame is done, only after a CONFIG; `DONE` stands only in `IDLE` (10_state R26, R29;
40_sequencer R122; 60_exceptions R236). -/
def DoneAndBusyAreConfigured (s : State) : Prop :=
  (s.status.run = .busy → s.status.configured = true)
  ∧ (s.status.done = true → s.status.run = .idle ∧ s.status.configured = true)

/-- No FIR delay line exists between passes (10_state R36). -/
def NoDelayLine (s : State) : Prop := s.work.fi = [] ∧ s.work.fq = []

/-- What holds of the control state in every run. -/
def Coherent (s : State) : Prop :=
  SeqMatchesRun s ∧ FaultFieldsMatchRun s ∧ WarningsMatchActive s ∧ DoneAndBusyAreConfigured s ∧ NoDelayLine s

/-- The byte spaces and every plane of `FB` and `PREV` are in canonical form. -/
def Canonical (s : State) : Prop := Memory.wf s.mem ∧ FrameBuffer.wf s.fb ∧ FrameBuffer.wf s.prev

/-- Every event of `LOG` records a value that violates its limit (60_exceptions R231). -/
def LogHoldsViolations (s : State) : Prop :=
  ∀ e ∈ s.log, match e.warning with
    | .width => e.value > 910
    | .height => e.value > 525
    | .activeStart => e.value < 16

/-! ### Conditions on a frame -/

/-- A visible row: `[FVL, FRH)` (00_scope R14). -/
def visible (c : ConfigRegs) (r : Nat) : Prop := c.FVL ≤ r ∧ (r : Int) < c.FRH

/-- A column of the active window: `[AVS, AVE)` (00_scope R14). -/
def activeCol (c : ConfigRegs) (h : Nat) : Prop := c.AVS ≤ h ∧ h < c.AVE

/-- The conditions of 20_memory R68: no pass of a DECODE raises `BoundsFault`. -/
abbrev BoundsFree (P : Impl) (s : State) : Prop :=
  s.active.FW ≤ P.capCols ∧ s.active.FRH + 1 ≤ (P.capRows : Int)
  ∧ 2 * s.active.FW * s.active.FH ≤ s.args.f1len.toNat ∧ 2 * s.active.FW * (s.active.FH - 1) ≤ s.args.f2len.toNat
  ∧ ((s.active.FVL : Int) < s.active.FRH → s.active.AVS < s.active.AVE →
      2 ≤ s.active.AVS ∧ s.active.AVE + 2 ≤ s.active.FW)

/-! ### What an operation leaves alone -/

/-- The host-visible registers but `STATUS`, the field buffers, `LOG`, and the environment's own fields. -/
def SameRegisters (s t : State) : Prop :=
  t.shadow = s.shadow ∧ t.active = s.active ∧ t.args = s.args ∧ t.log = s.log ∧ t.host = s.host
    ∧ t.answer = s.answer ∧ t.estimate = s.estimate
    ∧ (∀ a, byteAt .field1 t.mem.field1 a = byteAt .field1 s.mem.field1 a)
    ∧ (∀ a, byteAt .field2 t.mem.field2 a = byteAt .field2 s.mem.field2 a)

/-- Every byte of `OUT` reads as before. -/
def SameOut (s t : State) : Prop := ∀ a, byteAt .out t.mem.out a = byteAt .out s.mem.out a

/-- The end of a pass with the given next stage: `SEQ`, and `STATUS` untouched, or at the end of the sequence `IDLE`
with `DONE` set (40_sequencer R122, R124). -/
def EndsAt (next : StageCode) (s t : State) : Prop :=
  t.seq = next ∧ t.status = if next = 0 then { s.status with run := .idle, done := true } else s.status

/-- What a pass other than STOREPREV leaves alone, and where it ends. -/
def PassFrame (next : StageCode) (s t : State) : Prop := EndsAt next s t ∧ SameRegisters s t ∧ t.prev = s.prev

/-- The fault entry as a host sees it: code, stage, `SEQ` 0, `DONE` 0, `FAULTED`; registers, field buffers, `LOG` and
`PREV` kept (60_exceptions R236). What stands in `FB` and `OUT` after a pass fault is not said. -/
def FaultEntered (cause : FaultCause) (stage : StageCode) (s t : State) : Prop :=
  t.status = { s.status with fault := some cause, seq := stage, done := false, run := .faulted }
    ∧ t.seq = 0 ∧ SameRegisters s t ∧ t.prev = s.prev

end Sys2Proof.Safety
end

