-- ==== Sys2Proof/Reference.lean ====
section
/-! DEFINITION. The closed forms in which claims state what the passes compute. None of them is used by the machine: each
is written from the rule it cites, by sums and cases instead of running registers. -/

namespace Sys2Proof.Reference

open Sys2Proof Sys2Proof.Machine Sys2Proof.Safety

/-! ### The inversion state of a line (41 R142) -/

/-- `init(r mod 2)`. -/
def initialInversion (ph1 ph2 : BitVec 8) (r : Nat) : Bool :=
  if r % 2 = 0 then decide (ph1 = 2 ∨ ph1 = 3) else decide (ph2 = 1 ∨ ph2 = 4)

/-- `f(r)`: the first visible row of `r`'s parity. -/
def firstOfParity (fvl r : Nat) : Nat := if fvl % 2 = r % 2 then fvl else fvl + 1

/-- `inv(r) = init(r mod 2) xor (n(r) mod 2 = 1)`, `n(r) = (r − f(r)) div 2 + 1`. -/
def inversionAt (fvl : Nat) (ph1 ph2 : BitVec 8) (r : Nat) : Bool :=
  xor (initialInversion ph1 ph2 r) (decide (((r - firstOfParity fvl r) / 2 + 1) % 2 = 1))

/-- `sgn(inv(r))` with `INV_NEGATES = true` (41 R143). -/
def lineSign (fvl : Nat) (fb : FrameBuffer) (r : Nat) : R := if inversionAt fvl fb.ph1 fb.ph2 r then -1 else 1

/-! ### Samples and cells -/

/-- `RAW[r][h]` as an element of `R`. -/
def raw (fb : FrameBuffer) (r h : Nat) : R := toR (cellAt rawKind fb.raw r h)
/-- `C1D[r][h]`. -/
def c1d (fb : FrameBuffer) (r h : Nat) : R := cellAt (realKind .c1d) fb.c1d r h
/-- `C2D[r][h]`. -/
def c2d (fb : FrameBuffer) (r h : Nat) : R := cellAt (realKind .c2d) fb.c2d r h
/-- `C3D[r][h]`. -/
def c3d (fb : FrameBuffer) (r h : Nat) : R := cellAt (realKind .c3d) fb.c3d r h
/-- `YIQ[r][h]`. -/
def yiq (fb : FrameBuffer) (r h : Nat) : Yiq := cellAt yiqKind fb.yiq r h
/-- `K[r][h]`. -/
def kmap (fb : FrameBuffer) (r h : Nat) : R := cellAt (realKind .k) fb.k r h
/-- The 16-bit value at a byte address (20_memory R61). -/
def wordAt (sp : ByteSpace) (m : ByteBuf) (a : Nat) : Sample := byteAt sp m (a + 1) ++ byteAt sp m a

/-! ### FIR filters on every second column (41 R144; 45 R194 (d)) -/

/-- `sum of b_i · u(h − 2i)` over the taps whose column is not left of `avs`: what a filter fed `u` at every second column
from `avs` on returns at column `h`. -/
def everySecond (coeffs : List R) (u : Nat → R) (avs h : Nat) : R :=
  ((List.range coeffs.length).map fun i => if 2 * i ≤ h - avs then coeffs.getD i 0 * u (h - 2 * i) else 0).sum

/-- The sign of a column's phase in the 1D separator: 0 `+I`, 1 `−Q`, 2 `−I`, 3 `+Q` (41 R145). -/
def quadrantSign (h : Nat) : R := if h % 4 = 0 ∨ h % 4 = 3 then 1 else -1

/-- `tc1` (41 R145). -/
def chromaSample (fb : FrameBuffer) (r h : Nat) : R := (raw fb r (h - 2) + raw fb r (h + 2)) / 2 - raw fb r h

/-- The 1D estimate of a column: the filter of its parity over the quadrant-signed chroma samples, with the quadrant sign
undone (41 R145, R146). -/
def estimate1d (coeffsI coeffsQ : List R) (tc : Nat → R) (avs h : Nat) : R :=
  quadrantSign h *
    everySecond (if h % 2 = 0 then coeffsI else coeffsQ) (fun c => quadrantSign c * tc c) avs h

/-! ### The combiner (44 R180, R183) -/

/-- The I value held at column `h`: the one routed at the latest odd column of the window, else 0. -/
def heldI (signed : Nat → R) (avs h : Nat) : R :=
  let routed (c : Nat) : R := if c % 4 = 3 then signed c else -signed c
  if h % 2 = 1 then routed h else if avs < h then routed (h - 1) else 0

/-- The Q value held at column `h`: the one routed at the latest even column of the window, else 0. -/
def heldQ (signed : Nat → R) (avs h : Nat) : R :=
  let routed (c : Nat) : R := if c % 4 = 0 then signed c else -signed c
  if h % 2 = 0 then routed h else if avs < h then routed (h - 1) else 0

/-! ### The chroma low-pass (45 R191) -/

/-- `VI` after step `h`: the filter output at the latest even column of the window, else 0. -/
def lowPassI (coeffs : List R) (i : Nat → R) (avs h : Nat) : R :=
  if h % 2 = 0 then everySecond coeffs i avs h else if avs < h then everySecond coeffs i avs (h - 1) else 0

/-- `VQ` after step `h`: the filter output at the latest odd column of the window, else 0. -/
def lowPassQ (coeffs : List R) (q : Nat → R) (avs h : Nat) : R :=
  if h % 2 = 1 then everySecond coeffs q avs h else if avs < h then everySecond coeffs q avs (h - 1) else 0

/-! ### Y cleanup (47 R210) -/

/-- The correction term of column `h` from the pixel two columns to the right. -/
def cleanupAt (p : Yiq) (h : Nat) : R :=
  if h % 4 = 0 then p.q else if h % 4 = 1 then -p.i else if h % 4 = 2 then -p.q else p.i

/-! ### The sequencer table (40_sequencer R124) -/

/-- The next value of `SEQ`, row by row of the table of R124. -/
def tableNext (m3d clpf ovl : Bool) : Instr → StageCode
  | .fbinit => 0x11#8
  | .ilace => 0x12#8
  | .sep1d => 0x13#8
  | .sep2d => 0x14#8
  | .iqcomb => match m3d, clpf with
    | true, _ => 0x15#8
    | false, true => 0x18#8
    | false, false => 0x19#8
  | .motion => 0x16#8
  | .sep3d => 0x17#8
  | .iqmix => match clpf with
    | true => 0x18#8
    | false => 0x19#8
  | .clpf => 0x19#8
  | .ynr => 0x1A#8
  | .cnr => 0x1B#8
  | .yclean => 0x1C#8
  | .torgb => match m3d, ovl with
    | true, true => 0x1D#8
    | true, false => 0x1E#8
    | false, _ => 0x00#8
  | .overlay => 0x1E#8
  | .storeprev => 0x00#8
  | .nop | .config | .decode | .resetprev => 0x00#8

/-- `nextStage` of a pass under the active mode flags of a state. -/
def tableNextOf (s : State) (i : Instr) : StageCode :=
  tableNext (s.active.mode.getLsbD 4) (s.active.mode.getLsbD 2) (s.active.mode.getLsbD 5) i

/-! ### Runs -/

/-- The outcome with a function applied to its next state. -/
def mapNext {σ φ ρ : Type} (f : σ → σ) : Host.Outcome σ φ ρ → Host.Outcome σ φ ρ
  | .next s => .next (f s)
  | .fault e => .fault e
  | .refused e => .refused e

/-- How many passes a DECODE has under the mode flags (30_encoding R99; 40_sequencer R124). -/
def passCount (m3d clpf ovl : Bool) : Nat := 9 + clpf.toNat + (if m3d then 4 + ovl.toNat else 0)

end Sys2Proof.Reference
end

