-- ==== Sys2Proof/Certificates/Slice0/Obligations.lean ====
section
/-! DEFINITION. The statements for the provers. -/

open Sys2Proof Sys2Proof.Machine Sys2Proof.Safety Sys2Proof.Reference

/-! ### Encoding and the step -/

/-- 30_encoding R92, R93: every operation decodes from its own encoding. -/
def Obligations.EncodedOperationDecodesToItself : Prop :=
  ∀ i : Instr, i.wellFormed = true → (encode i).wellFormed = true ∧ decode (encode i) = .ok i

/-- 30_encoding R96, R97, R93: the legal words and codes are exactly the encodings, each word has one meaning, and the
decoder rejects every other word, by name. -/
def Obligations.LegalWordsAreExactlyTheEncodings : Prop :=
  (∀ w : Word, legalCommandWord w = true ↔ w.extractLsb 31 8 = 0#24
      ∧ (w.extractLsb 7 0 = 0x00#8 ∨ w.extractLsb 7 0 = 0x01#8 ∨ w.extractLsb 7 0 = 0x02#8 ∨ w.extractLsb 7 0 = 0x03#8))
  ∧ (∀ op : OpWord, op.wellFormed = true ↔ ∃ i, encode i = op)
  ∧ (∀ (op : OpWord) (i : Instr), decode op = .ok i ↔ encode i = op)
  ∧ (∀ w : Word, legalCommandWord w = false → decodeCommand w = .error (.illegalCommand w))
  ∧ ∀ c : StageCode, legalStageCode c = false → decodeStage c = .error (.unassignedStage c)

/-- Words written out from the tables of 30_encoding decode to the operations they stand for (95 V-ENC1 to V-ENC7). -/
def Obligations.WordsOfTheTablesDecode : Prop :=
  decodeCommand 0x00000000#32 = .ok .nop ∧ decodeCommand 0x00000001#32 = .ok .config
  ∧ decodeCommand 0x00000002#32 = .ok .decode ∧ decodeCommand 0x00000003#32 = .ok .resetprev
  ∧ decodeCommand 0x00000004#32 = .error (.illegalCommand 0x00000004#32)
  ∧ decodeCommand 0x00000102#32 = .error (.illegalCommand 0x00000102#32)
  ∧ decodeCommand 0x80000002#32 = .error (.illegalCommand 0x80000002#32)
  ∧ decodeCommand 0x00000010#32 = .error (.illegalCommand 0x00000010#32)
  ∧ decodeStage 0x10#8 = .ok .fbinit ∧ decodeStage 0x12#8 = .ok .sep1d ∧ decodeStage 0x14#8 = .ok .iqcomb
  ∧ decodeStage 0x15#8 = .ok .motion ∧ decodeStage 0x18#8 = .ok .clpf ∧ decodeStage 0x1C#8 = .ok .torgb
  ∧ decodeStage 0x1E#8 = .ok .storeprev ∧ decodeStage 0x00#8 = .error (.unassignedStage 0x00#8)

/-- While BUSY a step runs the pass `SEQ` names, and nothing else (10_state R25; log 1, 2). -/
def Obligations.BusyStepRunsThePassInSeq : Prop :=
  ∀ (s : State) (i : Instr), s.status.run = .busy → decodeStage s.seq = .ok i → i.wellFormed = true →
    step s = exec i s

/-- In IDLE a host write of a legal word to `CMD` runs the command it encodes on the state with that action taken off the
list (10_state R28; log 1). -/
def Obligations.IdleStepIssuesTheCommand : Prop :=
  ∀ (s : State) (w : Word) (rest : List HostAction) (i : Instr), s.status.run = .idle → s.host = .wr 0 w :: rest →
    decodeCommand w = .ok i → i.wellFormed = true → step s = exec i { s with host := rest }

/-- In IDLE a host write of an illegal word to `CMD` enters `IllegalCommand` and changes nothing else (30_encoding R96;
60_exceptions R234, R236). -/
def Obligations.IllegalWordRaisesIllegalCommand : Prop :=
  ∀ (s : State) (w : Word) (rest : List HostAction), s.status.run = .idle → s.host = .wr 0 w :: rest →
    legalCommandWord w = false →
    step s = .next { s with
      host := rest
      seq := 0
      status := { s.status with fault := some .illegalCommand, seq := 0, done := false, run := .faulted } }

/-! ### Commands -/

/-- 40_sequencer R120. -/
def Obligations.NopChangesNothing : Prop :=
  decodeCommand 0x00000000#32 = .ok .nop ∧ ∀ s : State, exec .nop s = .next s

/-- 40_sequencer R121: CONFIG, the word 0x00000001, commits all eight shadow registers, recomputes the warnings, logs
each violated condition in the order Width, Height, ActiveStart, and changes nothing else. -/
def Obligations.ConfigCommitsAndWarns : Prop :=
  decodeCommand 0x00000001#32 = .ok .config ∧ ∀ s : State, exec .config s = .next { s with
    active := s.shadow
    status := { s.status with
      done := false
      configured := true
      wFw := decide (910 < s.shadow.fw.toNat)
      wFrh := decide (525 < 2 * (s.shadow.fh.toNat : Int) - 1)
      wAvs := decide (s.shadow.avs.toNat < 16) }
    log := s.log ++ (if 910 < s.shadow.fw.toNat then [⟨.width, s.shadow.fw.toNat⟩] else [])
      ++ (if 525 < 2 * (s.shadow.fh.toNat : Int) - 1 then [⟨.height, 2 * s.shadow.fh.toNat - 1⟩] else [])
      ++ (if s.shadow.avs.toNat < 16 then [⟨.activeStart, s.shadow.avs.toNat⟩] else []) }

/-- 40_sequencer R122: with a configuration, DECODE clears `DONE`, sets BUSY and starts the sequence at FBINIT; nothing
else changes yet (the passes follow, log 2). -/
def Obligations.DecodeStartsTheSequence : Prop :=
  ∀ s : State, s.status.configured = true →
    exec .decode s = .next { s with status := { s.status with done := false, run := .busy }, seq := 0x10#8 }

/-- 40_sequencer R122; 60_exceptions R234, R236: DECODE before any CONFIG enters `NotConfigured` before any state
change: stage 0 recorded, `FB`, `OUT` and everything else kept. -/
def Obligations.DecodeBeforeConfigRaisesNotConfigured : Prop :=
  ∀ s : State, s.status.configured = false →
    exec .decode s = .next { s with
      seq := 0
      status := { s.status with fault := some .notConfigured, seq := 0, done := false, run := .faulted } }

/-- 40_sequencer R123: RESETPREV, the word 0x00000003, makes every cell of every plane of `PREV` 0 and its latched arguments
0, and changes nothing else, in every state; a second one changes nothing. -/
def Obligations.ResetprevZeroesPrevOnly : Prop :=
  decodeCommand 0x00000003#32 = .ok .resetprev
  ∧ ∀ s : State, ∃ t, exec .resetprev s = .next t ∧ t = { s with prev := t.prev } ∧ exec .resetprev t = .next t
    ∧ (∀ r h, cellAt rawKind t.prev.raw r h = 0 ∧ c1d t.prev r h = 0 ∧ c2d t.prev r h = 0 ∧ c3d t.prev r h = 0
        ∧ yiq t.prev r h = ⟨0, 0, 0⟩ ∧ kmap t.prev r h = 0)
    ∧ t.prev.ph1 = 0 ∧ t.prev.ph2 = 0 ∧ t.prev.burst = 0

/-! ### FBINIT, ILACE, STOREPREV -/

/-- 40_sequencer R125: with `BLK < WHT`, FBINIT zeroes every plane of `FB`, latches the arguments, zeroes `OUT`. -/
def Obligations.FbinitBuildsAFreshFrame : Prop :=
  ∀ s : State, s.active.BLK < s.active.WHT → ∃ t, exec .fbinit s = .next t ∧ PassFrame 0x11#8 s t ∧ t.work = s.work
    ∧ (∀ r h, cellAt rawKind t.fb.raw r h = 0 ∧ c1d t.fb r h = 0 ∧ c2d t.fb r h = 0 ∧ c3d t.fb r h = 0
        ∧ yiq t.fb r h = ⟨0, 0, 0⟩ ∧ kmap t.fb r h = 0)
    ∧ t.fb.ph1 = s.args.ph1 ∧ t.fb.ph2 = s.args.ph2 ∧ t.fb.burst = s.args.burst
    ∧ ∀ a, byteAt .out t.mem.out a = if a < s.active.outLen then 0 else byteAt .out s.mem.out a

/-- 40_sequencer R125; 60_exceptions R234: FBINIT with `WHT ≤ BLK` enters `CalibrationFault`. -/
def Obligations.FbinitRaisesCalibrationFault : Prop :=
  ∀ s : State, s.active.WHT ≤ s.active.BLK → ∃ t, exec .fbinit s = .next t ∧ FaultEntered .calibration s.seq s t

/-- 40_sequencer R126; 20_memory R61, R62: under the conditions of R68, ILACE makes `RAW[r][c]` the little-endian sample
of line `r div 2` of the first field (even rows) or of the second (odd rows), for every row of the frame; no other cell
changes. -/
def Obligations.IlaceInterlacesTheFields : Prop :=
  ∀ s : State, BoundsFree Config.impl s → ∃ t, exec .ilace s = .next t ∧ PassFrame 0x12#8 s t ∧ SameOut s t
    ∧ t.work = s.work ∧ t.fb = { s.fb with raw := t.fb.raw }
    ∧ ∀ r c, cellAt rawKind t.fb.raw r c =
        if (r : Int) < s.active.FRH ∧ c < s.active.FW then
          (if r % 2 = 0 then wordAt .field1 s.mem.field1 (2 * (r / 2 * s.active.FW + c))
            else wordAt .field2 s.mem.field2 (2 * (r / 2 * s.active.FW + c)))
        else cellAt rawKind s.fb.raw r c

/-- 40_sequencer R126; 20_memory R65, R66: ILACE enters `BoundsFault` on a field buffer that is too short, whatever rows are
visible (95 V-F4, V-F5, V-F13), and on a frame larger than the plane capacity (V-F9). -/
def Obligations.IlaceRaisesBoundsFault : Prop :=
  ∀ s : State,
    (0 < s.active.FW ∧ 0 < s.active.FH ∧ s.args.f1len.toNat < 2 * s.active.FW * s.active.FH
      ∨ 0 < s.active.FW ∧ 1 < s.active.FH ∧ s.args.f2len.toNat < 2 * s.active.FW * (s.active.FH - 1)
      ∨ 0 < s.active.FH ∧ 910 < s.active.FW
      ∨ 0 < s.active.FW ∧ 526 < s.active.FRH) →
    ∃ t, exec .ilace s = .next t ∧ FaultEntered .bounds s.seq s t

/-- 40_sequencer R127: STOREPREV copies the whole FrameBuffer into `PREV` and ends the sequence: `IDLE`, `DONE`. -/
def Obligations.StoreprevKeepsTheWholeFrame : Prop :=
  ∀ s : State, ∃ t, exec .storeprev s = .next t ∧ t.prev = s.fb ∧ t.fb = s.fb ∧ t.work = s.work ∧ EndsAt 0x00#8 s t
    ∧ SameRegisters s t ∧ SameOut s t

/-! ### The tracker, the FIR filter, SEP1D -/

/-- 41 R142: after the visits of the rows from `FVL` to `r` the inversion state is the closed form; and consecutive lines
of one field alternate. -/
def Obligations.TrackerHasTheClosedForm : Prop :=
  ∀ (fb : FrameBuffer) (w : Work) (fvl r : Nat), fvl ≤ r →
    ((List.range' fvl (r + 1 - fvl)).foldl (fun w' v => trackerVisit v w') (trackerInit fb w)).inv
      = inversionAt fvl fb.ph1 fb.ph2 r
    ∧ inversionAt fvl fb.ph1 fb.ph2 (r + 2) = !inversionAt fvl fb.ph1 fb.ph2 r

/-- 41 R143. -/
def Obligations.InversionSign : Prop :=
  (∀ (P : Impl) (inv : Bool), sgn P inv = if inv = P.invNegates then -1 else 1)
  ∧ sgn Config.impl true = -1 ∧ sgn Config.impl false = 1

/-- 41 R144: a fresh filter is all zero; a feed shifts its value in and returns the sum of the products; so the `m`-th
feed of a fresh filter returns `sum over i < min(m, n) of b_i · v_(m−i)`. -/
def Obligations.FirFeedIsConvolution : Prop :=
  ∀ (t : Taps) (vs : List R) (v : R),
    freshFir t = List.replicate (tapCoeffs t).length 0
    ∧ (∀ d : List R, d.length = (tapCoeffs t).length →
        (feed t d v).2 = v :: d.take ((tapCoeffs t).length - 1)
        ∧ (feed t d v).1 = (List.zipWith (· * ·) (tapCoeffs t) (v :: d.take ((tapCoeffs t).length - 1))).sum)
    ∧ (feed t (vs.foldl (fun d u => (feed t d u).2) (freshFir t)) v).1
      = ((List.range (min (vs.length + 1) (tapCoeffs t).length)).map
          fun i => (tapCoeffs t).getD i 0 * (vs ++ [v]).getD (vs.length - i) 0).sum

/-- 41 R145, R146: under the conditions of R68, SEP1D writes into every visible row and active column the filtered,
re-signed chroma sample, whatever the inversion state; no other cell, plane or register of the block changes but the
working registers the pass uses. -/
def Obligations.Sep1dFiltersTheRoutedSamples : Prop :=
  ∀ s : State, BoundsFree Config.impl s → ∃ t, exec .sep1d s = .next t ∧ PassFrame 0x13#8 s t ∧ SameOut s t
    ∧ t.fb = { s.fb with c1d := t.fb.c1d }
    ∧ (∀ r h, visible s.active r → activeCol s.active h →
        c1d t.fb r h = estimate1d (tapCoeffs Config.fir1dI) (tapCoeffs Config.fir1dQ) (chromaSample s.fb r)
          s.active.AVS h)
    ∧ (∀ r h, ¬ (visible s.active r ∧ activeCol s.active h) → c1d t.fb r h = c1d s.fb r h)
    ∧ t.work.fi = [] ∧ t.work.fq = [] ∧ t.work.si = s.work.si ∧ t.work.sq = s.work.sq ∧ t.work.vi = s.work.vi
    ∧ t.work.vq = s.work.vq

/-- 41 R145; 20_memory R66, R68: SEP1D enters `BoundsFault` when some pixel is processed and the window starts left of
column 2 or ends right of `FW − 2` (95 V-F7, V-F8). -/
def Obligations.Sep1dRaisesBoundsFault : Prop :=
  ∀ s : State, (s.active.FVL : Int) < s.active.FRH → s.active.AVS < s.active.AVE →
    (s.active.AVS < 2 ∨ s.active.FW < s.active.AVE + 2) →
    ∃ t, exec .sep1d s = .next t ∧ FaultEntered .bounds s.seq s t

/-- 41 R146: the 1D estimate depends neither on the phase IDs nor on `INV_NEGATES`. -/
def Obligations.Sep1dIgnoresTheInversionState : Prop :=
  ∀ (P : Impl) (s : State) (x y : Scratch) (b : Bool) (p1 p2 : BitVec 8), sep1dBody P s x = .ok y →
    ∃ z, sep1dBody { P with invNegates := b } s { x with fb := { x.fb with ph1 := p1, ph2 := p2 } } = .ok z
      ∧ z.fb.c1d = y.fb.c1d

/-! ### SEP2D -/

/-- 42 R162: the weight of a difference is `1 − d/(45·IRES)` clamped to [0, 1]: it lies in [0, 1], is 1 up to 0, 0 from
`45·IRES` on, and linear between. -/
def Obligations.WeightFallsLinearlyFromOneToZero : Prop :=
  ∀ ires d : R, 0 < ires →
    lineWeight ires d = max 0 (min 1 (1 - d / (45 * ires)))
    ∧ 0 ≤ lineWeight ires d ∧ lineWeight ires d ≤ 1 ∧ (d ≤ 0 → lineWeight ires d = 1)
    ∧ (45 * ires ≤ d → lineWeight ires d = 0)
    ∧ (0 ≤ d → d ≤ 45 * ires → lineWeight ires d = 1 - d / (45 * ires))

/-- 42 R163, R164: the tie-break with its strict factor 3 and its gain scale, computed after the zeroing and never below
1; and the agreement test when both weights are 0. -/
def Obligations.TieBreakFollowsItsCases : Prop :=
  ∀ kp kn p0 n0 : R, 0 ≤ kp → kp ≤ 1 → 0 ≤ kn → kn ≤ 1 →
    (3 * kp < kn → tieBreak kp kn p0 n0 = (0, kn, 2 / kn))
    ∧ (3 * kn < kp → tieBreak kp kn p0 n0 = (kp, 0, 2 / kp))
    ∧ (0 < kp + kn → kn ≤ 3 * kp → kp ≤ 3 * kn → tieBreak kp kn p0 n0 = (kp, kn, 2 / (kp + kn)))
    ∧ (kp = 0 → kn = 0 → |(|p0| - |n0|)| ≤ |p0 + n0| / 5 → tieBreak kp kn p0 n0 = (1, 1, 1))
    ∧ (kp = 0 → kn = 0 → |p0 + n0| / 5 < |(|p0| - |n0|)| → tieBreak kp kn p0 n0 = (0, 0, 1))
    ∧ 1 ≤ (tieBreak kp kn p0 n0).2.2

/-- 42 R161, R165: the estimate of one pixel from the two difference measures, the weights and the scale; on an ideal
stationary colour it is half the 1D estimate. -/
def Obligations.Estimate2dFollowsItsFormula : Prop :=
  ∀ ires c0 c1 p0 p1 n0 n1 : R,
    let tol := 1 / 10 * (|c0| + |c1|)
    let dp := |(|c0| - |p0|)| + |(|c1| - |p1|)| - tol
    let dn := |(|c0| - |n0|)| + |(|c1| - |n1|)| - tol
    let k := tieBreak (lineWeight ires dp) (lineWeight ires dn) p0 n0
    estimate2d ires c0 c1 p0 p1 n0 n1 = ((c0 - p0) * k.1 * k.2.2 + (c0 - n0) * k.2.1 * k.2.2) / 8
    ∧ (p0 = -c0 → n0 = -c0 → lineWeight ires dp = 1 → lineWeight ires dn = 1 →
        estimate2d ires c0 c1 p0 p1 n0 n1 = c0 / 2)

/-- 42 R160: under the conditions of R68, SEP2D writes the 2D estimate into the rows `r ≥ FVL`, `4 ≤ r < FRH − 1` and the
active columns, from the 1D estimates of rows `r − 2`, `r`, `r + 2`; everything else keeps its value. -/
def Obligations.Sep2dCombinesNeighbourLines : Prop :=
  ∀ s : State, BoundsFree Config.impl s → ∃ t, exec .sep2d s = .next t ∧ PassFrame 0x14#8 s t ∧ SameOut s t
    ∧ t.work = s.work ∧ t.fb = { s.fb with c2d := t.fb.c2d }
    ∧ (∀ r h, s.active.FVL ≤ r → 4 ≤ r → (r : Int) < s.active.FRH - 1 → activeCol s.active h →
        c2d t.fb r h = estimate2d s.active.IRES (c1d s.fb r h) (c1d s.fb r (h - 1)) (c1d s.fb (r - 2) h)
          (c1d s.fb (r - 2) (h - 1)) (c1d s.fb (r + 2) h) (c1d s.fb (r + 2) (h - 1)))
    ∧ ∀ r h, ¬ (s.active.FVL ≤ r ∧ 4 ≤ r ∧ (r : Int) < s.active.FRH - 1 ∧ activeCol s.active h) →
        c2d t.fb r h = c2d s.fb r h

/-! ### IQCOMB, IQMIX -/

/-- 44 R180, R183; 41 R142: under the conditions of R68, IQCOMB writes `Y` = the raw sample and the held I and Q routed
from the signed 2D estimate into every visible, active cell. -/
def Obligations.IqcombDemodulatesThe2dEstimate : Prop :=
  ∀ s : State, BoundsFree Config.impl s → ∃ t, exec .iqcomb s = .next t
    ∧ PassFrame (tableNextOf s .iqcomb) s t ∧ SameOut s t ∧ t.fb = { s.fb with yiq := t.fb.yiq }
    ∧ (∀ r h, visible s.active r → activeCol s.active h →
        yiq t.fb r h = ⟨raw s.fb r h,
          heldI (fun c => lineSign s.active.FVL s.fb r * c2d s.fb r c) s.active.AVS h,
          heldQ (fun c => lineSign s.active.FVL s.fb r * c2d s.fb r c) s.active.AVS h⟩)
    ∧ (∀ r h, ¬ (visible s.active r ∧ activeCol s.active h) → yiq t.fb r h = yiq s.fb r h)
    ∧ t.work.vi = s.work.vi ∧ t.work.vq = s.work.vq ∧ t.work.fi = s.work.fi ∧ t.work.fq = s.work.fq

/-- 44 R184: IQMIX is IQCOMB over the estimate `C2D·K + C3D·(1 − K)`. -/
def Obligations.IqmixBlendsByTheMotionMap : Prop :=
  ∀ s : State, BoundsFree Config.impl s → ∃ t, exec .iqmix s = .next t
    ∧ PassFrame (tableNextOf s .iqmix) s t ∧ SameOut s t ∧ t.fb = { s.fb with yiq := t.fb.yiq }
    ∧ (∀ r h, visible s.active r → activeCol s.active h →
        yiq t.fb r h = ⟨raw s.fb r h,
          heldI (fun c => lineSign s.active.FVL s.fb r *
            (c2d s.fb r c * kmap s.fb r c + c3d s.fb r c * (1 - kmap s.fb r c))) s.active.AVS h,
          heldQ (fun c => lineSign s.active.FVL s.fb r *
            (c2d s.fb r c * kmap s.fb r c + c3d s.fb r c * (1 - kmap s.fb r c))) s.active.AVS h⟩)
    ∧ (∀ r h, ¬ (visible s.active r ∧ activeCol s.active h) → yiq t.fb r h = yiq s.fb r h)
    ∧ t.work.vi = s.work.vi ∧ t.work.vq = s.work.vq ∧ t.work.fi = s.work.fi ∧ t.work.fq = s.work.fq

/-! ### MOTION, SEP3D -/

/-- 43 R170, R172: with an estimator that is `MOTION_EST`, MOTION stores its answer to the current YIQ plane and `PREV`
in `K`. -/
def Obligations.MotionStoresTheEstimatorsMap : Prop :=
  ∀ s : State, s.estimate = none → ∃ t, exec .motion s = .next t ∧ PassFrame 0x16#8 s t ∧ SameOut s t
    ∧ t.work = s.work ∧ t.fb = { s.fb with k := t.fb.k }
    ∧ ∀ r c, r < 526 → c < 910 → kmap t.fb r c = unitVal (Config.motionEst s.fb.yiq s.prev r c)
        ∧ 0 ≤ kmap t.fb r c ∧ kmap t.fb r c ≤ 1

/-- 43 R170; 60_exceptions R234: whatever map is answered, it is taken whole when every value of it lies in [0, 1], and is a
`MotionFault` when one, anywhere in the plane, does not; and with an estimator that breaks the range (the model's own
input, log 9) MOTION enters that fault. -/
def Obligations.MotionChecksTheAnsweredMap : Prop :=
  (∀ m : Nat → Nat → R,
    ((∀ r c, r < 526 → c < 910 → 0 ≤ m r c ∧ m r c ≤ 1) →
      ∃ k, checkedMap Config.impl m = .ok k ∧ ∀ r c, r < 526 → c < 910 → cellAt (realKind .k) k r c = m r c)
    ∧ ((∃ r c, r < 526 ∧ c < 910 ∧ (m r c < 0 ∨ 1 < m r c)) → checkedMap Config.impl m = .error .motion))
  ∧ ∀ (s : State) (a : OutOfRange), s.estimate = some a →
      ∃ t, exec .motion s = .next t ∧ FaultEntered .motion s.seq s t

/-- 43 R173: under the conditions of R68, SEP3D writes the exact half-difference to the previous frame. -/
def Obligations.Sep3dHalvesTheFrameDifference : Prop :=
  ∀ s : State, BoundsFree Config.impl s → ∃ t, exec .sep3d s = .next t ∧ PassFrame 0x17#8 s t ∧ SameOut s t
    ∧ t.work = s.work ∧ t.fb = { s.fb with c3d := t.fb.c3d }
    ∧ (∀ r h, visible s.active r → activeCol s.active h →
        c3d t.fb r h = (raw s.prev r h - raw s.fb r h) / 2)
    ∧ ∀ r h, ¬ (visible s.active r ∧ activeCol s.active h) → c3d t.fb r h = c3d s.fb r h

/-- 43 R174: on the first frame, with `PREV` all-zero, `C3D` is minus half the sample, with no fault and no warning. -/
def Obligations.FirstFrame3dIsMinusHalfTheSample : Prop :=
  ∀ s : State, BoundsFree Config.impl s → s.prev = zeroFrame → ∃ t, exec .sep3d s = .next t
    ∧ t.status = s.status ∧ t.log = s.log
    ∧ ∀ r h, visible s.active r → activeCol s.active h → c3d t.fb r h = -raw s.fb r h / 2

/-! ### CLPF, YNR, CNR -/

/-- 45 R191, R193: under the conditions of R68, step `h` of CLPF writes the held filter outputs into column `h − 2`, every
filter input being a value the combiner wrote; Y and all other cells keep their values. -/
def Obligations.ClpfFiltersChromaTwoColumnsLeft : Prop :=
  ∀ s : State, BoundsFree Config.impl s → ∃ t, exec .clpf s = .next t ∧ PassFrame 0x19#8 s t ∧ SameOut s t
    ∧ t.fb = { s.fb with yiq := t.fb.yiq }
    ∧ (∀ r h, visible s.active r → activeCol s.active h →
        yiq t.fb r (h - 2) = ⟨(yiq s.fb r (h - 2)).y,
          lowPassI (tapCoeffs Config.firlpI) (fun c => (yiq s.fb r c).i) s.active.AVS h,
          lowPassQ (tapCoeffs Config.firlpQ) (fun c => (yiq s.fb r c).q) s.active.AVS h⟩)
    ∧ (∀ r c, ¬ (visible s.active r ∧ activeCol s.active (c + 2)) → yiq t.fb r c = yiq s.fb r c)
    ∧ t.work.topInv = s.work.topInv ∧ t.work.botInv = s.work.botInv ∧ t.work.inv = s.work.inv
    ∧ t.work.si = s.work.si ∧ t.work.sq = s.work.sq ∧ t.work.fi = [] ∧ t.work.fq = []

/-- 45 R192: the high-quality variant has the standard coefficients, and no step of a DECODE depends on `CLPFHQ`: from
states that differ in that flag alone, a BUSY step leads to states that differ in that flag alone. -/
def Obligations.ClpfHqHasNoEffect : Prop :=
  (∀ P : Impl, lowPassTaps P true = lowPassTaps P false)
  ∧ ∀ s : State, s.status.run = .busy →
      step { s with active := { s.active with mode := s.active.mode ^^^ 0x08#6 } }
        = mapNext (fun t => { t with active := { t.active with mode := t.active.mode ^^^ 0x08#6 } }) (step s)

/-- 46 R200, R201: under the conditions of R68, YNR subtracts from every visible, active Y the residual of its line, taken
before any subtraction, clipped to `±T`; with `BLK < WHT` no Y moves by more than `T`. -/
def Obligations.YnrSubtractsTheClippedResidual : Prop :=
  ∀ s : State, BoundsFree Config.impl s → ∃ t, exec .ynr s = .next t ∧ PassFrame 0x1A#8 s t ∧ SameOut s t
    ∧ t.work = s.work ∧ t.fb = { s.fb with yiq := t.fb.yiq }
    ∧ (∀ r h, visible s.active r → activeCol s.active h →
        yiq t.fb r h = { yiq s.fb r h with
          y := (yiq s.fb r h).y - clip
            (Config.resY ((List.range' s.active.AVS (s.active.AVE - s.active.AVS)).map fun c => (yiq s.fb r c).y)
              (h - s.active.AVS))
            (nonnegVal Config.ynrFactor * s.active.IRES) })
    ∧ (∀ r h, ¬ (visible s.active r ∧ activeCol s.active h) → yiq t.fb r h = yiq s.fb r h)
    ∧ (s.active.BLK < s.active.WHT → ∀ r h,
        |(yiq t.fb r h).y - (yiq s.fb r h).y| ≤ nonnegVal Config.ynrFactor * s.active.IRES)

/-- 46 R203: `CNR` leaves every cell of `YIQ` as it was, whatever `RES_C` is; under the conditions of R68 it completes. -/
def Obligations.CnrChangesNothing : Prop :=
  (∀ (P : Impl) (s : State) (x y : Scratch), cnrBody P s x = .ok y →
    ∀ r h, cellAt yiqKind y.fb.yiq r h = cellAt yiqKind x.fb.yiq r h)
  ∧ ∀ s : State, BoundsFree Config.impl s → ∃ t, exec .cnr s = .next t ∧ PassFrame 0x1B#8 s t ∧ SameOut s t
      ∧ t.work = s.work ∧ t.fb = { s.fb with yiq := t.fb.yiq } ∧ ∀ r h, yiq t.fb r h = yiq s.fb r h

/-! ### YCLEAN, TORGB, OVERLAY -/

/-- 47 R210, R211: under the conditions of R68, YCLEAN adds to every visible, active Y the signed chroma the neighbour two
columns to the right supplies; I, Q and all other cells keep their values. -/
def Obligations.YcleanAddsTheSignedNeighbourChroma : Prop :=
  ∀ s : State, BoundsFree Config.impl s → ∃ t, exec .yclean s = .next t ∧ PassFrame 0x1C#8 s t ∧ SameOut s t
    ∧ t.fb = { s.fb with yiq := t.fb.yiq }
    ∧ (∀ r h, visible s.active r → activeCol s.active h →
        yiq t.fb r h = { yiq s.fb r h with
          y := (yiq s.fb r h).y + lineSign s.active.FVL s.fb r * cleanupAt (yiq s.fb r (h + 2)) h })
    ∧ (∀ r h, ¬ (visible s.active r ∧ activeCol s.active h) → yiq t.fb r h = yiq s.fb r h)
    ∧ t.work.si = s.work.si ∧ t.work.sq = s.work.sq ∧ t.work.vi = s.work.vi ∧ t.work.vq = s.work.vq
    ∧ t.work.fi = s.work.fi ∧ t.work.fq = s.work.fq

/-- 47 R213, R217, R218; 20_memory R61, R69: under the conditions of R68, TORGB stores the three clamped, floored channel
values of every visible, active pixel at the addresses of R218, and no other byte of `OUT` changes. The real channel
values are those RgbConverterFollowsItsFormulas gives in closed form. -/
def Obligations.TorgbStoresTheConvertedPixels : Prop :=
  ∀ s : State, BoundsFree Config.impl s → ∃ t, exec .torgb s = .next t
    ∧ PassFrame (tableNextOf s .torgb) s t ∧ t.work = s.work ∧ t.fb = s.fb
    ∧ (∀ r h, visible s.active r → activeCol s.active h →
        let rgb := rgbReal Config.impl s.active s.fb.burst (yiq s.fb r h)
        let value (v : R) : Sample := BitVec.ofNat 16 (clamp v 0 65535).floor.toNat
        wordAt .out t.mem.out (outAddr s.active.FW r h 0) = value rgb.1
        ∧ wordAt .out t.mem.out (outAddr s.active.FW r h 1) = value rgb.2.1
        ∧ wordAt .out t.mem.out (outAddr s.active.FW r h 2) = value rgb.2.2)
    ∧ ∀ a, (∀ r h ch, visible s.active r → activeCol s.active h → ch < 3 →
          a ≠ outAddr s.active.FW r h ch ∧ a ≠ outAddr s.active.FW r h ch + 1) →
        byteAt .out t.mem.out a = byteAt .out s.mem.out a

/-- 47 R213, R214, R215, R216: the converter's arithmetic for every pixel, in either setting of `MONO` and `WP100`; and that
with `WP100 = 1` the black and white reference levels without chroma map to 0 and 65535 in every channel. -/
def Obligations.RgbConverterFollowsItsFormulas : Prop :=
  ∀ (c : ConfigRegs) (burst : R),
    (∀ v : Yiq,
      let whiteGain : R := 65535 / ((c.wht.toNat : R) - c.blk.toNat)
      let y := (v.y - c.blk.toNat) * (if c.mode.getLsbD 1 then whiteGain else whiteGain * posVal Config.wpAltGain)
      let chroma := Config.cgain burst c.wht.toNat c.blk.toNat (c.mode.getLsbD 1)
      let i := if c.mode.getLsbD 0 then 0 else v.i * chroma
      let q := if c.mode.getLsbD 0 then 0 else v.q * chroma
      lumaValue Config.impl c v = y ∧ chromaPair Config.impl c burst v = (i, q)
      ∧ rgbReal Config.impl c burst v
        = (y + Config.mRgb.rI * i + Config.mRgb.rQ * q, y + Config.mRgb.gI * i + Config.mRgb.gQ * q,
            y + Config.mRgb.bI * i + Config.mRgb.bQ * q))
    ∧ 0 < posVal Config.wpAltGain
    ∧ (c.blk.toNat < c.wht.toNat → c.mode.getLsbD 1 = true →
        rgbReal Config.impl c burst ⟨c.blk.toNat, 0, 0⟩ = (0, 0, 0)
        ∧ rgbReal Config.impl c burst ⟨c.wht.toNat, 0, 0⟩ = (65535, 65535, 65535))

/-- 47 R215: in monochrome mode the three stored channel values of every visible, active pixel are equal. -/
def Obligations.MonochromeStoresEqualChannels : Prop :=
  ∀ s : State, BoundsFree Config.impl s → s.active.mono = true → ∃ t, exec .torgb s = .next t ∧ t.fb = s.fb
    ∧ ∀ r h, visible s.active r → activeCol s.active h →
        wordAt .out t.mem.out (outAddr s.active.FW r h 0) = wordAt .out t.mem.out (outAddr s.active.FW r h 1)
        ∧ wordAt .out t.mem.out (outAddr s.active.FW r h 1) = wordAt .out t.mem.out (outAddr s.active.FW r h 2)

/-- 47 R219: under the conditions of R68, OVERLAY adds `floor(K·65535)` to red and blue of every visible, active pixel,
saturating at 65535 (for map values in [0, 1], the only ones MOTION stores); no other byte of `OUT` changes, and nothing
feeds back into `FB`. -/
def Obligations.OverlayTintsRedAndBlue : Prop :=
  ∀ s : State, BoundsFree Config.impl s →
    (∀ r h, visible s.active r → activeCol s.active h → 0 ≤ kmap s.fb r h ∧ kmap s.fb r h ≤ 1) →
    ∃ t, exec .overlay s = .next t ∧ PassFrame 0x1E#8 s t ∧ t.work = s.work ∧ t.fb = s.fb
    ∧ (∀ r h ch, visible s.active r → activeCol s.active h → ch = 0 ∨ ch = 2 →
        (wordAt .out t.mem.out (outAddr s.active.FW r h ch)).toNat
          = min 65535 ((wordAt .out s.mem.out (outAddr s.active.FW r h ch)).toNat
              + (kmap s.fb r h * 65535).floor.toNat))
    ∧ ∀ a, (∀ r h ch, visible s.active r → activeCol s.active h → ch = 0 ∨ ch = 2 →
          a ≠ outAddr s.active.FW r h ch ∧ a ≠ outAddr s.active.FW r h ch + 1) →
        byteAt .out t.mem.out a = byteAt .out s.mem.out a

/-! ### The sequencer, faults, reset -/

/-- 40_sequencer R124: a pass that leads to no fault leaves in `SEQ` the next stage of the table of R124 under the active
mode flags; and 0x00 there means `IDLE` with `DONE` set, any other stage BUSY as before. -/
def Obligations.PassOrderFollowsTheTable : Prop :=
  ∀ (s t : State) (i : Instr), s.status.run = .busy → decodeStage s.seq = .ok i → step s = .next t →
    t.status.run ≠ .faulted → EndsAt (tableNextOf s i) s t

/-- 60_exceptions R236, R240: whatever pass faults, and however, the entry records the cause and the stage in `SEQ`, and
keeps registers, field buffers, `LOG` and `PREV`; DONE is 0. -/
def Obligations.PassFaultsArePrecise : Prop :=
  ∀ (s t : State) (i : Instr), s.status.run = .busy → decodeStage s.seq = .ok i → step s = .next t →
    t.status.run = .faulted → ∃ cause, FaultEntered cause s.seq s t
      ∧ (cause = .calibration ∧ i = .fbinit ∨ cause = .motion ∧ i = .motion ∨ cause = .bounds)

/-- 60_exceptions R238; 10_state R35: `FAULTED` is left only by hardware reset; until then every host write, a write to
`CMD` among them, is ignored. That a LOAD and a byte write into a field buffer are ignored too is the model's reading
(log 13). -/
def Obligations.FaultedIsLeftOnlyByReset : Prop :=
  ∀ s t : State, s.status.run = .faulted → step s = .next t →
    (s.host.head? = some .reset ∧ t.status = State.reset.status)
    ∨ t = { s with host := s.host.tail, answer := t.answer, estimate := t.estimate }

/-- 10_state R42; 70 R260: the hardware reset action, from every state that takes host actions, and the reset state
itself: flags, registers, `PREV`, `LOG` and the sequencer at the values the spec gives. -/
def Obligations.HardwareResetGivesTheResetValues : Prop :=
  ∀ (s : State) (rest : List HostAction), s.status.run ≠ .busy → s.host = .reset :: rest →
    ∃ t, step s = .next t ∧ t.host = rest ∧ ∀ u, u = t ∨ u = State.reset →
      u.status = ⟨.idle, false, false, false, false, false, none, 0⟩ ∧ u.seq = 0 ∧ u.row = 0 ∧ u.col = 0
      ∧ u.shadow = ⟨0, 0, 0, 0, 0, 0, 0, 0⟩ ∧ u.active = ⟨0, 0, 0, 0, 0, 0, 0, 0⟩ ∧ u.args = ⟨0, 0, 0, 0, 0⟩
      ∧ u.log = [] ∧ u.work = ⟨false, false, false, 0, 0, 0, 0, [], []⟩
      ∧ statusWord u.status = 0 ∧ readReg u 0x0F = .word 0 ∧ readReg u 0x10 = .word 0
      ∧ (∀ r h, cellAt rawKind u.prev.raw r h = 0 ∧ c1d u.prev r h = 0 ∧ c2d u.prev r h = 0 ∧ c3d u.prev r h = 0
          ∧ yiq u.prev r h = ⟨0, 0, 0⟩ ∧ kmap u.prev r h = 0)
      ∧ u.prev.ph1 = 0 ∧ u.prev.ph2 = 0 ∧ u.prev.burst = 0

/-! ### Registers -/

/-- 10_state R29: the layout of `STATUS`. -/
def Obligations.StatusWordLayout : Prop :=
  ∀ st : Status, ((statusWord st).extractLsb' 0 2 = match st.run with | .idle => 0#2 | .busy => 1#2 | .faulted => 2#2)
    ∧ (statusWord st).getLsbD 2 = st.configured ∧ (statusWord st).getLsbD 3 = st.done
    ∧ (statusWord st).getLsbD 4 = st.wFw ∧ (statusWord st).getLsbD 5 = st.wFrh ∧ (statusWord st).getLsbD 6 = st.wAvs
    ∧ (statusWord st).getLsbD 7 = false
    ∧ ((statusWord st).extractLsb' 8 8 = match st.fault with
        | none => 0#8 | some .illegalCommand => 1#8 | some .notConfigured => 2#8 | some .calibration => 3#8
        | some .bounds => 4#8 | some .motion => 5#8)
    ∧ ((statusWord st).extractLsb' 16 8 = if st.run = .faulted then st.seq else 0#8)
    ∧ (statusWord st).extractLsb' 24 8 = 0#8

/-- 10_state R27, R30, R32, R33, R34, R35; 40_sequencer R131: a host write in IDLE sets the register's field, cut to its
width, so that a read returns it; read-only and reserved numbers ignore it; `CMD` and reserved numbers read 0; and a host
read, possible whenever the block is not BUSY, returns the register's value and changes nothing. `ARG_BURST` holds an
element of `R`: that a 32-bit write conveys it by the open `REAL_FMT` and a read answers the element is 30_encoding R95 as
log 11 takes it. -/
def Obligations.HostRegistersFollowTheMap : Prop :=
  (∀ (s : State) (v : Word) (n : Nat) (rest : List HostAction), s.status.run = .idle → s.host = .wr n v :: rest → n ≠ 0 →
    ∃ t, step s = .next t ∧ t = { s with host := rest, shadow := t.shadow, args := t.args }
      ∧ (0x02 ≤ n → n ≤ 0x08 → readReg t n = .word (v &&& 0xFFFF#32))
      ∧ (n = 0x09 → readReg t n = .word (v &&& 0x3F#32))
      ∧ (n = 0x0A ∨ n = 0x0B → readReg t n = .word (v &&& 0xFF#32))
      ∧ (n = 0x0C → readReg t n = .real (Config.realFmt v))
      ∧ (n = 0x0D ∨ n = 0x0E → readReg t n = .word v)
      ∧ (n = 0x01 ∨ 0x0F ≤ n → t.shadow = s.shadow ∧ t.args = s.args ∧ readReg t n = readReg s n)
      ∧ (∀ m, 0x02 ≤ m → m ≤ 0x0E → m ≠ n → readReg t m = readReg s m)
      ∧ readReg t 0x00 = .word 0 ∧ ∀ m, 0x11 ≤ m → readReg t m = .word 0)
  ∧ (∀ (s : State) (q : R) (rest : List HostAction), s.status.run = .idle → s.host = .wrBurst q :: rest →
      ∃ t, step s = .next t ∧ t = { s with host := rest, args := { s.args with burst := q } } ∧ readReg t 0x0C = .real q)
  ∧ ∀ (s : State) (n : Nat) (rest : List HostAction), s.status.run ≠ .busy → s.host = .rd n :: rest →
      step s = .next { s with host := rest, answer := readReg s n }

/-- 10_state R34; 40_sequencer R130: `OUTLEN` and `FRAMEH` as functions of the active configuration (for a length that
32 bits hold; beyond that see log 10). -/
def Obligations.OutlenAndFramehFollowTheActiveCopy : Prop :=
  ∀ s : State,
    readReg s 0x10 = .word (BitVec.ofNat 32 (max (2 * (s.active.fh.toNat : Int) - 1) 0).toNat)
    ∧ (s.active.fw.toNat * (max (2 * (s.active.fh.toNat : Int) - 1) 0).toNat * 6 < 2 ^ 32 →
      readReg s 0x0F
        = .word (BitVec.ofNat 32 (s.active.fw.toNat * (max (2 * (s.active.fh.toNat : Int) - 1) 0).toNat * 6)))

/-- 20_memory R61, within the bounds of R65: a 16-bit read is the byte at the address plus 256 times the byte after it; a
write puts the low byte at the address and the high byte after it, is read back whole, and leaves every other byte; out of
bounds both accesses are a `BoundsFault`. -/
def Obligations.SixteenBitAccessIsLittleEndian : Prop :=
  ∀ (sp : ByteSpace) (len a : Nat) (m : ByteBuf) (v : Sample),
    (a + 2 ≤ len → (∃ x, memRead sp len m a = .ok x
        ∧ x.toNat = (byteAt sp m a).toNat + 256 * (byteAt sp m (a + 1)).toNat)
      ∧ ∃ m', memWrite len m a v = .ok m' ∧ (byteAt sp m' a).toNat = v.toNat % 256
      ∧ (byteAt sp m' (a + 1)).toNat = v.toNat / 256 ∧ memRead sp len m' a = .ok v
      ∧ ∀ a', a' ≠ a → a' ≠ a + 1 → byteAt sp m' a' = byteAt sp m a')
    ∧ (len < a + 2 → memWrite len m a v = .error .bounds ∧ memRead sp len m a = .error .bounds)

/-- 30_encoding R98; 10_state R35, R37; 70 R270: LOAD in IDLE stores the bytes from address 0 on and sets the matching
length (that the bytes beyond keep their contents is the model's reading, log 14); a byte write stores that byte; a read of
`OUT` answers the byte that stands there (by single bytes and at any address: log 12) and changes nothing; and no step but a
pass or a reset changes a byte of `OUT`, so that a frame stays valid until the next DECODE or a reset, whatever is configured
in between. -/
def Obligations.HostReachesTheByteSpaces : Prop :=
  (∀ (s : State) (bytes : List Byte) (rest : List HostAction), s.status.run = .idle → bytes.length < 2 ^ 32 →
    (s.host = .load1 bytes :: rest → ∃ t, step s = .next t
      ∧ t = { s with host := rest, mem := { s.mem with field1 := t.mem.field1 }, args := { s.args with f1len := t.args.f1len } }
      ∧ t.args.f1len.toNat = bytes.length
      ∧ ∀ a, byteAt .field1 t.mem.field1 a = if a < bytes.length then bytes.getD a 0 else byteAt .field1 s.mem.field1 a)
    ∧ (s.host = .load2 bytes :: rest → ∃ t, step s = .next t
      ∧ t = { s with host := rest, mem := { s.mem with field2 := t.mem.field2 }, args := { s.args with f2len := t.args.f2len } }
      ∧ t.args.f2len.toNat = bytes.length
      ∧ ∀ a, byteAt .field2 t.mem.field2 a = if a < bytes.length then bytes.getD a 0 else byteAt .field2 s.mem.field2 a))
  ∧ (∀ (s : State) (a : Nat) (b : Byte) (rest : List HostAction), s.status.run = .idle →
    (s.host = .put1 a b :: rest → ∃ t, step s = .next t
      ∧ t = { s with host := rest, mem := { s.mem with field1 := t.mem.field1 } }
      ∧ ∀ a', byteAt .field1 t.mem.field1 a' = if a' = a then b else byteAt .field1 s.mem.field1 a')
    ∧ (s.host = .put2 a b :: rest → ∃ t, step s = .next t
      ∧ t = { s with host := rest, mem := { s.mem with field2 := t.mem.field2 } }
      ∧ ∀ a', byteAt .field2 t.mem.field2 a' = if a' = a then b else byteAt .field2 s.mem.field2 a'))
  ∧ (∀ (s : State) (a : Nat) (rest : List HostAction), s.status.run ≠ .busy → s.host = .getOut a :: rest →
      step s = .next { s with host := rest, answer := .byte (byteAt .out s.mem.out a) })
  ∧ ∀ s t : State, s.status.run ≠ .busy → s.host.head? ≠ some .reset → step s = .next t → SameOut s t

/-! ### Whole-machine rules -/

/-- 10_state R31; 20_memory R78: the active configuration changes only by a CONFIG, to the shadow registers, and by
hardware reset, to 0. -/
def Obligations.ActiveCopyChangesOnlyByConfig : Prop :=
  ∀ s t : State, step s = .next t →
    t.active = s.active
    ∨ (s.status.run = .idle ∧ s.host.head? = some (.wr 0 0x00000001#32) ∧ t.active = s.shadow)
    ∨ (s.status.run ≠ .busy ∧ s.host.head? = some .reset ∧ t.active = ConfigRegs.zero)

/-- 10_state R39; 60_exceptions R242: `PREV` changes only by STOREPREV, to the current FrameBuffer, and by RESETPREV and
hardware reset, to all-zero. -/
def Obligations.PrevChangesOnlyByItsThreeWriters : Prop :=
  ∀ s t : State, step s = .next t →
    t.prev = s.prev
    ∨ (s.status.run = .busy ∧ s.seq = 0x1E#8 ∧ t.prev = s.fb)
    ∨ (s.status.run = .idle ∧ s.host.head? = some (.wr 0 0x00000003#32) ∧ t.prev = zeroFrame)
    ∨ (s.status.run ≠ .busy ∧ s.host.head? = some .reset ∧ t.prev = zeroFrame)

/-- 10_state R40; 60_exceptions R233: `LOG` grows only by a CONFIG, is emptied only by hardware reset, and else stands. -/
def Obligations.LogGrowsOnlyByConfig : Prop :=
  ∀ s t : State, step s = .next t →
    t.log = s.log
    ∨ (s.status.run = .idle ∧ s.host.head? = some (.wr 0 0x00000001#32) ∧ ∃ e, t.log = s.log ++ e)
    ∨ (s.status.run ≠ .busy ∧ s.host.head? = some .reset ∧ t.log = [])

/-- 60_exceptions R231: the events of `LOG` are violations of their limits, and every step keeps that. -/
def Obligations.EveryStepKeepsLogViolations : Prop :=
  ∀ s t : State, LogHoldsViolations s → step s = .next t → LogHoldsViolations t

/-- The invariants hold at reset: the control state and `LOG` as 10_state R42 gives them, and the canonical form of the byte
spaces and planes, which is the model's own (log 17). -/
def Obligations.ResetIsCoherentAndCanonical : Prop :=
  Coherent State.reset ∧ Canonical State.reset ∧ LogHoldsViolations State.reset

/-- 10_state R25, R26, R29, R36; 60_exceptions R234, R238: the control state stays coherent: `SEQ` names a pass exactly
while BUSY, a fault code stands exactly in FAULTED, the warning flags are those of the active configuration, `DONE` stands
only in IDLE after a CONFIG, and no delay line outlives its pass. -/
def Obligations.EveryStepKeepsCoherence : Prop :=
  ∀ s t : State, Coherent s → step s = .next t → Coherent t

/-- Every step keeps the byte spaces and all planes of `FB` and `PREV` in canonical form (the model's own, log 17). -/
def Obligations.EveryStepKeepsCanonicalMemory : Prop :=
  ∀ s t : State, Canonical s → step s = .next t → Canonical t

/-- 10_state R25; 30_encoding R96; 40_sequencer R131: in a coherent state every step answers a next state: no pass, no
command and no host access ever stops the machine. -/
def Obligations.CoherentStepsAreNeverRefused : Prop :=
  ∀ s : State, Coherent s → ∃ t, step s = .next t

/-- 40_sequencer R129; 20_memory R76: no pass but MOTION, SEP3D and STOREPREV reads or writes `PREV`; and so with 3D mode
off a DECODE does not depend on it: from states that differ in `PREV` alone, any number of steps leads to states that
differ in `PREV` alone, by the same difference. -/
def Obligations.TwoDimensionalDecodeIgnoresPrev : Prop :=
  (∀ (s : State) (p : FrameBuffer), s.status.run = .busy → s.seq ≠ 0x15#8 → s.seq ≠ 0x16#8 → s.seq ≠ 0x1E#8 →
    step { s with prev := p } = mapNext (fun t : State => { t with prev := p }) (step s))
  ∧ ∀ (s : State) (p : FrameBuffer) (n : Nat), s.active.m3d = false → s.status.run = .idle →
    s.host = [.wr 0 0x00000002#32] →
    Host.Core.run core n { s with prev := p } = mapNext (fun t : State => { t with prev := p }) (Host.Core.run core n s)

/-- 20_memory R68; 70 R264; 40_sequencer R122, R124: under the conditions of R68 with `BLK < WHT`, after a CONFIG and with
an estimator that is `MOTION_EST`, a DECODE runs its passes, one a step (log 2), to the end without a fault: IDLE, `DONE` set, every host
register, field buffer and `LOG` as before, and `PREV` as before with 3D mode off. -/
def Obligations.FaultFreeDecodeCompletes : Prop :=
  ∀ (s : State) (rest : List HostAction), s.status.run = .idle → s.status.configured = true →
    s.host = .wr 0 0x00000002#32 :: rest → BoundsFree Config.impl s → s.active.BLK < s.active.WHT → s.estimate = none →
    ∃ t, Host.Core.run core (1 + passCount s.active.m3d s.active.clpfOn s.active.ovl) s = .next t
      ∧ t.status = { s.status with run := .idle, done := true } ∧ t.seq = 0
      ∧ SameRegisters { s with host := rest } t
      ∧ (s.active.m3d = false → t.prev = s.prev) ∧ (s.active.m3d = true → t.prev = t.fb)
end

