-- ==== Sys2Proof/Laws/Loops.lean ====
section
/-! SUPPORT. The rules of the loop `for v in [a, b)` (00_scope R12): when every turn succeeds, what a finished loop
keeps, and where a fault of a loop comes from. -/

namespace Sys2Proof.Laws

open Sys2Proof Sys2Proof.Machine

variable {σ : Type}

theorem forRange_empty {a b : Nat} (h : b ≤ a) (body : Nat → σ → Except FaultCause σ) (x : σ) :
    forRange a b body x = .ok x := by
  have : b - a = 0 := by omega
  simp [forRange, this, pure, Except.pure]

theorem forRange_turn {a b : Nat} (h : a < b) (body : Nat → σ → Except FaultCause σ) (x : σ) :
    forRange a b body x = (body a x).bind (forRange (a + 1) b body) := by
  have h1 : b - a = (b - (a + 1)) + 1 := by omega
  unfold forRange
  rw [h1, List.range'_succ, List.foldlM_cons]
  rfl

/-- A loop whose every turn succeeds and carries `inv` on ends with `inv` at the end of its range. -/
theorem forRange_run {a b : Nat} (inv : Nat → σ → Prop) {body : Nat → σ → Except FaultCause σ}
    (turn : ∀ v y, a ≤ v → v < b → inv v y → ∃ y', body v y = .ok y' ∧ inv (v + 1) y') {x : σ} (h0 : inv a x) :
    ∃ y, forRange a b body x = .ok y ∧ inv (max a b) y := by
  induction hn : b - a generalizing a x with
  | zero => exact ⟨x, forRange_empty (by omega) _ _, by rwa [show max a b = a by omega]⟩
  | succ n ih =>
    obtain ⟨y, hy, hi⟩ := turn a x (Nat.le_refl _) (by omega) h0
    obtain ⟨z, hz, hz'⟩ := ih (a := a + 1) (fun v y h1 h2 h3 => turn v y (by omega) h2 h3) hi (by omega)
    refine ⟨z, ?_, by rwa [show max a b = max (a + 1) b by omega]⟩
    rw [forRange_turn (by omega), hy]
    exact hz

/-- A finished loop keeps what every finished turn keeps. -/
theorem forRange_keeps {a b : Nat} (inv : σ → Prop) {body : Nat → σ → Except FaultCause σ}
    (turn : ∀ v y y', a ≤ v → v < b → inv y → body v y = .ok y' → inv y') {x y : σ} (h0 : inv x)
    (h : forRange a b body x = .ok y) : inv y := by
  induction hn : b - a generalizing a x with
  | zero =>
    rw [forRange_empty (by omega)] at h
    exact Except.ok.inj h ▸ h0
  | succ n ih =>
    rw [forRange_turn (by omega)] at h
    cases hb : body a x with
    | error e => simp [hb, Except.bind] at h
    | ok x' =>
      rw [hb] at h
      exact ih (a := a + 1) (fun v y y' h1 h2 => turn v y y' (by omega) h2)
        (turn a x x' (Nat.le_refl _) (by omega) h0 hb) h (by omega)

/-- A loop's fault is the fault of one of its turns. -/
theorem forRange_fault {a b : Nat} {body : Nat → σ → Except FaultCause σ} {x : σ} {e : FaultCause}
    (h : forRange a b body x = .error e) : ∃ v y, a ≤ v ∧ v < b ∧ body v y = .error e := by
  induction hn : b - a generalizing a x with
  | zero => simp [forRange_empty (show b ≤ a by omega)] at h
  | succ n ih =>
    rw [forRange_turn (by omega)] at h
    cases hb : body a x with
    | error e' =>
      simp only [hb, Except.bind, Except.error.injEq] at h
      exact ⟨a, x, Nat.le_refl _, by omega, h ▸ hb⟩
    | ok x' =>
      rw [hb] at h
      obtain ⟨v, y, h1, h2, h3⟩ := ih (a := a + 1) h (by omega)
      exact ⟨v, y, by omega, h2, h3⟩

/-- A loop with a turn that fails from every state fails, if every fault of a turn is `e`. -/
theorem forRange_must_fail {a b : Nat} {body : Nat → σ → Except FaultCause σ} {e : FaultCause} {v : Nat} (hv : a ≤ v)
    (hvb : v < b) (only : ∀ w y e', body w y = .error e' → e' = e) (bad : ∀ y, ∃ e', body v y = .error e') (x : σ) :
    forRange a b body x = .error e := by
  induction hn : b - a generalizing a x with
  | zero => omega
  | succ n ih =>
    rw [forRange_turn (by omega)]
    cases hb : body a x with
    | error e' => simp [Except.bind, only _ _ _ hb]
    | ok x' =>
      have hne : a ≠ v := by
        rintro rfl
        obtain ⟨e', he⟩ := bad x
        rw [hb] at he
        cases he
      exact ih (a := a + 1) (by omega) x' (by omega)

end Sys2Proof.Laws
end

