-- ==== Sys2Proof/Laws/Memory.lean ====
section
/-! SUPPORT. The laws of sparse data, byte spaces and planes: a read after a write, and every operation keeps the
canonical form. -/

namespace Sys2Proof.Laws

open Sys2Proof Sys2Proof.Machine

/-! ### Keyed lists -/

section Cells

variable {κ α : Type} [DecidableEq κ]

@[simp] theorem lookupCell_putCell_self (lt : κ → κ → Bool) (k : κ) (v : α) (l : List (κ × α)) :
    lookupCell k (putCell lt k v l) = some v := by
  induction l with
  | nil => simp [putCell, lookupCell]
  | cons c rest ih =>
    obtain ⟨k', v'⟩ := c
    simp only [putCell]
    split
    · simp [lookupCell]
    · split
      · simp [lookupCell]
      · rename_i h _
        simp [lookupCell, h, ih]

theorem lookupCell_putCell_other (lt : κ → κ → Bool) {k k' : κ} (hne : k' ≠ k) (v : α) (l : List (κ × α)) :
    lookupCell k' (putCell lt k v l) = lookupCell k' l := by
  induction l with
  | nil => simp [putCell, lookupCell, hne]
  | cons c rest ih =>
    obtain ⟨k'', v''⟩ := c
    simp only [putCell]
    split
    · rename_i h
      subst h
      simp [lookupCell, hne]
    · split
      · simp [lookupCell, hne]
      · simp [lookupCell, ih]

@[simp] theorem lookupCell_dropCell_self (k : κ) (l : List (κ × α)) : lookupCell k (dropCell k l) = none := by
  induction l with
  | nil => simp [dropCell, lookupCell]
  | cons c rest ih =>
    obtain ⟨k', v'⟩ := c
    by_cases h : k' = k
    · simpa [dropCell, h] using ih
    · have h' : ¬ k = k' := fun e => h e.symm
      simpa [dropCell, h, h', lookupCell] using ih

theorem lookupCell_dropCell_other {k k' : κ} (hne : k' ≠ k) (l : List (κ × α)) :
    lookupCell k' (dropCell k l) = lookupCell k' l := by
  induction l with
  | nil => simp [dropCell, lookupCell]
  | cons c rest ih =>
    obtain ⟨k'', v''⟩ := c
    by_cases h : k'' = k
    · subst h
      simpa [dropCell, hne, lookupCell] using ih
    · by_cases h2 : k' = k''
      · simp [dropCell, h, h2, lookupCell]
      · simpa [dropCell, h, h2, lookupCell] using ih

/-- What an entry of the list after a write is. -/
theorem mem_putCell {lt : κ → κ → Bool} {k : κ} {v : α} {l : List (κ × α)} {c : κ × α}
    (h : c ∈ putCell lt k v l) : c = (k, v) ∨ c ∈ l := by
  induction l with
  | nil => simpa [putCell] using h
  | cons d rest ih =>
    obtain ⟨k', v'⟩ := d
    simp only [putCell] at h
    split at h
    · rcases List.mem_cons.mp h with h | h
      · exact .inl h
      · exact .inr (List.mem_cons_of_mem _ h)
    · split at h
      · rcases List.mem_cons.mp h with h | h
        · exact .inl h
        · exact .inr h
      · rcases List.mem_cons.mp h with h | h
        · exact .inr (h ▸ List.mem_cons_self)
        · rcases ih h with h | h
          · exact .inl h
          · exact .inr (List.mem_cons_of_mem _ h)

/-- A write keeps the keys strictly rising, for a total order of the keys. -/
theorem putCell_rising {lt : κ → κ → Bool} (trans : ∀ a b c, lt a b = true → lt b c = true → lt a c = true)
    (total : ∀ a b, a ≠ b → lt a b = false → lt b a = true) (k : κ) (v : α) {l : List (κ × α)}
    (h : l.Pairwise fun a b => lt a.1 b.1 = true) :
    (putCell lt k v l).Pairwise fun a b => lt a.1 b.1 = true := by
  induction l with
  | nil => simp [putCell]
  | cons d rest ih =>
    obtain ⟨k', v'⟩ := d
    rw [List.pairwise_cons] at h
    simp only [putCell]
    split
    · rename_i e
      subst e
      exact List.pairwise_cons.mpr ⟨fun c hc => h.1 c hc, h.2⟩
    · split
      · rename_i hlt
        refine List.pairwise_cons.mpr ⟨fun c hc => ?_, List.pairwise_cons.mpr h⟩
        rcases List.mem_cons.mp hc with hc | hc
        · simpa [hc] using hlt
        · exact trans _ _ _ hlt (h.1 c hc)
      · rename_i hne hlt
        refine List.pairwise_cons.mpr ⟨fun c hc => ?_, ih h.2⟩
        rcases mem_putCell hc with hc | hc
        · simpa [hc] using total _ _ hne (by simpa using hlt)
        · exact h.1 c hc

theorem dropCell_rising {lt : κ → κ → Bool} (k : κ) {l : List (κ × α)} (h : l.Pairwise fun a b => lt a.1 b.1 = true) :
    (dropCell k l).Pairwise fun a b => lt a.1 b.1 = true := h.filter _

end Cells

theorem addrLt_trans (a b c : Nat) (h1 : addrLt a b = true) (h2 : addrLt b c = true) : addrLt a c = true := by
  simp only [addrLt, decide_eq_true_eq] at *
  omega

theorem addrLt_total (a b : Nat) (hne : a ≠ b) (h : addrLt a b = false) : addrLt b a = true := by
  simp only [addrLt, decide_eq_true_eq, decide_eq_false_iff_not] at *
  omega

theorem coordLt_iff (a b : Nat × Nat) : coordLt a b = true ↔ a.1 < b.1 ∨ (a.1 = b.1 ∧ a.2 < b.2) := by
  simp [coordLt]

theorem coordLt_trans (a b c : Nat × Nat) (h1 : coordLt a b = true) (h2 : coordLt b c = true) :
    coordLt a c = true := by
  rw [coordLt_iff] at *
  omega

theorem coordLt_total (a b : Nat × Nat) (hne : a ≠ b) (h : coordLt a b = false) : coordLt b a = true := by
  have h' : ¬ (a.1 < b.1 ∨ (a.1 = b.1 ∧ a.2 < b.2)) := fun e => by simp [(coordLt_iff a b).mpr e] at h
  have hne' : ¬ (a.1 = b.1 ∧ a.2 = b.2) := fun e => hne (Prod.ext e.1 e.2)
  rw [coordLt_iff]
  omega

/-! ### Byte spaces -/

@[simp] theorem byteAt_setByte_self (sp : ByteSpace) (m : ByteBuf) (a : Nat) (b : Byte) :
    byteAt sp (setByte m a b) a = b := by
  simp [byteAt, setByte]

theorem byteAt_setByte_other (sp : ByteSpace) (m : ByteBuf) {a a' : Nat} (hne : a' ≠ a) (b : Byte) :
    byteAt sp (setByte m a b) a' = byteAt sp m a' := by
  simp [byteAt, setByte, lookupCell_putCell_other _ hne]

theorem byteAt_setByte (sp : ByteSpace) (m : ByteBuf) (a a' : Nat) (b : Byte) :
    byteAt sp (setByte m a b) a' = if a' = a then b else byteAt sp m a' := by
  split
  · rename_i h
    subst h
    exact byteAt_setByte_self ..
  · rename_i h
    exact byteAt_setByte_other _ _ h _

theorem setByte_wf {m : ByteBuf} (h : ByteBuf.wf m) (a : Nat) (b : Byte) : ByteBuf.wf (setByte m a b) :=
  putCell_rising addrLt_trans addrLt_total a b h

theorem setBytes_wf (bs : List Byte) : ∀ {m : ByteBuf} (_ : ByteBuf.wf m) (a : Nat), ByteBuf.wf (setBytes m a bs) := by
  induction bs with
  | nil => exact fun h _ => h
  | cons b rest ih => exact fun h a => ih (setByte_wf h a b) (a + 1)

/-- A list of bytes written from an address on is read back, byte for byte. -/
theorem byteAt_setBytes (sp : ByteSpace) (bs : List Byte) : ∀ (m : ByteBuf) (a a' : Nat),
    byteAt sp (setBytes m a bs) a' = if a ≤ a' ∧ a' < a + bs.length then bs.getD (a' - a) 0 else byteAt sp m a' := by
  induction bs with
  | nil => intro m a a'; simp [setBytes]
  | cons b rest ih =>
    intro m a a'
    simp only [setBytes, ih, byteAt_setByte, List.length_cons]
    by_cases h1 : a' = a
    · subst h1
      simp
    · by_cases h2 : a + 1 ≤ a' ∧ a' < a + 1 + rest.length
      · have h3 : a ≤ a' ∧ a' < a + (rest.length + 1) := by omega
        have h4 : a' - a = (a' - (a + 1)) + 1 := by omega
        simp [h2, h3, h4]
      · have h3 : ¬ (a ≤ a' ∧ a' < a + (rest.length + 1)) := by omega
        rw [if_neg h2, if_neg h1, if_neg h3]

theorem zeroFill_wf {m : ByteBuf} (h : ByteBuf.wf m) (len : Nat) : ByteBuf.wf (zeroFill m len) := by
  refine List.pairwise_append.mpr ⟨?_, h.filter _, ?_⟩
  · rw [List.pairwise_map]
    exact List.pairwise_lt_range.imp fun hab => by simpa [addrLt] using hab
  · intro x hx y hy
    simp only [List.mem_map, List.mem_range, List.mem_filter, decide_eq_true_eq] at hx hy
    obtain ⟨a, ha, rfl⟩ := hx
    simp only [addrLt, decide_eq_true_eq]
    omega

theorem lookupCell_append {κ α : Type} [DecidableEq κ] (k : κ) (l₁ l₂ : List (κ × α)) :
    lookupCell k (l₁ ++ l₂) = (lookupCell k l₁).or (lookupCell k l₂) := by
  induction l₁ with
  | nil => simp [lookupCell]
  | cons c rest ih =>
    obtain ⟨k', v⟩ := c
    by_cases h : k = k'
    · simp [lookupCell, h]
    · simpa [lookupCell, h] using ih

theorem lookupCell_map_const {κ α : Type} [DecidableEq κ] (k : κ) (v : α) (l : List κ) :
    lookupCell k (l.map fun a => (a, v)) = if k ∈ l then some v else none := by
  induction l with
  | nil => simp [lookupCell]
  | cons a rest ih =>
    by_cases h : k = a
    · simp [lookupCell, h]
    · simp [lookupCell, h, ih]

theorem lookupCell_filter {κ α : Type} [DecidableEq κ] (p : κ → Bool) (k : κ) (l : List (κ × α)) :
    lookupCell k (l.filter fun c => p c.1) = if p k then lookupCell k l else none := by
  induction l with
  | nil => simp [lookupCell]
  | cons c rest ih =>
    obtain ⟨k', v⟩ := c
    by_cases hp : p k' = true
    · by_cases h : k = k'
      · subst h
        simp [lookupCell, hp]
      · simp [lookupCell, hp, h, ih]
    · by_cases h : k = k'
      · subst h
        simpa [lookupCell, hp] using ih
      · simp [lookupCell, hp, h, ih]

/-- After the zero fill of FBINIT a byte below the length is 0, every other byte as before. -/
theorem byteAt_zeroFill (sp : ByteSpace) (m : ByteBuf) (len a : Nat) :
    byteAt sp (zeroFill m len) a = if a < len then 0 else byteAt sp m a := by
  have hf := lookupCell_filter (fun k => decide (len ≤ k)) a m.cells
  simp only [byteAt, zeroFill, lookupCell_append, lookupCell_map_const, List.mem_range, hf]
  by_cases h : a < len
  · simp [h]
  · simp [h, Nat.le_of_not_lt h]

theorem forgetBytes_wf (n : Nat) : ByteBuf.wf (forgetBytes n) := List.Pairwise.nil

/-- Everything a 16-bit write can answer (20_memory R65). -/
theorem memWrite_ok {len : Nat} {m m' : ByteBuf} {a : Nat} {v : Sample} (h : memWrite len m a v = .ok m') :
    a + 2 ≤ len ∧ m' = setByte (setByte m a (v.extractLsb' 0 8)) (a + 1) (v.extractLsb' 8 8) := by
  unfold memWrite at h
  split at h
  · exact ⟨‹_›, (Except.ok.inj h).symm⟩
  · cases h

theorem memWrite_eq {len : Nat} {a : Nat} (ha : a + 2 ≤ len) (m : ByteBuf) (v : Sample) :
    memWrite len m a v = .ok (setByte (setByte m a (v.extractLsb' 0 8)) (a + 1) (v.extractLsb' 8 8)) := by
  simp [memWrite, ha]

theorem memWrite_wf {len : Nat} {m m' : ByteBuf} {a : Nat} {v : Sample} (h : memWrite len m a v = .ok m')
    (hm : ByteBuf.wf m) : ByteBuf.wf m' := by
  rw [(memWrite_ok h).2]
  exact setByte_wf (setByte_wf hm _ _) _ _

/-- A refused 16-bit access is a `BoundsFault`. -/
theorem memWrite_error {len : Nat} {m : ByteBuf} {a : Nat} {v : Sample} {e : FaultCause}
    (h : memWrite len m a v = .error e) : ¬ a + 2 ≤ len ∧ e = .bounds := by
  unfold memWrite at h
  split at h
  · cases h
  · exact ⟨‹_›, (Except.error.inj h).symm⟩

theorem memRead_eq {sp : ByteSpace} {len : Nat} {a : Nat} (ha : a + 2 ≤ len) (m : ByteBuf) :
    memRead sp len m a = .ok (byteAt sp m (a + 1) ++ byteAt sp m a) := by
  simp [memRead, ha]

theorem memRead_error {sp : ByteSpace} {len : Nat} {m : ByteBuf} {a : Nat} {e : FaultCause}
    (h : memRead sp len m a = .error e) : ¬ a + 2 ≤ len ∧ e = .bounds := by
  unfold memRead at h
  split at h
  · cases h
  · exact ⟨‹_›, (Except.error.inj h).symm⟩

/-! ### Planes -/

section Planes

variable {α : Type} [DecidableEq α]

@[simp] theorem setCell_epoch (kind : CellKind α) (p : Plane α) (r c : Nat) (v : α) :
    (setCell kind p r c v).epoch = p.epoch := by
  unfold setCell
  split <;> rfl

@[simp] theorem cellAt_setCell_self (kind : CellKind α) (p : Plane α) (r c : Nat) (v : α) :
    cellAt kind (setCell kind p r c v) r c = v := by
  unfold setCell
  split
  · rename_i h
    simp [cellAt, unlistedCell, h.1, h.2]
  · simp [cellAt]

theorem cellAt_setCell_other (kind : CellKind α) (p : Plane α) {r c r' c' : Nat} (hne : ¬ (r' = r ∧ c' = c)) (v : α) :
    cellAt kind (setCell kind p r c v) r' c' = cellAt kind p r' c' := by
  have hk : ((r', c') : Nat × Nat) ≠ (r, c) := fun e => hne ⟨congrArg Prod.fst e, congrArg Prod.snd e⟩
  unfold setCell
  split
  · simp [cellAt, lookupCell_dropCell_other hk]
  · simp [cellAt, lookupCell_putCell_other _ hk]

theorem cellAt_setCell (kind : CellKind α) (p : Plane α) (r c r' c' : Nat) (v : α) :
    cellAt kind (setCell kind p r c v) r' c' = if r' = r ∧ c' = c then v else cellAt kind p r' c' := by
  split
  · rename_i h
    obtain ⟨rfl, rfl⟩ := h
    exact cellAt_setCell_self ..
  · rename_i h
    exact cellAt_setCell_other _ _ h _

theorem setCell_wf (kind : CellKind α) {p : Plane α} (h : Plane.wf kind p) (r c : Nat) (v : α) :
    Plane.wf kind (setCell kind p r c v) := by
  unfold setCell
  split
  · exact ⟨dropCell_rising _ h.1, fun he d hd => h.2 he d (List.mem_of_mem_filter hd)⟩
  · rename_i hv
    refine ⟨putCell_rising coordLt_trans coordLt_total _ _ h.1, fun he d hd => ?_⟩
    rcases mem_putCell hd with hd | hd
    · subst hd
      exact fun e => hv ⟨he, e⟩
    · exact h.2 he d hd

theorem lookupCell_row_none (f : Nat → Nat → α) (kind : CellKind α) (r r' c : Nat) (cols : List Nat) (hne : r ≠ r') :
    lookupCell (r, c) (cols.filterMap fun c' => if f r' c' = kind.zero then none else some ((r', c'), f r' c'))
      = none := by
  induction cols with
  | nil => simp [lookupCell]
  | cons a rest ih =>
    by_cases h : f r' a = kind.zero
    · simpa [h] using ih
    · simpa [h, lookupCell, hne] using ih

theorem lookupCell_row (f : Nat → Nat → α) (kind : CellKind α) (r c : Nat) (cols : List Nat) :
    lookupCell (r, c) (cols.filterMap fun c' => if f r c' = kind.zero then none else some ((r, c'), f r c'))
      = if c ∈ cols ∧ f r c ≠ kind.zero then some (f r c) else none := by
  induction cols with
  | nil => simp [lookupCell]
  | cons a rest ih =>
    by_cases h : f r a = kind.zero
    · by_cases hc : c = a
      · subst hc
        simp [h, ih]
      · simp [h, ih, hc]
    · by_cases hc : c = a
      · subst hc
        simp [h, lookupCell]
      · simp [h, lookupCell, hc, ih]

theorem lookupCell_rows (f : Nat → Nat → α) (kind : CellKind α) (r c cols : Nat) (rows : List Nat) :
    lookupCell (r, c) (rows.flatMap fun r' => (List.range cols).filterMap fun c' =>
        if f r' c' = kind.zero then none else some ((r', c'), f r' c'))
      = if r ∈ rows ∧ c < cols ∧ f r c ≠ kind.zero then some (f r c) else none := by
  induction rows with
  | nil => simp [lookupCell]
  | cons a rest ih =>
    rw [List.flatMap_cons, lookupCell_append, ih]
    by_cases h : r = a
    · subst h
      rw [lookupCell_row]
      by_cases hc : c < cols ∧ f r c ≠ kind.zero
      · simp [hc]
      · have : ¬ (c ∈ List.range cols ∧ f r c ≠ kind.zero) := by simpa using hc
        simp only [this, if_false, Option.none_or, List.mem_cons, true_or, true_and, hc]
        simp
    · rw [lookupCell_row_none f kind r a c _ h]
      simp [h]

/-- The plane made of a function reads as the function inside and 0 outside. -/
theorem cellAt_planeOf (kind : CellKind α) (rows cols : Nat) (f : Nat → Nat → α) (r c : Nat) :
    cellAt kind (planeOf kind rows cols f) r c = if r < rows ∧ c < cols then f r c else kind.zero := by
  unfold cellAt planeOf
  simp only [lookupCell_rows, List.mem_range, unlistedCell]
  by_cases h : r < rows ∧ c < cols
  · by_cases hz : f r c = kind.zero
    · simp [h, hz]
    · simp [h, hz]
  · have : ¬ (r < rows ∧ c < cols ∧ f r c ≠ kind.zero) := fun e => h ⟨e.1, e.2.1⟩
    simp [h, this]

theorem planeOf_wf (kind : CellKind α) (rows cols : Nat) (f : Nat → Nat → α) :
    Plane.wf kind (planeOf kind rows cols f) := by
  refine ⟨?_, fun _ d hd => ?_⟩
  · refine List.pairwise_flatMap.mpr ⟨fun r _ => ?_, ?_⟩
    · refine List.Pairwise.filterMap _ (fun a a' haa b hb b' hb' => ?_) List.pairwise_lt_range
      by_cases h1 : f r a = kind.zero
      · simp [h1] at hb
      · by_cases h2 : f r a' = kind.zero
        · simp [h2] at hb'
        · simp only [h1, h2, if_false, Option.some.injEq] at hb hb'
          subst hb hb'
          exact (coordLt_iff _ _).mpr (.inr ⟨rfl, haa⟩)
    · refine List.pairwise_lt_range.imp fun hab x hx y hy => ?_
      simp only [List.mem_filterMap] at hx hy
      obtain ⟨cx, -, hx⟩ := hx
      obtain ⟨cy, -, hy⟩ := hy
      split at hx
      · cases hx
      · split at hy
        · cases hy
        · cases hx
          cases hy
          exact (coordLt_iff _ _).mpr (.inl hab)
  · simp only [planeOf, List.mem_flatMap, List.mem_filterMap] at hd
    obtain ⟨r, -, c, -, hd⟩ := hd
    split at hd
    · cases hd
    · rename_i h
      cases hd
      exact h

theorem zeroPlane_wf (kind : CellKind α) : Plane.wf kind ⟨none, []⟩ := ⟨List.Pairwise.nil, by simp⟩

theorem unspecifiedPlane_wf (kind : CellKind α) (n : Nat) : Plane.wf kind ⟨some n, []⟩ :=
  ⟨List.Pairwise.nil, by simp⟩

/-- Everything a bounds-checked write can answer (20_memory R66). -/
theorem writeCell_ok {P : Impl} {kind : CellKind α} {p p' : Plane α} {r c : Int} {v : α}
    (h : writeCell P kind p r c v = .ok p') : inCapacity P r c = true ∧ p' = setCell kind p r.toNat c.toNat v := by
  unfold writeCell at h
  split at h
  · exact ⟨‹_›, (Except.ok.inj h).symm⟩
  · cases h

theorem writeCell_eq {P : Impl} {r c : Int} (h : inCapacity P r c = true) (kind : CellKind α) (p : Plane α) (v : α) :
    writeCell P kind p r c v = .ok (setCell kind p r.toNat c.toNat v) := by
  simp [writeCell, h]

theorem writeCell_error {P : Impl} {kind : CellKind α} {p : Plane α} {r c : Int} {v : α} {e : FaultCause}
    (h : writeCell P kind p r c v = .error e) : inCapacity P r c = false ∧ e = .bounds := by
  unfold writeCell at h
  split at h
  · cases h
  · rename_i hc
    exact ⟨by simpa using hc, (Except.error.inj h).symm⟩

theorem writeCell_wf {P : Impl} {kind : CellKind α} {p p' : Plane α} {r c : Int} {v : α}
    (h : writeCell P kind p r c v = .ok p') (hp : Plane.wf kind p) : Plane.wf kind p' := by
  rw [(writeCell_ok h).2]
  exact setCell_wf kind hp _ _ _

end Planes

theorem readCell_eq {α : Type} {P : Impl} {r c : Int} (h : inCapacity P r c = true) (kind : CellKind α) (p : Plane α) :
    readCell P kind p r c = .ok (cellAt kind p r.toNat c.toNat) := by
  simp [readCell, h]

theorem readCell_error {α : Type} {P : Impl} {kind : CellKind α} {p : Plane α} {r c : Int} {e : FaultCause}
    (h : readCell P kind p r c = .error e) : inCapacity P r c = false ∧ e = .bounds := by
  unfold readCell at h
  split at h
  · cases h
  · rename_i hc
    exact ⟨by simpa using hc, (Except.error.inj h).symm⟩

theorem inCapacity_nat (P : Impl) (r c : Nat) : inCapacity P r c = true ↔ r < P.capRows ∧ c < P.capCols := by
  simp [inCapacity]

theorem readRaw_eq {P : Impl} {cfg : ConfigRegs} {r c : Int} (hf : inFrame cfg r c = true)
    (hc : inCapacity P r c = true) (fb : FrameBuffer) :
    readRaw P cfg fb r c = .ok (toR (cellAt rawKind fb.raw r.toNat c.toNat)) := by
  simp [readRaw, hf, readCell_eq hc, Except.map]

theorem readRaw_error {P : Impl} {cfg : ConfigRegs} {fb : FrameBuffer} {r c : Int} {e : FaultCause}
    (h : readRaw P cfg fb r c = .error e) : (inFrame cfg r c && inCapacity P r c) = false ∧ e = .bounds := by
  unfold readRaw at h
  split at h
  · rename_i hf
    cases hr : readCell P rawKind fb.raw r c with
    | ok v => simp [hr, Except.map] at h
    | error e' =>
      simp only [hr, Except.map, Except.error.injEq] at h
      obtain ⟨h1, h2⟩ := readCell_error hr
      exact ⟨by simp [h1], h ▸ h2⟩
  · rename_i hf
    exact ⟨by simp [hf], (Except.error.inj h).symm⟩

theorem writeRaw_ok {P : Impl} {cfg : ConfigRegs} {fb : FrameBuffer} {r c : Int} {v : Sample} {p : Plane Sample}
    (h : writeRaw P cfg fb r c v = .ok p) :
    inFrame cfg r c = true ∧ inCapacity P r c = true ∧ p = setCell rawKind fb.raw r.toNat c.toNat v := by
  unfold writeRaw at h
  split at h
  · exact ⟨‹_›, (writeCell_ok h).1, (writeCell_ok h).2⟩
  · cases h

theorem writeRaw_wf {P : Impl} {cfg : ConfigRegs} {fb : FrameBuffer} {r c : Int} {v : Sample} {p : Plane Sample}
    (h : writeRaw P cfg fb r c v = .ok p) (hf : Plane.wf rawKind fb.raw) : Plane.wf rawKind p := by
  rw [(writeRaw_ok h).2.2]
  exact setCell_wf rawKind hf _ _ _

/-! ### Whole FrameBuffers -/

theorem zeroFrame_wf : FrameBuffer.wf zeroFrame :=
  ⟨zeroPlane_wf _, zeroPlane_wf _, zeroPlane_wf _, zeroPlane_wf _, zeroPlane_wf _, zeroPlane_wf _⟩

theorem unspecifiedFrame_wf (n : Nat) (a b : BitVec 8) (q : R) : FrameBuffer.wf (unspecifiedFrame n a b q) :=
  ⟨unspecifiedPlane_wf _ n, unspecifiedPlane_wf _ n, unspecifiedPlane_wf _ n, unspecifiedPlane_wf _ n,
    unspecifiedPlane_wf _ n, unspecifiedPlane_wf _ n⟩

/-- The memory and the frames after hardware reset are in canonical form. -/
theorem reset_memory_wf (n : Nat) : Memory.wf (State.freshReset n).mem ∧ FrameBuffer.wf (State.freshReset n).fb
    ∧ FrameBuffer.wf (State.freshReset n).prev :=
  ⟨⟨List.Pairwise.nil, List.Pairwise.nil, List.Pairwise.nil⟩, unspecifiedFrame_wf _ _ _ _, zeroFrame_wf⟩

end Sys2Proof.Laws
end

