-- ==== Sys2Proof/Laws/State.lean ====
section
/-! SUPPORT. One lemma per field per named update of State, so that no later proof unfolds a record update; the named
updates themselves said once (fault entry, end of a pass). -/

namespace Sys2Proof.Laws

open Sys2Proof Sys2Proof.Machine

/-! ### `State.withScratch` -/

@[simp] theorem withScratch_status (s : State) (x : Scratch) : (s.withScratch x).status = s.status := rfl
@[simp] theorem withScratch_shadow (s : State) (x : Scratch) : (s.withScratch x).shadow = s.shadow := rfl
@[simp] theorem withScratch_active (s : State) (x : Scratch) : (s.withScratch x).active = s.active := rfl
@[simp] theorem withScratch_args (s : State) (x : Scratch) : (s.withScratch x).args = s.args := rfl
@[simp] theorem withScratch_mem (s : State) (x : Scratch) : (s.withScratch x).mem = { s.mem with out := x.out } := rfl
@[simp] theorem withScratch_fb (s : State) (x : Scratch) : (s.withScratch x).fb = x.fb := rfl
@[simp] theorem withScratch_prev (s : State) (x : Scratch) : (s.withScratch x).prev = s.prev := rfl
@[simp] theorem withScratch_seq (s : State) (x : Scratch) : (s.withScratch x).seq = s.seq := rfl
@[simp] theorem withScratch_row (s : State) (x : Scratch) : (s.withScratch x).row = s.row := rfl
@[simp] theorem withScratch_col (s : State) (x : Scratch) : (s.withScratch x).col = s.col := rfl
@[simp] theorem withScratch_work (s : State) (x : Scratch) : (s.withScratch x).work = x.work := rfl
@[simp] theorem withScratch_log (s : State) (x : Scratch) : (s.withScratch x).log = s.log := rfl
@[simp] theorem withScratch_host (s : State) (x : Scratch) : (s.withScratch x).host = s.host := rfl
@[simp] theorem withScratch_answer (s : State) (x : Scratch) : (s.withScratch x).answer = s.answer := rfl
@[simp] theorem withScratch_estimate (s : State) (x : Scratch) : (s.withScratch x).estimate = s.estimate := rfl
@[simp] theorem withScratch_free (s : State) (x : Scratch) : (s.withScratch x).free = s.free := rfl

@[simp] theorem scratch_withScratch (s : State) (x : Scratch) : (s.withScratch x).scratch = x := rfl
@[simp] theorem withScratch_scratch (s : State) : s.withScratch s.scratch = s := rfl

/-! ### `State.popHost` -/

@[simp] theorem popHost_status (s : State) : (s.popHost).status = s.status := rfl
@[simp] theorem popHost_shadow (s : State) : (s.popHost).shadow = s.shadow := rfl
@[simp] theorem popHost_active (s : State) : (s.popHost).active = s.active := rfl
@[simp] theorem popHost_args (s : State) : (s.popHost).args = s.args := rfl
@[simp] theorem popHost_mem (s : State) : (s.popHost).mem = s.mem := rfl
@[simp] theorem popHost_fb (s : State) : (s.popHost).fb = s.fb := rfl
@[simp] theorem popHost_prev (s : State) : (s.popHost).prev = s.prev := rfl
@[simp] theorem popHost_seq (s : State) : (s.popHost).seq = s.seq := rfl
@[simp] theorem popHost_row (s : State) : (s.popHost).row = s.row := rfl
@[simp] theorem popHost_col (s : State) : (s.popHost).col = s.col := rfl
@[simp] theorem popHost_work (s : State) : (s.popHost).work = s.work := rfl
@[simp] theorem popHost_log (s : State) : (s.popHost).log = s.log := rfl
@[simp] theorem popHost_host (s : State) : (s.popHost).host = s.host.tail := rfl
@[simp] theorem popHost_answer (s : State) : (s.popHost).answer = s.answer := rfl
@[simp] theorem popHost_estimate (s : State) : (s.popHost).estimate = s.estimate := rfl
@[simp] theorem popHost_free (s : State) : (s.popHost).free = s.free := rfl

/-! ### `releaseCounters` -/

@[simp] theorem releaseCounters_status (s : State) : (releaseCounters s).status = s.status := rfl
@[simp] theorem releaseCounters_shadow (s : State) : (releaseCounters s).shadow = s.shadow := rfl
@[simp] theorem releaseCounters_active (s : State) : (releaseCounters s).active = s.active := rfl
@[simp] theorem releaseCounters_args (s : State) : (releaseCounters s).args = s.args := rfl
@[simp] theorem releaseCounters_mem (s : State) : (releaseCounters s).mem = s.mem := rfl
@[simp] theorem releaseCounters_fb (s : State) : (releaseCounters s).fb = s.fb := rfl
@[simp] theorem releaseCounters_prev (s : State) : (releaseCounters s).prev = s.prev := rfl
@[simp] theorem releaseCounters_seq (s : State) : (releaseCounters s).seq = s.seq := rfl
@[simp] theorem releaseCounters_row (s : State) : (releaseCounters s).row = Config.freeCount .row s.free := rfl
@[simp] theorem releaseCounters_col (s : State) : (releaseCounters s).col = Config.freeCount .col s.free := rfl
@[simp] theorem releaseCounters_work (s : State) : (releaseCounters s).work = s.work := rfl
@[simp] theorem releaseCounters_log (s : State) : (releaseCounters s).log = s.log := rfl
@[simp] theorem releaseCounters_host (s : State) : (releaseCounters s).host = s.host := rfl
@[simp] theorem releaseCounters_answer (s : State) : (releaseCounters s).answer = s.answer := rfl
@[simp] theorem releaseCounters_estimate (s : State) : (releaseCounters s).estimate = s.estimate := rfl
@[simp] theorem releaseCounters_free (s : State) : (releaseCounters s).free = s.free + 1 := rfl

/-! ### `recordFault` -/

@[simp] theorem recordFault_status (c : FaultCause) (s : State) :
    (recordFault c s).status = { s.status with fault := some c, seq := faultStage c s, done := false, run := .faulted } := rfl
@[simp] theorem recordFault_shadow (c : FaultCause) (s : State) : (recordFault c s).shadow = s.shadow := rfl
@[simp] theorem recordFault_active (c : FaultCause) (s : State) : (recordFault c s).active = s.active := rfl
@[simp] theorem recordFault_args (c : FaultCause) (s : State) : (recordFault c s).args = s.args := rfl
@[simp] theorem recordFault_mem (c : FaultCause) (s : State) : (recordFault c s).mem = s.mem := rfl
@[simp] theorem recordFault_fb (c : FaultCause) (s : State) : (recordFault c s).fb = s.fb := rfl
@[simp] theorem recordFault_prev (c : FaultCause) (s : State) : (recordFault c s).prev = s.prev := rfl
@[simp] theorem recordFault_seq (c : FaultCause) (s : State) : (recordFault c s).seq = 0 := rfl
@[simp] theorem recordFault_row (c : FaultCause) (s : State) : (recordFault c s).row = s.row := rfl
@[simp] theorem recordFault_col (c : FaultCause) (s : State) : (recordFault c s).col = s.col := rfl
@[simp] theorem recordFault_work (c : FaultCause) (s : State) : (recordFault c s).work = s.work := rfl
@[simp] theorem recordFault_log (c : FaultCause) (s : State) : (recordFault c s).log = s.log := rfl
@[simp] theorem recordFault_host (c : FaultCause) (s : State) : (recordFault c s).host = s.host := rfl
@[simp] theorem recordFault_answer (c : FaultCause) (s : State) : (recordFault c s).answer = s.answer := rfl
@[simp] theorem recordFault_estimate (c : FaultCause) (s : State) : (recordFault c s).estimate = s.estimate := rfl
@[simp] theorem recordFault_free (c : FaultCause) (s : State) : (recordFault c s).free = s.free := rfl

/-! ### `forgetScratch` -/

@[simp] theorem forgetScratch_status (s : State) : (forgetScratch s).status = s.status := rfl
@[simp] theorem forgetScratch_shadow (s : State) : (forgetScratch s).shadow = s.shadow := rfl
@[simp] theorem forgetScratch_active (s : State) : (forgetScratch s).active = s.active := rfl
@[simp] theorem forgetScratch_args (s : State) : (forgetScratch s).args = s.args := rfl
@[simp] theorem forgetScratch_mem (s : State) : (forgetScratch s).mem = { s.mem with out := forgetBytes s.free } := rfl
@[simp] theorem forgetScratch_fb (s : State) :
    (forgetScratch s).fb = unspecifiedFrame s.free (Config.freePhaseId false s.free) (Config.freePhaseId true s.free) (Config.freeBurst s.free) := rfl
@[simp] theorem forgetScratch_prev (s : State) : (forgetScratch s).prev = s.prev := rfl
@[simp] theorem forgetScratch_seq (s : State) : (forgetScratch s).seq = s.seq := rfl
@[simp] theorem forgetScratch_row (s : State) : (forgetScratch s).row = Config.freeCount .row s.free := rfl
@[simp] theorem forgetScratch_col (s : State) : (forgetScratch s).col = Config.freeCount .col s.free := rfl
@[simp] theorem forgetScratch_work (s : State) : (forgetScratch s).work = releaseAll s.free s.work := rfl
@[simp] theorem forgetScratch_log (s : State) : (forgetScratch s).log = s.log := rfl
@[simp] theorem forgetScratch_host (s : State) : (forgetScratch s).host = s.host := rfl
@[simp] theorem forgetScratch_answer (s : State) : (forgetScratch s).answer = s.answer := rfl
@[simp] theorem forgetScratch_estimate (s : State) : (forgetScratch s).estimate = s.estimate := rfl
@[simp] theorem forgetScratch_free (s : State) : (forgetScratch s).free = s.free + 1 := rfl

/-! ### `raise` (60_exceptions R236) -/

@[simp] theorem raise_shadow (c : FaultCause) (s : State) : (raise c s).shadow = s.shadow := by cases c <;> rfl
@[simp] theorem raise_active (c : FaultCause) (s : State) : (raise c s).active = s.active := by cases c <;> rfl
@[simp] theorem raise_args (c : FaultCause) (s : State) : (raise c s).args = s.args := by cases c <;> rfl
@[simp] theorem raise_prev (c : FaultCause) (s : State) : (raise c s).prev = s.prev := by cases c <;> rfl
@[simp] theorem raise_log (c : FaultCause) (s : State) : (raise c s).log = s.log := by cases c <;> rfl
@[simp] theorem raise_host (c : FaultCause) (s : State) : (raise c s).host = s.host := by cases c <;> rfl
@[simp] theorem raise_answer (c : FaultCause) (s : State) : (raise c s).answer = s.answer := by cases c <;> rfl
@[simp] theorem raise_estimate (c : FaultCause) (s : State) : (raise c s).estimate = s.estimate := by cases c <;> rfl
@[simp] theorem raise_seq (c : FaultCause) (s : State) : (raise c s).seq = 0 := by cases c <;> rfl
@[simp] theorem raise_status (c : FaultCause) (s : State) :
    (raise c s).status = { s.status with fault := some c, seq := faultStage c s, done := false, run := .faulted } := by cases c <;> rfl
@[simp] theorem raise_field1 (c : FaultCause) (s : State) : (raise c s).mem.field1 = s.mem.field1 := by cases c <;> rfl
@[simp] theorem raise_field2 (c : FaultCause) (s : State) : (raise c s).mem.field2 = s.mem.field2 := by cases c <;> rfl

/-! ### `advance`: the end of a pass (40_sequencer R122, R124) -/

@[simp] theorem advance_shadow (code : StageCode) (s : State) :
    (advance code s).shadow = s.shadow := by unfold advance; split <;> rfl
@[simp] theorem advance_active (code : StageCode) (s : State) :
    (advance code s).active = s.active := by unfold advance; split <;> rfl
@[simp] theorem advance_args (code : StageCode) (s : State) :
    (advance code s).args = s.args := by unfold advance; split <;> rfl
@[simp] theorem advance_mem (code : StageCode) (s : State) :
    (advance code s).mem = s.mem := by unfold advance; split <;> rfl
@[simp] theorem advance_fb (code : StageCode) (s : State) :
    (advance code s).fb = s.fb := by unfold advance; split <;> rfl
@[simp] theorem advance_prev (code : StageCode) (s : State) :
    (advance code s).prev = s.prev := by unfold advance; split <;> rfl
@[simp] theorem advance_row (code : StageCode) (s : State) :
    (advance code s).row = s.row := by unfold advance; split <;> rfl
@[simp] theorem advance_col (code : StageCode) (s : State) :
    (advance code s).col = s.col := by unfold advance; split <;> rfl
@[simp] theorem advance_work (code : StageCode) (s : State) :
    (advance code s).work = s.work := by unfold advance; split <;> rfl
@[simp] theorem advance_log (code : StageCode) (s : State) :
    (advance code s).log = s.log := by unfold advance; split <;> rfl
@[simp] theorem advance_host (code : StageCode) (s : State) :
    (advance code s).host = s.host := by unfold advance; split <;> rfl
@[simp] theorem advance_answer (code : StageCode) (s : State) :
    (advance code s).answer = s.answer := by unfold advance; split <;> rfl
@[simp] theorem advance_estimate (code : StageCode) (s : State) :
    (advance code s).estimate = s.estimate := by unfold advance; split <;> rfl
@[simp] theorem advance_free (code : StageCode) (s : State) :
    (advance code s).free = s.free := by unfold advance; split <;> rfl
@[simp] theorem advance_seq (code : StageCode) (s : State) :
    (advance code s).seq = code := by
  unfold advance
  split
  · rename_i h; exact h.symm
  · rfl

theorem advance_status_end (s : State) :
    (advance 0x00#8 s).status = { s.status with run := .idle, done := true } := rfl

theorem advance_status_on {code : StageCode} (h : code ≠ 0x00#8) (s : State) : (advance code s).status = s.status := by
  simp [advance, h]

/-! ### `finishPass` -/

@[simp] theorem finishPass_shadow (i : Instr) (release : Nat → Work → Work) (s : State) (x : Scratch) :
    (finishPass i release s x).shadow = s.shadow := by simp [finishPass]
@[simp] theorem finishPass_active (i : Instr) (release : Nat → Work → Work) (s : State) (x : Scratch) :
    (finishPass i release s x).active = s.active := by simp [finishPass]
@[simp] theorem finishPass_args (i : Instr) (release : Nat → Work → Work) (s : State) (x : Scratch) :
    (finishPass i release s x).args = s.args := by simp [finishPass]
@[simp] theorem finishPass_mem (i : Instr) (release : Nat → Work → Work) (s : State) (x : Scratch) :
    (finishPass i release s x).mem = { s.mem with out := x.out } := by simp [finishPass]
@[simp] theorem finishPass_fb (i : Instr) (release : Nat → Work → Work) (s : State) (x : Scratch) :
    (finishPass i release s x).fb = x.fb := by simp [finishPass]
@[simp] theorem finishPass_prev (i : Instr) (release : Nat → Work → Work) (s : State) (x : Scratch) :
    (finishPass i release s x).prev = s.prev := by simp [finishPass]
@[simp] theorem finishPass_seq (i : Instr) (release : Nat → Work → Work) (s : State) (x : Scratch) :
    (finishPass i release s x).seq = nextStage s.active i := by simp [finishPass]
@[simp] theorem finishPass_row (i : Instr) (release : Nat → Work → Work) (s : State) (x : Scratch) :
    (finishPass i release s x).row = Config.freeCount .row s.free := by simp [finishPass]
@[simp] theorem finishPass_col (i : Instr) (release : Nat → Work → Work) (s : State) (x : Scratch) :
    (finishPass i release s x).col = Config.freeCount .col s.free := by simp [finishPass]
@[simp] theorem finishPass_work (i : Instr) (release : Nat → Work → Work) (s : State) (x : Scratch) :
    (finishPass i release s x).work = release s.free x.work := by simp [finishPass]
@[simp] theorem finishPass_log (i : Instr) (release : Nat → Work → Work) (s : State) (x : Scratch) :
    (finishPass i release s x).log = s.log := by simp [finishPass]
@[simp] theorem finishPass_host (i : Instr) (release : Nat → Work → Work) (s : State) (x : Scratch) :
    (finishPass i release s x).host = s.host := by simp [finishPass]
@[simp] theorem finishPass_answer (i : Instr) (release : Nat → Work → Work) (s : State) (x : Scratch) :
    (finishPass i release s x).answer = s.answer := by simp [finishPass]
@[simp] theorem finishPass_estimate (i : Instr) (release : Nat → Work → Work) (s : State) (x : Scratch) :
    (finishPass i release s x).estimate = s.estimate := by simp [finishPass]
@[simp] theorem finishPass_free (i : Instr) (release : Nat → Work → Work) (s : State) (x : Scratch) :
    (finishPass i release s x).free = s.free + 1 := by simp [finishPass]

theorem finishPass_status_end {i : Instr} {s : State} (h : nextStage s.active i = 0x00#8) (release : Nat → Work → Work)
    (x : Scratch) : (finishPass i release s x).status = { s.status with run := .idle, done := true } := by
  unfold finishPass
  rw [h]
  simp [advance_status_end]

theorem finishPass_status_on {i : Instr} {s : State} (h : nextStage s.active i ≠ 0x00#8) (release : Nat → Work → Work)
    (x : Scratch) : (finishPass i release s x).status = s.status := by
  unfold finishPass
  rw [advance_status_on h]
  simp

/-! ### Everything a pass can answer -/

/-- A pass always answers a next state: its end, or the fault entry. -/
theorem runPass_cases (i : Instr) (release : Nat → Work → Work) (body : State → Scratch → Except FaultCause Scratch)
    (s : State) :
    (∃ x, body s s.scratch = .ok x ∧ runPass i release body s = .next (finishPass i release s x))
      ∨ (∃ c, body s s.scratch = .error c ∧ runPass i release body s = .next (raise c s)) := by
  unfold runPass
  cases body s s.scratch with
  | ok x => exact .inl ⟨x, rfl, rfl⟩
  | error c => exact .inr ⟨c, rfl, rfl⟩

theorem runPass_ok {i : Instr} {release : Nat → Work → Work} {body : State → Scratch → Except FaultCause Scratch}
    {s : State} {x : Scratch} (h : body s s.scratch = .ok x) :
    runPass i release body s = .next (finishPass i release s x) := by
  simp [runPass, h]

theorem runPass_error {i : Instr} {release : Nat → Work → Work} {body : State → Scratch → Except FaultCause Scratch}
    {s : State} {c : FaultCause} (h : body s s.scratch = .error c) : runPass i release body s = .next (raise c s) := by
  simp [runPass, h]

/-! ### Everything a step can take up -/

theorem step_busy {s : State} {i : Instr} (hr : s.status.run = .busy) (hd : decodeStage s.seq = .ok i) :
    step s = exec i s := by
  simp [step, stepWith, hr, passStep, hd]

theorem step_host {s : State} {a : HostAction} {rest : List HostAction} (hr : s.status.run ≠ .busy)
    (hh : s.host = a :: rest) : step s = hostAct exec a s.popHost := by
  simp [step, stepWith, hr, hostStep, hh]

theorem step_quiet {s : State} (hr : s.status.run ≠ .busy) (hh : s.host = []) : step s = .next s := by
  simp [step, stepWith, hr, hostStep, hh]

/-- A host write: ignored in FAULTED, done otherwise. -/
theorem hostWrite_cases (s t : State) :
    (s.status.run = .faulted ∧ hostWrite s t = s) ∨ (s.status.run ≠ .faulted ∧ hostWrite s t = t) := by
  unfold hostWrite
  split
  · exact .inl ⟨‹_›, rfl⟩
  · exact .inr ⟨‹_›, rfl⟩

/-- A register write touches the shadow registers and the arguments only. -/
theorem writeReg_cases (s : State) (v : Word) (n : Nat) :
    ∃ sh ar, writeReg s v n = { s with shadow := sh, args := ar } := by
  unfold writeReg
  split <;> exact ⟨_, _, rfl⟩

end Sys2Proof.Laws
end

