-- ==== Sys2Proof/Laws/Passes.lean ====
section
/-! SUPPORT. For the body of every pass, said once: the one plane (or `OUT`) it writes, that it keeps the canonical form,
and which fault it can raise. -/

namespace Sys2Proof.Laws

open Sys2Proof Sys2Proof.Machine

/-! ### Peeling a computation apart -/

theorem bind_ok {α β : Type} {x : Except FaultCause α} {f : α → Except FaultCause β} {b : β}
    (h : (x >>= f) = .ok b) : ∃ a, x = .ok a ∧ f a = .ok b := by
  cases x with
  | error e => cases h
  | ok a => exact ⟨a, rfl, h⟩

theorem bind_error {α β : Type} {x : Except FaultCause α} {f : α → Except FaultCause β} {e : FaultCause}
    (h : (x >>= f) = .error e) : x = .error e ∨ ∃ a, x = .ok a ∧ f a = .error e := by
  cases x with
  | error e' =>
    cases h
    exact .inl rfl
  | ok a => exact .inr ⟨a, rfl, h⟩

@[simp] theorem bind_ok_eq {α β : Type} (a : α) (f : α → Except FaultCause β) : ((.ok a : Except FaultCause α) >>= f) = f a :=
  rfl

/-! ### ILACE -/

/-- What ILACE may have done to the scratch state: `RAW` written, in canonical form if it was. -/
def WroteRaw (x y : Scratch) : Prop :=
  ∃ p, y = { x with fb := { x.fb with raw := p } } ∧ (Plane.wf rawKind x.fb.raw → Plane.wf rawKind p)

theorem WroteRaw.trans {x y z : Scratch} (h1 : WroteRaw x y) (h2 : WroteRaw y z) : WroteRaw x z := by
  obtain ⟨p, rfl, hp⟩ := h1
  obtain ⟨q, rfl, hq⟩ := h2
  exact ⟨q, rfl, fun h => hq (hp h)⟩

theorem WroteRaw.refl (x : Scratch) : WroteRaw x x := ⟨x.fb.raw, rfl, id⟩

theorem ilaceCell_wrote {P : Impl} {s : State} {r c : Nat} {x y : Scratch} (h : ilaceCell P s r c x = .ok y) :
    WroteRaw x y := by
  obtain ⟨v, -, h⟩ := bind_ok h
  obtain ⟨p, hp, h⟩ := bind_ok h
  cases h
  exact ⟨p, rfl, writeRaw_wf hp⟩

theorem ilaceBody_wrote {P : Impl} {s : State} {x y : Scratch} (h : ilaceBody P s x = .ok y) : WroteRaw x y :=
  forRange_keeps (WroteRaw x) (fun _ _ _ _ _ hi hb =>
    hi.trans (forRange_keeps (WroteRaw _) (fun _ _ _ _ _ hj hc => hj.trans (ilaceCell_wrote hc)) (.refl _) hb))
    (.refl x) h

theorem ilaceCell_fault {P : Impl} {s : State} {r c : Nat} {x : Scratch} {e : FaultCause}
    (h : ilaceCell P s r c x = .error e) : e = .bounds := by
  rcases bind_error h with h | ⟨v, -, h⟩
  · unfold fieldSample at h
    split at h <;> exact (memRead_error h).2
  · rcases bind_error h with h | ⟨p, -, h⟩
    · unfold writeRaw at h
      split at h
      · exact (writeCell_error h).2
      · exact (Except.error.inj h).symm
    · cases h

/-- ILACE raises nothing but `BoundsFault` (40_sequencer R126). -/
theorem ilaceBody_fault {P : Impl} {s : State} {x : Scratch} {e : FaultCause} (h : ilaceBody P s x = .error e) :
    e = .bounds := by
  obtain ⟨r, y, -, -, h⟩ := forRange_fault h
  obtain ⟨c, z, -, -, h⟩ := forRange_fault h
  exact ilaceCell_fault h

/-! ### SEP1D -/

/-- What SEP1D may have done: `C1D` and the working registers written. -/
def WroteC1d (x y : Scratch) : Prop :=
  ∃ p w, y = { x with fb := { x.fb with c1d := p }, work := w }
    ∧ (Plane.wf (realKind .c1d) x.fb.c1d → Plane.wf (realKind .c1d) p)

theorem WroteC1d.trans {x y z : Scratch} (h1 : WroteC1d x y) (h2 : WroteC1d y z) : WroteC1d x z := by
  obtain ⟨p, w, rfl, hp⟩ := h1
  obtain ⟨q, v, rfl, hq⟩ := h2
  exact ⟨q, v, rfl, fun h => hq (hp h)⟩

theorem WroteC1d.refl (x : Scratch) : WroteC1d x x := ⟨x.fb.c1d, x.work, rfl, id⟩

theorem WroteC1d.ofWork (x : Scratch) (w : Work) : WroteC1d x { x with work := w } := ⟨x.fb.c1d, w, rfl, id⟩

theorem sep1dColumn_wrote {P : Impl} {cfg : ConfigRegs} {r h : Nat} {x y : Scratch}
    (hy : sep1dColumn P cfg r h x = .ok y) : WroteC1d x y := by
  obtain ⟨a, -, hy⟩ := bind_ok hy
  obtain ⟨b, -, hy⟩ := bind_ok hy
  obtain ⟨c, -, hy⟩ := bind_ok hy
  obtain ⟨p, hp, hy⟩ := bind_ok hy
  cases hy
  exact ⟨p, _, rfl, writeCell_wf hp⟩

theorem sep1dBody_wrote {P : Impl} {s : State} {x y : Scratch} (h : sep1dBody P s x = .ok y) : WroteC1d x y :=
  forRange_keeps (WroteC1d x) (fun _ _ _ _ _ hi hb =>
    hi.trans (forRange_keeps (WroteC1d _) (fun _ _ _ _ _ hj hc => hj.trans (sep1dColumn_wrote hc)) (.ofWork _ _) hb))
    (.ofWork x _) h

theorem sep1dColumn_fault {P : Impl} {cfg : ConfigRegs} {r h : Nat} {x : Scratch} {e : FaultCause}
    (he : sep1dColumn P cfg r h x = .error e) : e = .bounds := by
  rcases bind_error he with he | ⟨a, -, he⟩
  · exact (readRaw_error he).2
  rcases bind_error he with he | ⟨b, -, he⟩
  · exact (readRaw_error he).2
  rcases bind_error he with he | ⟨c, -, he⟩
  · exact (readRaw_error he).2
  rcases bind_error he with he | ⟨p, -, he⟩
  · exact (writeCell_error he).2
  · cases he

/-- SEP1D raises nothing but `BoundsFault` (41 R145). -/
theorem sep1dBody_fault {P : Impl} {s : State} {x : Scratch} {e : FaultCause} (h : sep1dBody P s x = .error e) :
    e = .bounds := by
  obtain ⟨r, y, -, -, h⟩ := forRange_fault h
  obtain ⟨c, z, -, -, h⟩ := forRange_fault h
  exact sep1dColumn_fault h

/-! ### SEP2D -/

/-- What SEP2D may have done: `C2D` written. -/
def WroteC2d (x y : Scratch) : Prop :=
  ∃ p, y = { x with fb := { x.fb with c2d := p } }
    ∧ (Plane.wf (realKind .c2d) x.fb.c2d → Plane.wf (realKind .c2d) p)

theorem WroteC2d.trans {x y z : Scratch} (h1 : WroteC2d x y) (h2 : WroteC2d y z) : WroteC2d x z := by
  obtain ⟨p, rfl, hp⟩ := h1
  obtain ⟨q, rfl, hq⟩ := h2
  exact ⟨q, rfl, fun h => hq (hp h)⟩

theorem WroteC2d.refl (x : Scratch) : WroteC2d x x := ⟨x.fb.c2d, rfl, id⟩

theorem sep2dColumn_wrote {P : Impl} {cfg : ConfigRegs} {r h : Nat} {x y : Scratch}
    (hy : sep2dColumn P cfg r h x = .ok y) : WroteC2d x y := by
  obtain ⟨c0, -, hy⟩ := bind_ok hy
  obtain ⟨c1, -, hy⟩ := bind_ok hy
  obtain ⟨p0, -, hy⟩ := bind_ok hy
  obtain ⟨p1, -, hy⟩ := bind_ok hy
  obtain ⟨n0, -, hy⟩ := bind_ok hy
  obtain ⟨n1, -, hy⟩ := bind_ok hy
  obtain ⟨p, hp, hy⟩ := bind_ok hy
  cases hy
  exact ⟨p, rfl, writeCell_wf hp⟩

theorem sep2dBody_wrote {P : Impl} {s : State} {x y : Scratch} (h : sep2dBody P s x = .ok y) : WroteC2d x y :=
  forRange_keeps (WroteC2d x) (fun _ _ _ _ _ hi hb =>
    hi.trans (forRange_keeps (WroteC2d _) (fun _ _ _ _ _ hj hc => hj.trans (sep2dColumn_wrote hc)) (.refl _) hb))
    (.refl x) h

/-- SEP2D raises nothing but `BoundsFault` (42 R160). -/
theorem sep2dBody_fault {P : Impl} {s : State} {x : Scratch} {e : FaultCause} (h : sep2dBody P s x = .error e) :
    e = .bounds := by
  obtain ⟨r, y, -, -, h⟩ := forRange_fault h
  obtain ⟨c, z, -, -, h⟩ := forRange_fault h
  rcases bind_error h with h | ⟨_, -, h⟩
  · exact (readCell_error h).2
  rcases bind_error h with h | ⟨_, -, h⟩
  · exact (readCell_error h).2
  rcases bind_error h with h | ⟨_, -, h⟩
  · exact (readCell_error h).2
  rcases bind_error h with h | ⟨_, -, h⟩
  · exact (readCell_error h).2
  rcases bind_error h with h | ⟨_, -, h⟩
  · exact (readCell_error h).2
  rcases bind_error h with h | ⟨_, -, h⟩
  · exact (readCell_error h).2
  rcases bind_error h with h | ⟨_, -, h⟩
  · exact (writeCell_error h).2
  · cases h

/-! ### SEP3D -/

/-- What SEP3D may have done: `C3D` written. -/
def WroteC3d (x y : Scratch) : Prop :=
  ∃ p, y = { x with fb := { x.fb with c3d := p } }
    ∧ (Plane.wf (realKind .c3d) x.fb.c3d → Plane.wf (realKind .c3d) p)

theorem WroteC3d.trans {x y z : Scratch} (h1 : WroteC3d x y) (h2 : WroteC3d y z) : WroteC3d x z := by
  obtain ⟨p, rfl, hp⟩ := h1
  obtain ⟨q, rfl, hq⟩ := h2
  exact ⟨q, rfl, fun h => hq (hp h)⟩

theorem WroteC3d.refl (x : Scratch) : WroteC3d x x := ⟨x.fb.c3d, rfl, id⟩

theorem sep3dColumn_wrote {P : Impl} {s : State} {r h : Nat} {x y : Scratch} (hy : sep3dColumn P s r h x = .ok y) :
    WroteC3d x y := by
  obtain ⟨a, -, hy⟩ := bind_ok hy
  obtain ⟨b, -, hy⟩ := bind_ok hy
  obtain ⟨p, hp, hy⟩ := bind_ok hy
  cases hy
  exact ⟨p, rfl, writeCell_wf hp⟩

theorem sep3dBody_wrote {P : Impl} {s : State} {x y : Scratch} (h : sep3dBody P s x = .ok y) : WroteC3d x y :=
  forRange_keeps (WroteC3d x) (fun _ _ _ _ _ hi hb =>
    hi.trans (forRange_keeps (WroteC3d _) (fun _ _ _ _ _ hj hc => hj.trans (sep3dColumn_wrote hc)) (.refl _) hb))
    (.refl x) h

/-- SEP3D raises nothing but `BoundsFault` (43 R173). -/
theorem sep3dBody_fault {P : Impl} {s : State} {x : Scratch} {e : FaultCause} (h : sep3dBody P s x = .error e) :
    e = .bounds := by
  obtain ⟨r, y, -, -, h⟩ := forRange_fault h
  obtain ⟨c, z, -, -, h⟩ := forRange_fault h
  rcases bind_error h with h | ⟨_, -, h⟩
  · exact (readCell_error h).2
  rcases bind_error h with h | ⟨_, -, h⟩
  · exact (readRaw_error h).2
  rcases bind_error h with h | ⟨_, -, h⟩
  · exact (writeCell_error h).2
  · cases h

/-! ### The passes over YIQ: IQCOMB, IQMIX, CLPF, YNR, CNR, YCLEAN -/

/-- What a pass over `YIQ` may have done: `YIQ` and the working registers written. -/
def WroteYiq (x y : Scratch) : Prop :=
  ∃ p w, y = { x with fb := { x.fb with yiq := p }, work := w } ∧ (Plane.wf yiqKind x.fb.yiq → Plane.wf yiqKind p)

theorem WroteYiq.trans {x y z : Scratch} (h1 : WroteYiq x y) (h2 : WroteYiq y z) : WroteYiq x z := by
  obtain ⟨p, w, rfl, hp⟩ := h1
  obtain ⟨q, v, rfl, hq⟩ := h2
  exact ⟨q, v, rfl, fun h => hq (hp h)⟩

theorem WroteYiq.refl (x : Scratch) : WroteYiq x x := ⟨x.fb.yiq, x.work, rfl, id⟩

theorem WroteYiq.ofWork (x : Scratch) (w : Work) : WroteYiq x { x with work := w } := ⟨x.fb.yiq, w, rfl, id⟩

theorem combineColumn_wrote {P : Impl} {cfg : ConfigRegs} {est : FrameBuffer → Nat → Nat → Except FaultCause R}
    {r h : Nat} {x y : Scratch} (hy : combineColumn P cfg est r h x = .ok y) : WroteYiq x y := by
  obtain ⟨e, -, hy⟩ := bind_ok hy
  obtain ⟨v, -, hy⟩ := bind_ok hy
  obtain ⟨p, hp, hy⟩ := bind_ok hy
  cases hy
  exact ⟨p, _, rfl, writeCell_wf hp⟩

theorem combineBody_wrote {P : Impl} {est : FrameBuffer → Nat → Nat → Except FaultCause R} {s : State} {x y : Scratch}
    (h : combineBody P est s x = .ok y) : WroteYiq x y :=
  forRange_keeps (WroteYiq x) (fun _ _ _ _ _ hi hb =>
    hi.trans (forRange_keeps (WroteYiq _) (fun _ _ _ _ _ hj hc => hj.trans (combineColumn_wrote hc)) (.ofWork _ _) hb))
    (.ofWork x _) h

/-- The combiner raises nothing but `BoundsFault`, if its estimate does (44 R180). -/
theorem combineBody_fault {P : Impl} {est : FrameBuffer → Nat → Nat → Except FaultCause R}
    (hest : ∀ fb r h e, est fb r h = .error e → e = .bounds) {s : State} {x : Scratch} {e : FaultCause}
    (h : combineBody P est s x = .error e) : e = .bounds := by
  obtain ⟨r, y, -, -, h⟩ := forRange_fault h
  obtain ⟨c, z, -, -, h⟩ := forRange_fault h
  rcases bind_error h with h | ⟨_, -, h⟩
  · exact hest _ _ _ _ h
  rcases bind_error h with h | ⟨_, -, h⟩
  · exact (readRaw_error h).2
  rcases bind_error h with h | ⟨_, -, h⟩
  · exact (writeCell_error h).2
  · cases h

theorem estimateFrom2d_fault {P : Impl} (fb : FrameBuffer) (r h : Nat) (e : FaultCause)
    (he : estimateFrom2d P fb r h = .error e) : e = .bounds := (readCell_error he).2

theorem estimateMixed_fault {P : Impl} (fb : FrameBuffer) (r h : Nat) (e : FaultCause)
    (he : estimateMixed P fb r h = .error e) : e = .bounds := by
  rcases bind_error he with he | ⟨_, -, he⟩
  · exact (readCell_error he).2
  rcases bind_error he with he | ⟨_, -, he⟩
  · exact (readCell_error he).2
  rcases bind_error he with he | ⟨_, -, he⟩
  · exact (readCell_error he).2
  · cases he

theorem clpfColumn_wrote {P : Impl} {taps : Taps × Taps} {r h : Nat} {x y : Scratch}
    (hy : clpfColumn P taps r h x = .ok y) : WroteYiq x y := by
  obtain ⟨v, -, hy⟩ := bind_ok hy
  obtain ⟨t, -, hy⟩ := bind_ok hy
  obtain ⟨p, hp, hy⟩ := bind_ok hy
  cases hy
  exact ⟨p, _, rfl, writeCell_wf hp⟩

theorem clpfBody_wrote {P : Impl} {s : State} {x y : Scratch} (h : clpfBody P s x = .ok y) : WroteYiq x y :=
  forRange_keeps (WroteYiq x) (fun _ _ _ _ _ hi hb =>
    hi.trans (forRange_keeps (WroteYiq _) (fun _ _ _ _ _ hj hc => hj.trans (clpfColumn_wrote hc)) (.ofWork _ _) hb))
    (.refl x) h

/-- CLPF raises nothing but `BoundsFault` (45 R191). -/
theorem clpfBody_fault {P : Impl} {s : State} {x : Scratch} {e : FaultCause} (h : clpfBody P s x = .error e) :
    e = .bounds := by
  obtain ⟨r, y, -, -, h⟩ := forRange_fault h
  obtain ⟨c, z, -, -, h⟩ := forRange_fault h
  rcases bind_error h with h | ⟨_, -, h⟩
  · exact (readCell_error h).2
  rcases bind_error h with h | ⟨_, -, h⟩
  · exact (readCell_error h).2
  rcases bind_error h with h | ⟨_, -, h⟩
  · exact (writeCell_error h).2
  · cases h

theorem denoiseColumn_wrote {P : Impl} {cfg : ConfigRegs} {f : Nat → Yiq → Yiq} {r h : Nat} {x y : Scratch}
    (hy : denoiseColumn P cfg f r h x = .ok y) : WroteYiq x y := by
  obtain ⟨v, -, hy⟩ := bind_ok hy
  obtain ⟨p, hp, hy⟩ := bind_ok hy
  cases hy
  exact ⟨p, x.work, rfl, writeCell_wf hp⟩

theorem denoiseColumn_fault {P : Impl} {cfg : ConfigRegs} {f : Nat → Yiq → Yiq} {r h : Nat} {x : Scratch}
    {e : FaultCause} (he : denoiseColumn P cfg f r h x = .error e) : e = .bounds := by
  rcases bind_error he with he | ⟨_, -, he⟩
  · exact (readCell_error he).2
  rcases bind_error he with he | ⟨_, -, he⟩
  · exact (writeCell_error he).2
  · cases he

theorem mapM_fault {α β : Type} {f : α → Except FaultCause β} (hf : ∀ a e, f a = .error e → e = .bounds) {l : List α}
    {e : FaultCause} (h : l.mapM f = .error e) : e = .bounds := by
  induction l with
  | nil => simp [pure, Except.pure] at h
  | cons a rest ih =>
    rw [List.mapM_cons] at h
    rcases bind_error h with h | ⟨_, -, h⟩
    · exact hf _ _ h
    rcases bind_error h with h | ⟨_, -, h⟩
    · exact ih h
    · cases h

theorem readLine_fault {P : Impl} {cfg : ConfigRegs} {fb : FrameBuffer} {part : Yiq → R} {r : Nat} {e : FaultCause}
    (h : readLine P cfg fb part r = .error e) : e = .bounds := by
  refine mapM_fault (fun a e' he => ?_) h
  cases hr : readCell P yiqKind fb.yiq (r : Int) (a : Int) with
  | ok v => simp [hr, Except.map] at he
  | error e'' =>
    simp only [hr, Except.map, Except.error.injEq] at he
    exact he ▸ (readCell_error hr).2

theorem ynrBody_wrote {P : Impl} {s : State} {x y : Scratch} (h : ynrBody P s x = .ok y) : WroteYiq x y := by
  refine forRange_keeps (WroteYiq x) (fun r y z _ _ hi hb => hi.trans ?_) (.refl x) h
  obtain ⟨line, -, hb⟩ := bind_ok hb
  exact forRange_keeps (WroteYiq _) (fun _ _ _ _ _ hj hc => hj.trans (denoiseColumn_wrote hc)) (.refl _) hb

/-- YNR raises nothing but `BoundsFault` (46 R201). -/
theorem ynrBody_fault {P : Impl} {s : State} {x : Scratch} {e : FaultCause} (h : ynrBody P s x = .error e) :
    e = .bounds := by
  obtain ⟨r, y, -, -, h⟩ := forRange_fault h
  rcases bind_error h with h | ⟨_, -, h⟩
  · exact readLine_fault h
  obtain ⟨c, z, -, -, h⟩ := forRange_fault h
  exact denoiseColumn_fault h

theorem cnrBody_wrote {P : Impl} {s : State} {x y : Scratch} (h : cnrBody P s x = .ok y) : WroteYiq x y := by
  refine forRange_keeps (WroteYiq x) (fun r y z _ _ hi hb => hi.trans ?_) (.refl x) h
  obtain ⟨lineI, -, hb⟩ := bind_ok hb
  obtain ⟨lineQ, -, hb⟩ := bind_ok hb
  exact forRange_keeps (WroteYiq _) (fun _ _ _ _ _ hj hc => hj.trans (denoiseColumn_wrote hc)) (.refl _) hb

/-- CNR raises nothing but `BoundsFault` (46 R202). -/
theorem cnrBody_fault {P : Impl} {s : State} {x : Scratch} {e : FaultCause} (h : cnrBody P s x = .error e) :
    e = .bounds := by
  obtain ⟨r, y, -, -, h⟩ := forRange_fault h
  rcases bind_error h with h | ⟨_, -, h⟩
  · exact readLine_fault h
  rcases bind_error h with h | ⟨_, -, h⟩
  · exact readLine_fault h
  obtain ⟨c, z, -, -, h⟩ := forRange_fault h
  exact denoiseColumn_fault h

theorem ycleanColumn_wrote {P : Impl} {r h : Nat} {x y : Scratch} (hy : ycleanColumn P r h x = .ok y) :
    WroteYiq x y := by
  obtain ⟨p, -, hy⟩ := bind_ok hy
  obtain ⟨v, -, hy⟩ := bind_ok hy
  obtain ⟨q, hq, hy⟩ := bind_ok hy
  cases hy
  exact ⟨q, x.work, rfl, writeCell_wf hq⟩

theorem ycleanBody_wrote {P : Impl} {s : State} {x y : Scratch} (h : ycleanBody P s x = .ok y) : WroteYiq x y :=
  forRange_keeps (WroteYiq x) (fun _ _ _ _ _ hi hb =>
    hi.trans (forRange_keeps (WroteYiq _) (fun _ _ _ _ _ hj hc => hj.trans (ycleanColumn_wrote hc)) (.ofWork _ _) hb))
    (.ofWork x _) h

/-- YCLEAN raises nothing but `BoundsFault` (47 R210). -/
theorem ycleanBody_fault {P : Impl} {s : State} {x : Scratch} {e : FaultCause} (h : ycleanBody P s x = .error e) :
    e = .bounds := by
  obtain ⟨r, y, -, -, h⟩ := forRange_fault h
  obtain ⟨c, z, -, -, h⟩ := forRange_fault h
  rcases bind_error h with h | ⟨_, -, h⟩
  · exact (readCell_error h).2
  rcases bind_error h with h | ⟨_, -, h⟩
  · exact (readCell_error h).2
  rcases bind_error h with h | ⟨_, -, h⟩
  · exact (writeCell_error h).2
  · cases h

/-! ### The passes over OUT: TORGB, OVERLAY -/

/-- What a pass over `OUT` may have done: `OUT` written. -/
def WroteOut (x y : Scratch) : Prop := ∃ m, y = { x with out := m } ∧ (ByteBuf.wf x.out → ByteBuf.wf m)

theorem WroteOut.trans {x y z : Scratch} (h1 : WroteOut x y) (h2 : WroteOut y z) : WroteOut x z := by
  obtain ⟨p, rfl, hp⟩ := h1
  obtain ⟨q, rfl, hq⟩ := h2
  exact ⟨q, rfl, fun h => hq (hp h)⟩

theorem WroteOut.refl (x : Scratch) : WroteOut x x := ⟨x.out, rfl, id⟩

theorem torgbColumn_wrote {P : Impl} {cfg : ConfigRegs} {r h : Nat} {x y : Scratch}
    (hy : torgbColumn P cfg r h x = .ok y) : WroteOut x y := by
  obtain ⟨v, -, hy⟩ := bind_ok hy
  obtain ⟨m0, h0, hy⟩ := bind_ok hy
  obtain ⟨m1, h1, hy⟩ := bind_ok hy
  obtain ⟨m2, h2, hy⟩ := bind_ok hy
  cases hy
  exact ⟨m2, rfl, fun hw => memWrite_wf h2 (memWrite_wf h1 (memWrite_wf h0 hw))⟩

theorem torgbBody_wrote {P : Impl} {s : State} {x y : Scratch} (h : torgbBody P s x = .ok y) : WroteOut x y :=
  forRange_keeps (WroteOut x) (fun _ _ _ _ _ hi hb =>
    hi.trans (forRange_keeps (WroteOut _) (fun _ _ _ _ _ hj hc => hj.trans (torgbColumn_wrote hc)) (.refl _) hb))
    (.refl x) h

/-- TORGB raises nothing but `BoundsFault` (47 R213). -/
theorem torgbBody_fault {P : Impl} {s : State} {x : Scratch} {e : FaultCause} (h : torgbBody P s x = .error e) :
    e = .bounds := by
  obtain ⟨r, y, -, -, h⟩ := forRange_fault h
  obtain ⟨c, z, -, -, h⟩ := forRange_fault h
  rcases bind_error h with h | ⟨_, -, h⟩
  · exact (readCell_error h).2
  rcases bind_error h with h | ⟨_, -, h⟩
  · exact (memWrite_error h).2
  rcases bind_error h with h | ⟨_, -, h⟩
  · exact (memWrite_error h).2
  rcases bind_error h with h | ⟨_, -, h⟩
  · exact (memWrite_error h).2
  · cases h

theorem tintChannel_wf {cfg : ConfigRegs} {k : R} {r h ch : Nat} {m m' : ByteBuf}
    (hy : tintChannel cfg k r h ch m = .ok m') (hm : ByteBuf.wf m) : ByteBuf.wf m' := by
  obtain ⟨old, -, hy⟩ := bind_ok hy
  exact memWrite_wf hy hm

theorem tintChannel_fault {cfg : ConfigRegs} {k : R} {r h ch : Nat} {m : ByteBuf} {e : FaultCause}
    (he : tintChannel cfg k r h ch m = .error e) : e = .bounds := by
  rcases bind_error he with he | ⟨_, -, he⟩
  · exact (memRead_error he).2
  · exact (memWrite_error he).2

theorem overlayColumn_wrote {P : Impl} {cfg : ConfigRegs} {r h : Nat} {x y : Scratch}
    (hy : overlayColumn P cfg r h x = .ok y) : WroteOut x y := by
  obtain ⟨k, -, hy⟩ := bind_ok hy
  obtain ⟨m0, h0, hy⟩ := bind_ok hy
  obtain ⟨m2, h2, hy⟩ := bind_ok hy
  cases hy
  exact ⟨m2, rfl, fun hw => tintChannel_wf h2 (tintChannel_wf h0 hw)⟩

theorem overlayBody_wrote {P : Impl} {s : State} {x y : Scratch} (h : overlayBody P s x = .ok y) : WroteOut x y :=
  forRange_keeps (WroteOut x) (fun _ _ _ _ _ hi hb =>
    hi.trans (forRange_keeps (WroteOut _) (fun _ _ _ _ _ hj hc => hj.trans (overlayColumn_wrote hc)) (.refl _) hb))
    (.refl x) h

/-- OVERLAY raises nothing but `BoundsFault` (47 R219). -/
theorem overlayBody_fault {P : Impl} {s : State} {x : Scratch} {e : FaultCause} (h : overlayBody P s x = .error e) :
    e = .bounds := by
  obtain ⟨r, y, -, -, h⟩ := forRange_fault h
  obtain ⟨c, z, -, -, h⟩ := forRange_fault h
  rcases bind_error h with h | ⟨_, -, h⟩
  · exact (readCell_error h).2
  rcases bind_error h with h | ⟨_, -, h⟩
  · exact tintChannel_fault h
  rcases bind_error h with h | ⟨_, -, h⟩
  · exact tintChannel_fault h
  · cases h

/-! ### FBINIT and MOTION -/

/-- Everything the body of FBINIT can answer (40_sequencer R125). -/
theorem fbinitBody_cases (s : State) (x : Scratch) :
    (s.active.WHT ≤ s.active.BLK ∧ fbinitBody s x = .error .calibration)
      ∨ (s.active.BLK < s.active.WHT ∧ fbinitBody s x
          = .ok { x with fb := freshFrame s.args, out := zeroFill x.out s.active.outLen }) := by
  by_cases h : s.active.WHT ≤ s.active.BLK
  · exact .inl ⟨h, by simp [fbinitBody, calibrationBad, h]⟩
  · exact .inr ⟨by omega, by simp [fbinitBody, calibrationBad, h]⟩

theorem freshFrame_wf (a : Args) : FrameBuffer.wf (freshFrame a) :=
  ⟨zeroPlane_wf _, zeroPlane_wf _, zeroPlane_wf _, zeroPlane_wf _, zeroPlane_wf _, zeroPlane_wf _⟩

theorem mapInRange_iff (P : Impl) (m : Nat → Nat → R) :
    mapInRange P m = true ↔ ∀ r c, r < P.capRows → c < P.capCols → 0 ≤ m r c ∧ m r c ≤ 1 := by
  simp only [mapInRange, List.all_eq_true, List.mem_range, Bool.and_eq_true, decide_eq_true_eq]
  exact ⟨fun h r c hr hc => h r hr c hc, fun h r hr c hc => h r c hr hc⟩

/-- Everything the check of an answered map can answer (43 R170). -/
theorem checkedMap_cases (P : Impl) (m : Nat → Nat → R) :
    (mapInRange P m = false ∧ checkedMap P m = .error .motion)
      ∨ (mapInRange P m = true ∧ checkedMap P m = .ok (planeOf (realKind .k) P.capRows P.capCols m)) := by
  cases h : mapInRange P m with
  | false => exact .inl ⟨rfl, by simp [checkedMap, h]⟩
  | true => exact .inr ⟨rfl, by simp [checkedMap, h]⟩

/-- Everything the body of MOTION can answer (43 R170). -/
theorem motionBody_cases (P : Impl) (s : State) (x : Scratch) :
    (mapInRange P (motionAnswer P s x.fb.yiq) = false ∧ motionBody P s x = .error .motion)
      ∨ (mapInRange P (motionAnswer P s x.fb.yiq) = true ∧ motionBody P s x = .ok { x with fb := { x.fb with
          k := planeOf (realKind .k) P.capRows P.capCols (motionAnswer P s x.fb.yiq) } }) := by
  rcases checkedMap_cases P (motionAnswer P s x.fb.yiq) with ⟨hr, hc⟩ | ⟨hr, hc⟩
  · exact .inl ⟨hr, by simp only [motionBody, hc]; rfl⟩
  · exact .inr ⟨hr, by simp only [motionBody, hc]; rfl⟩

/-- A value of `MOTION_EST` lies in [0, 1] (43 R172). -/
theorem unitVal_range (x : UnitReal) : 0 ≤ unitVal x ∧ unitVal x ≤ 1 := by
  have hd : (0 : R) < (x.den : R) + 1 := by positivity
  have hn : x.num % (x.den + 2) ≤ x.den + 1 := by have := Nat.mod_lt x.num (show 0 < x.den + 2 by omega); omega
  refine ⟨div_nonneg (Nat.cast_nonneg _) hd.le, (div_le_one hd).2 ?_⟩
  calc ((x.num % (x.den + 2) : Nat) : R) ≤ ((x.den + 1 : Nat) : R) := by exact_mod_cast hn
    _ = (x.den : R) + 1 := by push_cast; rfl

theorem posVal_pos (x : PosReal) : 0 < posVal x := by unfold posVal; positivity

/-- What breaks the range is outside [0, 1]. -/
theorem outOfRangeVal_range (a : OutOfRange) : outOfRangeVal a < 0 ∨ 1 < outOfRangeVal a := by
  have h := posVal_pos a.excess
  unfold outOfRangeVal
  split
  · right; linarith
  · left; linarith

/-- An estimator that is `MOTION_EST` always passes the check (43 R172). -/
theorem motionAnswer_inRange {P : Impl} {s : State} (h : s.estimate = none) (yiq : Plane Yiq) :
    mapInRange P (motionAnswer P s yiq) = true :=
  (mapInRange_iff _ _).2 fun r c _ _ => by simpa [motionAnswer, h] using unitVal_range (P.motionEst yiq s.prev r c)

/-- An answer that breaks the range never passes it (43 R170). -/
theorem motionAnswer_broken {P : Impl} {s : State} {a : OutOfRange} (h : s.estimate = some a) (hr : 0 < P.capRows)
    (hc : 0 < P.capCols) (yiq : Plane Yiq) : mapInRange P (motionAnswer P s yiq) = false := by
  refine Bool.eq_false_iff.2 fun hin => ?_
  have h01 := (mapInRange_iff _ _).1 hin _ _ (Nat.mod_lt a.row hr) (Nat.mod_lt a.col hc)
  simp only [motionAnswer, h, and_self, if_true] at h01
  rcases outOfRangeVal_range a with hv | hv <;> linarith [h01.1, h01.2]

/-! ### What `exec` of each pass is: its body in the frame of a pass -/

theorem exec_fbinit (s : State) : exec .fbinit s = runPass .fbinit keepWork fbinitBody s := rfl
theorem exec_ilace (s : State) : exec .ilace s = runPass .ilace keepWork (ilaceBody Config.impl) s := rfl
theorem exec_sep1d (s : State) :
    exec .sep1d s = runPass .sep1d (fun n w => discardFir (releaseTracker n w)) (sep1dBody Config.impl) s := rfl
theorem exec_sep2d (s : State) : exec .sep2d s = runPass .sep2d keepWork (sep2dBody Config.impl) s := rfl
theorem exec_iqcomb (s : State) :
    exec .iqcomb s = runPass .iqcomb (fun n w => releaseCombiner n (releaseTracker n w))
      (combineBody Config.impl (estimateFrom2d Config.impl)) s := rfl
theorem exec_motion (s : State) : exec .motion s = runPass .motion keepWork (motionBody Config.impl) s := rfl
theorem exec_sep3d (s : State) : exec .sep3d s = runPass .sep3d keepWork (sep3dBody Config.impl) s := rfl
theorem exec_iqmix (s : State) :
    exec .iqmix s = runPass .iqmix (fun n w => releaseCombiner n (releaseTracker n w))
      (combineBody Config.impl (estimateMixed Config.impl)) s := rfl
theorem exec_clpf (s : State) :
    exec .clpf s = runPass .clpf (fun n w => discardFir (releaseLowPass n w)) (clpfBody Config.impl) s := rfl
theorem exec_ynr (s : State) : exec .ynr s = runPass .ynr keepWork (ynrBody Config.impl) s := rfl
theorem exec_cnr (s : State) : exec .cnr s = runPass .cnr keepWork (cnrBody Config.impl) s := rfl
theorem exec_yclean (s : State) : exec .yclean s = runPass .yclean releaseTracker (ycleanBody Config.impl) s := rfl
theorem exec_torgb (s : State) : exec .torgb s = runPass .torgb keepWork (torgbBody Config.impl) s := rfl
theorem exec_overlay (s : State) : exec .overlay s = runPass .overlay keepWork (overlayBody Config.impl) s := rfl

end Sys2Proof.Laws
end

