-- ==== Sys2Proof/Laws/PerInstr.lean ====
section
/-! SUPPORT. The family of statements made once per instruction: its encoding is legal and decodes to it (30_encoding R92,
R93, R96, R97). -/

namespace Sys2Proof.Laws.EncodesAndDecodes

/-- The encoding of `i` is a legal word, and the decoder reads `i` from it. -/
def Statement (i : Instr) : Prop := (encode i).wellFormed = true ∧ decode (encode i) = .ok i

theorem nop : Statement .nop := ⟨by decide, rfl⟩
theorem config : Statement .config := ⟨by decide, rfl⟩
theorem decode : Statement .decode := ⟨by decide, rfl⟩
theorem resetprev : Statement .resetprev := ⟨by decide, rfl⟩
theorem fbinit : Statement .fbinit := ⟨by decide, rfl⟩
theorem ilace : Statement .ilace := ⟨by decide, rfl⟩
theorem sep1d : Statement .sep1d := ⟨by decide, rfl⟩
theorem sep2d : Statement .sep2d := ⟨by decide, rfl⟩
theorem iqcomb : Statement .iqcomb := ⟨by decide, rfl⟩
theorem motion : Statement .motion := ⟨by decide, rfl⟩
theorem sep3d : Statement .sep3d := ⟨by decide, rfl⟩
theorem iqmix : Statement .iqmix := ⟨by decide, rfl⟩
theorem clpf : Statement .clpf := ⟨by decide, rfl⟩
theorem ynr : Statement .ynr := ⟨by decide, rfl⟩
theorem cnr : Statement .cnr := ⟨by decide, rfl⟩
theorem yclean : Statement .yclean := ⟨by decide, rfl⟩
theorem torgb : Statement .torgb := ⟨by decide, rfl⟩
theorem overlay : Statement .overlay := ⟨by decide, rfl⟩
theorem storeprev : Statement .storeprev := ⟨by decide, rfl⟩

end Sys2Proof.Laws.EncodesAndDecodes
end

