-- ==== Sys2Proof/Tests/Slice0.lean ====
section
/-! SUPPORT. Tests of the model: words written out from 30_encoding, the vectors of 95_test_vectors on small states, and
for every statement with hypotheses a concrete state and operands that meet them. Expected values are the spec's. -/

namespace Sys2Proof.Tests

-- One theorem at a time: many small kernel evaluations at once would each hold a thread's memory.
set_option Elab.async false

open Sys2Proof Sys2Proof.Machine Sys2Proof.Safety Sys2Proof.Reference

/-! ### Helpers -/

/-- The parameter set TC0 (95, section 0), with the tap lists given. -/
def tc0 (tapsI tapsQ : Taps) : Impl :=
  { Config.impl with
    fir1dI := tapsI, fir1dQ := tapsQ, firlpI := tapsI, firlpQ := tapsQ
    ynrFactor := ⟨1, 0⟩, cgain := fun _ _ _ _ => 1
    resY := fun line j => if line.length = 4 then [0, 100, -100, 900].getD j 0 else 0
    resC := fun _ _ => 9
    mRgb := ⟨956 / 1000, 621 / 1000, -272 / 1000, -647 / 1000, -1106 / 1000, 1703 / 1000⟩ }

/-- One tap `[1]`. -/
def one : Taps := ⟨1, []⟩
/-- `[1/4, 1/2, 1/4]`. -/
def threeTaps : Taps := ⟨1 / 4, [1 / 2, 1 / 4]⟩

/-- The small configuration CS (95, section 0) with the given mode flags. -/
def cs (mode : BitVec 6) : ConfigRegs := ⟨32, 5, 16, 24, 2, 16384, 51384, mode⟩

/-- One visible line, row 0 of a one-line frame of 32 columns, window `[avs, ave)`. -/
def oneLine (avs ave : BitVec 16) : ConfigRegs := ⟨32, 1, avs, ave, 0, 16384, 51384, 2⟩

/-- A BUSY block with configuration `c`, field lengths of CS, at a stage. -/
def busyAt (c : ConfigRegs) (code : StageCode) : State :=
  { State.reset with
    status := ⟨.busy, true, false, false, false, false, none, 0⟩
    shadow := c, active := c, args := ⟨1, 1, 1, 320, 256⟩, seq := code }

/-- An IDLE block with configuration `c` and host actions to come. -/
def idleWith (c : ConfigRegs) (host : List HostAction) : State :=
  { State.reset with
    status := ⟨.idle, true, false, false, false, false, none, 0⟩
    shadow := c, active := c, args := ⟨1, 1, 1, 320, 256⟩, host := host }

/-- A FAULTED block with host actions to come. -/
def faultedWith (host : List HostAction) : State :=
  { State.reset with status := ⟨.faulted, true, false, false, false, false, some .bounds, 0x11⟩, host := host }

/-- The next state of an outcome. -/
def nextOf : Host.Outcome State Machine.Fault Refusal → Option State
  | .next t => some t
  | _ => none

/-- A row of a plane, from a column on. -/
def rowOf {α : Type} (r c : Nat) (vs : List α) : Plane α := ⟨none, vs.mapIdx fun j v => ((r, c + j), v)⟩

/-- What a body leaves in some columns of a row. -/
def readBack {α : Type} (x : Except FaultCause Scratch) (f : FrameBuffer → Nat → Nat → α) (r : Nat) (cols : List Nat) :
    Option (List α) :=
  match x with
  | .ok y => some (cols.map (f y.fb r))
  | .error _ => none

/-- A scratch state over a FrameBuffer. -/
def scratchOf (fb : FrameBuffer) : Scratch := ⟨fb, ⟨0, []⟩, .zero⟩

/-! ### Well-formedness (30_encoding R96; 95 V-ENC5 to V-ENC7) -/

theorem test_wf_legal : legalCommandWord 0x00000003#32 = true := by decide
theorem test_wf_opcode : legalCommandWord 0x00000004#32 = false := by decide
theorem test_wf_zero_field : legalCommandWord 0x00000102#32 = false := by decide
theorem test_wf_top_bit : legalCommandWord 0x80000002#32 = false := by decide
theorem test_wf_stage_low : legalStageCode 0x0F#8 = false := by decide
theorem test_wf_stage_high : legalStageCode 0x1F#8 = false := by decide
theorem test_wf_stage_idle : (OpWord.uop 0x00#8).wellFormed = false := by decide
theorem test_wf_stage_word : (OpWord.cmd 0x00000010#32).wellFormed = false := by decide

/-! ### Decoding: the words of 30_encoding R92 and R93, written out -/

theorem test_decode_nop : decodeCommand 0b00000000000000000000000000000000#32 = .ok .nop := by decide
theorem test_decode_config : decodeCommand 0b00000000000000000000000000000001#32 = .ok .config := by decide
theorem test_decode_decode : decodeCommand 0b00000000000000000000000000000010#32 = .ok .decode := by decide
theorem test_decode_resetprev : decodeCommand 0b00000000000000000000000000000011#32 = .ok .resetprev := by decide
theorem test_decode_fbinit : decodeStage 0b00010000#8 = .ok .fbinit := by decide
theorem test_decode_ilace : decodeStage 0b00010001#8 = .ok .ilace := by decide
theorem test_decode_sep1d : decodeStage 0b00010010#8 = .ok .sep1d := by decide
theorem test_decode_sep2d : decodeStage 0b00010011#8 = .ok .sep2d := by decide
theorem test_decode_iqcomb : decodeStage 0b00010100#8 = .ok .iqcomb := by decide
theorem test_decode_motion : decodeStage 0b00010101#8 = .ok .motion := by decide
theorem test_decode_sep3d : decodeStage 0b00010110#8 = .ok .sep3d := by decide
theorem test_decode_iqmix : decodeStage 0b00010111#8 = .ok .iqmix := by decide
theorem test_decode_clpf : decodeStage 0b00011000#8 = .ok .clpf := by decide
theorem test_decode_ynr : decodeStage 0b00011001#8 = .ok .ynr := by decide
theorem test_decode_cnr : decodeStage 0b00011010#8 = .ok .cnr := by decide
theorem test_decode_yclean : decodeStage 0b00011011#8 = .ok .yclean := by decide
theorem test_decode_torgb : decodeStage 0b00011100#8 = .ok .torgb := by decide
theorem test_decode_overlay : decodeStage 0b00011101#8 = .ok .overlay := by decide
theorem test_decode_storeprev : decodeStage 0b00011110#8 = .ok .storeprev := by decide
theorem test_decode_rejects_command : decodeCommand 0xFFFFFFFF#32 = .error (.illegalCommand 0xFFFFFFFF#32) := by decide
theorem test_decode_rejects_stage : decodeStage 0x1F#8 = .error (.unassignedStage 0x1F#8) := by decide

theorem test_table_command : decodeTableWord 32 2 = some .decode := by decide
theorem test_table_stage : decodeTableWord 8 0x1C = some .torgb := by decide
theorem test_fetch_command :
    step (State.reset.withFetchWord 32 3) = .next { State.reset with prev := zeroFrame } := rfl
theorem test_fetch_stage : step (State.reset.withFetchWord 8 0x1E) = exec .storeprev (State.reset.withFetchWord 8 0x1E) := rfl

/-! ### Registers and commands (95, 2.1 to 2.3) -/

/-- V-REG1 to V-REG3, V-REG6. -/
theorem test_registers :
    readReg (writeReg State.reset 0x12345678 0x02) 0x02 = .word 0x5678
    ∧ readReg (writeReg State.reset 0xFFFFFFFF 0x09) 0x09 = .word 0x3F
    ∧ readReg (writeReg State.reset 0x104 0x0A) 0x0A = .word 4
    ∧ readReg (writeReg State.reset 0xFFFFFFFF 0x11) 0x11 = .word 0 := by decide

/-- V-CFG1, V-CFG5: `OUTLEN` and `FRAMEH`. -/
theorem test_outlen : readReg (busyAt (cs 2) 0x10) 0x0F = .word 1728 ∧ readReg (busyAt (cs 2) 0x10) 0x10 = .word 9 := by
  decide

/-- 70 R270: after a DECODE under CS, a byte of its frame stays readable under a smaller committed configuration. -/
theorem test_out_stays_valid :
    (nextOf (step { idleWith { cs 2 with fw := 1 } [.getOut 1727] with
        mem := ⟨⟨0, []⟩, ⟨0, []⟩, setByte ⟨0, []⟩ 1727 0x5A⟩ })).map (fun t => t.answer) = some (.byte 0x5A) := by decide
/-- V-F1. -/
theorem test_decode_unconfigured :
    (nextOf (exec .decode State.reset)).map (fun t => statusWord t.status) = some 0x00000202 := by decide
/-- V-F2. -/
theorem test_illegal_command :
    (nextOf (step (idleWith (cs 2) [.wr 0 4]))).map (fun t => statusWord t.status) = some 0x00000106 := by decide
/-- V-CFG3. -/
theorem test_config_warns :
    (nextOf (exec .config { State.reset with shadow := ⟨911, 264, 15, 24, 2, 16384, 51384, 2⟩ })).map
      (fun t => (statusWord t.status, t.log.map fun e => (warningCode e.warning, e.value)))
      = some (0x00000074, [(1, 911), (2, 527), (3, 15)]) := by decide
/-- V-CFG2: all three at their limits. -/
theorem test_config_at_limits :
    (nextOf (exec .config { State.reset with shadow := ⟨910, 263, 16, 24, 2, 16384, 51384, 2⟩ })).map
      (fun t => (statusWord t.status, t.log)) = some (0x00000004, []) := by decide
/-- 40_sequencer R120: NOP keeps `DONE`. -/
theorem test_nop :
    (nextOf (exec .nop { State.reset with status := ⟨.idle, true, true, false, false, false, none, 0⟩ })).map
      (fun t => statusWord t.status) = some 0x0000000C := by decide
/-- 40_sequencer R123. -/
theorem test_resetprev :
    (nextOf (exec .resetprev { State.reset with prev := { zeroFrame with raw := rowOf 0 0 [7#16], burst := 3 } })).map
      (fun t => t.prev) = some zeroFrame := by decide

/-! ### Passes (95, 2.3 to 2.14) -/

/-- V-F3. -/
theorem test_fbinit_calibration :
    (nextOf (exec .fbinit (busyAt { cs 2 with wht := 16384 } 0x10))).map (fun t => statusWord t.status)
      = some 0x00100306 := by decide
/-- 40_sequencer R125: the arguments are latched, the next stage is ILACE. -/
theorem test_fbinit :
    (nextOf (exec .fbinit (busyAt (cs 2) 0x10))).map (fun t => (t.fb.ph1, t.fb.burst, t.seq)) = some (1, 1, 0x11) := by
  decide +kernel

/-- V-IL2. -/
theorem test_ilace :
    readBack (ilaceBody Config.impl
        { State.reset with
          active := ⟨4, 2, 0, 0, 0, 0, 0, 0⟩, args := ⟨0, 0, 0, 16, 8⟩
          mem := ⟨setBytes ⟨0, []⟩ 0 [1, 0, 2, 0, 3, 0, 4, 0, 5, 0, 6, 0, 7, 0, 0x34, 0x12],
            setBytes ⟨0, []⟩ 0 [101, 0, 102, 0, 103, 0, 0xCD, 0xAB], ⟨0, []⟩⟩ }
        (scratchOf zeroFrame))
      (fun fb r c => [(cellAt rawKind fb.raw r c).toNat, (cellAt rawKind fb.raw (r + 1) c).toNat,
        (cellAt rawKind fb.raw (r + 2) c).toNat]) 0 [0, 3]
      = some [[1, 101, 5], [4, 43981, 4660]] := by decide +kernel

/-- The line of 95, 2.6. -/
def line1d : FrameBuffer :=
  { zeroFrame with raw := rowOf 0 14 [30000, 30000, 31000, 30600, 29000, 29400, 31000, 30600, 29000, 29400, 31000, 30600] }

/-- V-1D2. -/
theorem test_sep1d :
    readBack (sep1dBody (tc0 threeTaps ⟨1 / 2, [1 / 2]⟩) (busyAt (oneLine 16 24) 0x12) (scratchOf line1d)) c1d 0
      [16, 17, 18, 19, 20, 21, 22, 23] = some [-375, -450, 1250, 1050, -1875, -1200, 2000, 1200] := by decide +kernel
/-- V-1D1. -/
theorem test_sep1d_one_tap :
    readBack (sep1dBody (tc0 one one) (busyAt (oneLine 16 24) 0x12) (scratchOf { line1d with ph1 := 2 })) c1d 0
      [16, 17, 18, 23] = some [-1500, -900, 2000, 1200] := by decide +kernel

/-- V-2D1, V-2D2, V-2D4, V-2D5, V-2D7, V-2D9, V-2D10, V-2D13, V-2D14. -/
theorem test_estimate2d :
    estimate2d 350 2000 (-1200) (-2000) 1200 (-2000) 1200 = 1000
    ∧ estimate2d 350 2000 (-1200) (-2000) 1200 9000 9000 = 1000
    ∧ estimate2d 350 2000 (-1200) 30000 30000 30000 30000 = -7000
    ∧ estimate2d 350 1000 0 (-8975) 0 (-1000) 0 = 13975 / 12
    ∧ estimate2d 350 1000 0 (-10075 / 2) 0 (-25825 / 2) 0 = 32025 / 16
    ∧ estimate2d 350 0 0 30000 0 20000 0 = -6250 ∧ estimate2d 350 0 0 30000 0 19999 0 = 0
    ∧ estimate2d 350 2000 0 0 0 0 0 = 500 ∧ estimate2d 350 2000 (-1200) (-2000) 1200 0 0 = 123250 / 159 := by
  decide +kernel
/-- 42 R166: under CS rows 4 to 7 are written, from rows `r − 2` and `r + 2` (V-2D13). -/
theorem test_sep2d_rows :
    readBack (sep2dBody Config.impl (busyAt { cs 2 with ave := 17 } 0x13)
      (scratchOf { zeroFrame with c1d := ⟨none, [((3, 16), 2000), ((4, 16), 2000), ((7, 16), 2000), ((8, 16), 2000)]⟩ }))
      (fun fb r c => [c2d fb r c, c2d fb (r + 1) c, c2d fb (r + 4) c, c2d fb (r + 5) c]) 3 [16]
      = some [[0, 500, 500, 0]] := by decide +kernel

/-- Phase ID 2 clears the inversion flag of row 0 at its first visit. -/
def signPlus (c2d : List R) : FrameBuffer := { zeroFrame with c2d := rowOf 0 16 c2d, ph1 := 2 }

/-- V-IQ1. -/
theorem test_iqcomb :
    readBack (combineBody Config.impl (estimateFrom2d Config.impl) (busyAt (oneLine 16 24) 0x14)
      (scratchOf (signPlus [1000, 600, -1000, -600, 1000, 600, -1000, -600]))) (fun fb r c => ((yiq fb r c).i, (yiq fb r c).q)) 0
      [16, 17, 18, 23] = some [(0, 1000), (-600, 1000), (-600, 1000), (-600, 1000)] := by decide +kernel
/-- V-IQ6 with the line sign −1. -/
theorem test_iqcomb_odd_start :
    readBack (combineBody Config.impl (estimateFrom2d Config.impl) (busyAt (oneLine 17 19) 0x14)
      (scratchOf { signPlus [0, 5, 7] with ph1 := 1 })) (fun fb r c => ((yiq fb r c).i, (yiq fb r c).q)) 0
      [17, 18] = some [(5, 0), (5, 7)] := by decide +kernel
/-- V-IQ3. -/
theorem test_iqmix :
    readBack (combineBody Config.impl (estimateMixed Config.impl) (busyAt (oneLine 16 24) 0x17)
      (scratchOf { signPlus [1000, 600, -1000, -600, 1000, 600, -1000, -600] with
        c3d := rowOf 0 16 [800, 800, -800, -800, 400, 400, -400, -400]
        k := rowOf 0 16 [0, 1, 1 / 4, 1 / 2, 1 / 4, 3 / 4, 1, 0], ph1 := 1 }))
      (fun fb r c => ((yiq fb r c).i, (yiq fb r c).q)) 0 [16, 17, 18, 19, 20, 21, 22, 23]
      = some [(0, -800), (600, -800), (600, -850), (700, -850), (700, -550), (550, -550), (550, -1000), (400, -1000)] := by
  decide +kernel

/-- V-3D6, V-3D7, on a plane of two rows and two columns: maps in range, a value over 1, a value under 0. -/
theorem test_motion_check :
    let P := { Config.impl with capRows := 2, capCols := 2 }
    ((checkedMap P fun r c => if r = c then 1 / 4 else 1).toOption.map fun k => (cellAt (realKind .k) k 0 0, cellAt (realKind .k) k 0 1))
      = some (1 / 4, 1)
    ∧ checkedMap P (fun r c => if r = 1 ∧ c = 1 then 101 / 100 else 0) = .error .motion
    ∧ checkedMap P (fun r c => if r = 1 ∧ c = 0 then -1 / 100 else 0) = .error .motion := by decide +kernel
/-- V-F10: 3/2 in some cell, and −1/100 in one. -/
theorem test_motion_fault :
    outOfRangeVal ⟨7, 9, true, ⟨0, 1⟩⟩ = 3 / 2 ∧ outOfRangeVal ⟨7, 9, false, ⟨0, 99⟩⟩ = -1 / 100
    ∧ (motionBody { Config.impl with capRows := 2, capCols := 2, motionEst := fun _ _ _ _ => ⟨1, 3⟩ }
        { busyAt (cs 0x12) 0x15 with estimate := some ⟨7, 9, true, ⟨0, 1⟩⟩ } (scratchOf zeroFrame)).toOption = none := by
  decide +kernel
/-- V-3D1, V-3D2, V-3D3, V-3D5. -/
theorem test_sep3d :
    readBack (sep3dBody Config.impl
        { busyAt (oneLine 16 20) 0x16 with prev := { zeroFrame with raw := rowOf 0 16 [29000, 30001, 0, 65535] } }
        (scratchOf { zeroFrame with raw := rowOf 0 16 [31000, 30000, 31000, 0] })) c3d 0 [16, 17, 18, 19]
      = some [-1000, 1 / 2, -15500, 65535 / 2] := by decide +kernel

/-- V-LP2. -/
theorem test_clpf_odd_start :
    readBack (clpfBody (tc0 one one) (busyAt (oneLine 17 23) 0x18)
      (scratchOf { zeroFrame with yiq := rowOf 0 17 [⟨1, 11, 21⟩, ⟨2, 12, 22⟩, ⟨3, 13, 23⟩, ⟨4, 14, 24⟩, ⟨5, 15, 25⟩, ⟨6, 16, 26⟩] }))
      (fun fb r c => ((yiq fb r c).i, (yiq fb r c).q)) 0 [15, 16, 17, 18, 19, 20, 21, 22]
      = some [(0, 21), (12, 21), (12, 23), (14, 23), (14, 25), (16, 25), (15, 25), (16, 26)] := by decide +kernel
/-- V-LP1, and V-LP5 on the first column. -/
theorem test_clpf :
    readBack (clpfBody (tc0 threeTaps threeTaps) (busyAt (oneLine 16 24) 0x18)
      (scratchOf { zeroFrame with yiq := rowOf 0 16 [⟨5, 0, 1000⟩, ⟨0, -600, 1000⟩, ⟨0, -600, 1000⟩, ⟨0, -600, 1000⟩,
        ⟨0, -600, -1000⟩, ⟨0, 600, -1000⟩, ⟨0, 600, -1000⟩, ⟨0, 600, -1000⟩] })) yiq 0 [14, 15, 16, 18, 21, 22]
      = some [⟨0, 0, 0⟩, ⟨0, 0, 250⟩, ⟨5, -150, 250⟩, ⟨0, -450, 750⟩, ⟨0, -300, -500⟩, ⟨0, 600, -1000⟩] := by
  decide +kernel

/-- V-NR1. -/
theorem test_ynr :
    readBack (ynrBody (tc0 one one) (busyAt (oneLine 16 20) 0x19)
      (scratchOf { zeroFrame with yiq := rowOf 0 16 [⟨30000, 1, 2⟩, ⟨30100, 0, 0⟩, ⟨29900, 0, 0⟩, ⟨31000, 0, 0⟩] })) yiq 0
      [16, 17, 18, 19] = some [⟨30000, 1, 2⟩, ⟨30000, 0, 0⟩, ⟨30000, 0, 0⟩, ⟨30650, 0, 0⟩] := by decide +kernel
/-- V-NR4. -/
theorem test_cnr :
    readBack (cnrBody (tc0 one one) (busyAt (oneLine 16 18) 0x1A)
      (scratchOf { zeroFrame with yiq := rowOf 0 16 [⟨1, 11, 21⟩, ⟨2, 12, 22⟩] })) yiq 0 [16, 17]
      = some [⟨1, 11, 21⟩, ⟨2, 12, 22⟩] := by decide +kernel

/-- V-YC4 at column 17; V-YC1 at columns 16 and 18 (line sign +1). -/
theorem test_yclean :
    readBack (ycleanBody Config.impl (busyAt (oneLine 16 24) 0x1B)
      (scratchOf { zeroFrame with ph1 := 2, yiq := rowOf 0 16 [⟨31000, 0, -1000⟩, ⟨30150, 600, -1000⟩, ⟨29000, 600, -1000⟩,
        ⟨29400, 450, 0⟩, ⟨0, 0, -1000⟩] })) (fun fb r c => (yiq fb r c).y) 0 [16, 17, 18]
      = some [30000, 29700, 30000] := by decide +kernel

/-- The 16-bit value of a channel of a pixel of `OUT` that a body leaves. -/
def channelAt (x : Except FaultCause Scratch) (fw r h ch : Nat) : Option Nat :=
  match x with
  | .ok y => some (wordAt .out y.out (outAddr fw r h ch)).toNat
  | .error _ => none

/-- V-RGB1, V-RGB6. -/
theorem test_torgb :
    let x := torgbBody (tc0 one one) (busyAt (oneLine 16 18) 0x1C)
      (scratchOf { zeroFrame with yiq := rowOf 0 16 [⟨30000, -600, 1000⟩, ⟨20000, 5000, -5000⟩] })
    [channelAt x 32 0 16 0, channelAt x 32 0 16 1, channelAt x 32 0 16 2, channelAt x 32 0 17 0, channelAt x 32 0 17 1,
      channelAt x 32 0 17 2] = [some 25542, some 25011, some 27861, some 8445, some 8645, some 0] := by decide +kernel
/-- V-RGB8; V-RGB10, V-OUT1: addresses. -/
theorem test_torgb_mono :
    channelAt (torgbBody (tc0 one one) (busyAt { oneLine 16 17 with mode := 3 } 0x1C)
      (scratchOf { zeroFrame with yiq := rowOf 0 16 [⟨30000, 600, -1000⟩] })) 32 0 16 2 = some 25494
    ∧ outAddr 32 2 16 0 = 2 * 246 ∧ outAddr 32 4 17 0 = 882 := by decide +kernel
/-- V-OV1, V-OV4, V-OV5. -/
theorem test_overlay :
    tinted (1 / 4) 25447 = 41830 ∧ tinted (1 / 4) 60000 = 65535 ∧ tinted (1 / 3) 0 = 21845
    ∧ tinted (1 / 65535) 0 = 1 ∧ tinted 1 7 = 65535 := by decide +kernel
/-- V-OV1 in `OUT`: red and blue tinted, green kept. -/
theorem test_overlay_channels :
    let x := overlayBody Config.impl (busyAt (oneLine 16 17) 0x1D)
      ⟨{ zeroFrame with k := rowOf 0 16 [1 / 4] }, setBytes ⟨0, []⟩ 108 [0x67, 0x63, 0x7A, 0x65, 0x58, 0x5A], .zero⟩
    [channelAt x 32 0 16 0, channelAt x 32 0 16 1, channelAt x 32 0 16 2] = [some 41830, some 25978, some 39511] := by
  decide +kernel
/-- 40_sequencer R127. -/
theorem test_storeprev :
    (nextOf (exec .storeprev { busyAt (cs 0x12) 0x1E with fb := line1d })).map (fun t => (t.prev, statusWord t.status))
      = some (line1d, 0x0000000C) := by decide +kernel

/-- V-TR1, V-TR4 (rows 3 to 6), V-TR6. -/
theorem test_tracker :
    [2, 3, 4, 5, 6, 7, 8].map (inversionAt 2 1 1) = [true, false, false, true, true, false, false]
    ∧ [3, 4, 5, 6].map (inversionAt 3 3 4) = [false, false, true, true]
    ∧ (trackerVisit 3 (trackerVisit 2 (trackerInit { zeroFrame with ph1 := 1, ph2 := 1 } .zero))).inv = false
    ∧ [2, 3, 4, 5].map (inversionAt 2 0 7) = [true, true, false, false] := by decide +kernel

/-- V-F4, V-F7: the passes that fault, by cause. -/
theorem test_bounds :
    (ilaceBody Config.impl { busyAt (cs 2) 0x11 with args := ⟨1, 1, 1, 0, 256⟩ } (scratchOf zeroFrame)).toOption = none
    ∧ (sep1dBody (tc0 one one) (busyAt { oneLine 28 31 with fw := 32 } 0x12) (scratchOf line1d)).toOption = none := by
  decide +kernel

/-! ### Witnesses: for each statement with hypotheses, what meets them -/

theorem witness_EncodedOperationDecodesToItself : Instr.decode.wellFormed = true := rfl
theorem witness_LegalWordsAreExactlyTheEncodings :
    legalCommandWord 0x00000004#32 = false ∧ legalStageCode 0x0F#8 = false ∧ legalStageCode 0x1F#8 = false := by decide
theorem witness_BusyStepRunsThePassInSeq :
    (busyAt (cs 2) 0x10).status.run = .busy ∧ decodeStage (busyAt (cs 2) 0x10).seq = .ok .fbinit
    ∧ decodeStage (busyAt (cs 2) 0x1E).seq = .ok .storeprev ∧ Instr.fbinit.wellFormed = true := by decide
theorem witness_IdleStepIssuesTheCommand :
    (idleWith (cs 2) [.wr 0 3, .rd 1]).status.run = .idle ∧ (idleWith (cs 2) [.wr 0 3, .rd 1]).host = .wr 0 3 :: [.rd 1]
    ∧ decodeCommand 3 = .ok .resetprev ∧ Instr.resetprev.wellFormed = true := by decide
theorem witness_IllegalWordRaisesIllegalCommand :
    (idleWith (cs 2) [.wr 0 4]).status.run = .idle ∧ (idleWith (cs 2) [.wr 0 4]).host = .wr 0 4 :: []
    ∧ legalCommandWord 4 = false := by decide
theorem witness_DecodeStartsTheSequence : (idleWith (cs 2) []).status.configured = true := rfl
theorem witness_DecodeBeforeConfigRaisesNotConfigured : State.reset.status.configured = false := rfl
theorem witness_FbinitBuildsAFreshFrame : (busyAt (cs 2) 0x10).active.BLK < (busyAt (cs 2) 0x10).active.WHT := by decide
/-- `WHT = BLK`, the boundary. -/
theorem witness_FbinitRaisesCalibrationFault :
    (busyAt { cs 2 with wht := 16384 } 0x10).active.WHT ≤ (busyAt { cs 2 with wht := 16384 } 0x10).active.BLK := by decide

/-- The conditions of 20_memory R68 hold of CS, in which every clause about a pixel has its rows and columns: the first
and last visible, active pixels, and the ones just outside (rows 4 and 7 are the first and last of SEP2D). -/
theorem witness_BoundsFree : BoundsFree Config.impl (busyAt (cs 2) 0x11) := by decide
/-- With a window that ends at the last column R68 allows, a height and lengths at their bounds. -/
theorem witness_BoundsFree_at_limits :
    BoundsFree Config.impl { busyAt ⟨910, 263, 2, 908, 524, 0, 1, 0⟩ 0x11 with args := ⟨0, 0, 0, 478660, 476840⟩ } := by
  decide
theorem witness_pixels_in : (visible (cs 2) 2 ∧ activeCol (cs 2) 16) ∧ (visible (cs 2) 8 ∧ activeCol (cs 2) 23) := by
  unfold visible activeCol; decide
theorem witness_pixels_out : ¬ (visible (cs 2) 1 ∧ activeCol (cs 2) 16) ∧ ¬ (visible (cs 2) 9 ∧ activeCol (cs 2) 16)
    ∧ ¬ (visible (cs 2) 8 ∧ activeCol (cs 2) 15) ∧ ¬ (visible (cs 2) 8 ∧ activeCol (cs 2) 24) := by
  unfold visible activeCol; decide

theorem witness_IlaceInterlacesTheFields :
    BoundsFree Config.impl (busyAt (cs 2) 0x11) ∧ ((8 : Int) < (cs 2).FRH ∧ 31 < (cs 2).FW)
    ∧ ¬ ((9 : Int) < (cs 2).FRH ∧ 31 < (cs 2).FW) ∧ ¬ ((8 : Int) < (cs 2).FRH ∧ 32 < (cs 2).FW) := by decide
/-- V-F4 and V-F5: one sample short in the first, in the second field; V-F9: a column, then a row, beyond the capacity. -/
theorem witness_IlaceRaisesBoundsFault :
    (0 < (cs 2).FW ∧ 0 < (cs 2).FH ∧ (318#32).toNat < 2 * (cs 2).FW * (cs 2).FH)
    ∧ (0 < (cs 2).FW ∧ 1 < (cs 2).FH ∧ (254#32).toNat < 2 * (cs 2).FW * ((cs 2).FH - 1))
    ∧ (0 < { cs 2 with fw := 911 }.FH ∧ 910 < { cs 2 with fw := 911 }.FW)
    ∧ (0 < { cs 2 with fh := 264 }.FW ∧ 526 < { cs 2 with fh := 264 }.FRH) := by decide
theorem witness_TrackerHasTheClosedForm : (2 : Nat) ≤ 2 ∧ (2 : Nat) ≤ 3 := by decide
theorem witness_FirFeedIsConvolution : (freshFir threeTaps).length = (tapCoeffs threeTaps).length := by decide
theorem witness_Sep1dFiltersTheRoutedSamples : BoundsFree Config.impl (busyAt (cs 2) 0x12) := by decide
/-- V-F8 (`AVS = 1`) and V-F7 (`AVE = 31`). -/
theorem witness_Sep1dRaisesBoundsFault :
    ((cs 2).FVL : Int) < (cs 2).FRH
    ∧ ({ cs 2 with avs := 1 }.AVS < { cs 2 with avs := 1 }.AVE ∧ { cs 2 with avs := 1 }.AVS < 2)
    ∧ ({ cs 2 with ave := 31 }.AVS < { cs 2 with ave := 31 }.AVE ∧ { cs 2 with ave := 31 }.FW < { cs 2 with ave := 31 }.AVE + 2) := by
  decide
theorem witness_Sep1dIgnoresTheInversionState :
    ∃ y, sep1dBody (tc0 one one) (busyAt (oneLine 16 24) 0x12) (scratchOf line1d) = .ok y :=
  match h : sep1dBody (tc0 one one) (busyAt (oneLine 16 24) 0x12) (scratchOf line1d) with
  | .ok y => ⟨y, rfl⟩
  | .error e => absurd (congrArg (fun x : Except FaultCause Scratch => x.toOption.isSome) h) (by
      change ¬ ((sep1dBody (tc0 one one) (busyAt (oneLine 16 24) 0x12) (scratchOf line1d)).toOption.isSome = false)
      decide +kernel)
/-- Every clause of the weight: `d` at 0, between, and at `45·IRES = 15750`. -/
theorem witness_WeightFallsLinearlyFromOneToZero :
    (0 : R) < 350 ∧ (0 : R) ≤ 0 ∧ (45 * 350 : R) ≤ 15750 ∧ ((0 : R) ≤ 14480 ∧ (14480 : R) ≤ 45 * 350) := by norm_num
/-- Every clause of the tie-break, at its boundary: weights 0 and 1, 1/4 and 3/4 (exactly three times), 0 and 0 with the
agreement test at equality (V-2D9) and just beyond it (V-2D10). -/
theorem witness_TieBreakFollowsItsCases :
    (3 * 0 < (1 : R)) ∧ ((0 : R) < 1 / 4 + 3 / 4 ∧ (1 / 4 : R) ≤ 3 * (3 / 4) ∧ (3 / 4 : R) ≤ 3 * (1 / 4))
    ∧ |(|(30000 : R)| - |(20000 : R)|)| ≤ |(30000 + 20000 : R)| / 5
    ∧ |(30000 + 19999 : R)| / 5 < |(|(30000 : R)| - |(19999 : R)|)| := by norm_num
/-- V-2D1: an ideal stationary colour, both weights 1. -/
theorem witness_Estimate2dFollowsItsFormula : (-2000 : R) = -2000 ∧ lineWeight 350 (-320) = 1 := by decide +kernel
theorem witness_Sep2dCombinesNeighbourLines :
    BoundsFree Config.impl (busyAt (cs 2) 0x13)
    ∧ ((cs 2).FVL ≤ 4 ∧ ((7 : Nat) : Int) < (cs 2).FRH - 1) ∧ ¬ (4 ≤ 3) ∧ ¬ (((8 : Nat) : Int) < (cs 2).FRH - 1) := by
  decide
theorem witness_IqcombDemodulatesThe2dEstimate : BoundsFree Config.impl (busyAt (cs 2) 0x14) := by decide
theorem witness_IqmixBlendsByTheMotionMap : BoundsFree Config.impl (busyAt (cs 0x12) 0x17) := by decide
theorem witness_MotionStoresTheEstimatorsMap : (busyAt (cs 0x12) 0x15).estimate = none := rfl
/-- Maps of zeros and of ones, one whose last cell is 101/100 (V-3D7), and a state whose estimator breaks the range. -/
theorem witness_MotionChecksTheAnsweredMap :
    (∀ r c : Nat, r < 526 → c < 910 → (0 : R) ≤ (fun _ _ => 0 : Nat → Nat → R) r c ∧ (fun _ _ => 1 : Nat → Nat → R) r c ≤ 1)
    ∧ 1 < (fun r c => if r = 525 ∧ c = 909 then 101 / 100 else 0 : Nat → Nat → R) 525 909
    ∧ { busyAt (cs 0x12) 0x15 with estimate := some ⟨0, 0, true, ⟨0, 1⟩⟩ }.estimate = some ⟨0, 0, true, ⟨0, 1⟩⟩ :=
  ⟨fun _ _ _ _ => by norm_num, by norm_num, rfl⟩
theorem witness_Sep3dHalvesTheFrameDifference : BoundsFree Config.impl (busyAt (cs 0x12) 0x16) := by decide
theorem witness_FirstFrame3dIsMinusHalfTheSample :
    BoundsFree Config.impl (busyAt (cs 0x12) 0x16) ∧ (busyAt (cs 0x12) 0x16).prev = zeroFrame := by decide
theorem witness_ClpfFiltersChromaTwoColumnsLeft : BoundsFree Config.impl (busyAt (cs 6) 0x18) := by decide
theorem witness_ClpfHqHasNoEffect : (busyAt (cs 6) 0x18).status.run = .busy := rfl
theorem witness_YnrSubtractsTheClippedResidual :
    BoundsFree Config.impl (busyAt (cs 2) 0x19) ∧ (busyAt (cs 2) 0x19).active.BLK < (busyAt (cs 2) 0x19).active.WHT := by
  decide
theorem witness_CnrChangesNothing :
    BoundsFree Config.impl (busyAt (cs 2) 0x1A) ∧ ∃ y, cnrBody Config.impl State.reset State.reset.scratch = .ok y :=
  ⟨by decide, _, rfl⟩
theorem witness_YcleanAddsTheSignedNeighbourChroma : BoundsFree Config.impl (busyAt (cs 2) 0x1B) := by decide
theorem witness_TorgbStoresTheConvertedPixels : BoundsFree Config.impl (busyAt (cs 2) 0x1C) := by decide
theorem witness_RgbConverterFollowsItsFormulas : (cs 2).blk.toNat < (cs 2).wht.toNat ∧ (cs 2).mode.getLsbD 1 = true := by decide
theorem witness_MonochromeStoresEqualChannels :
    BoundsFree Config.impl (busyAt (cs 3) 0x1C) ∧ (busyAt (cs 3) 0x1C).active.mono = true := by decide
/-- Map values at both ends of their range. -/
theorem witness_OverlayTintsRedAndBlue :
    BoundsFree Config.impl (busyAt (cs 0x32) 0x1D)
    ∧ ∀ r h, visible (cs 0x32) r → activeCol (cs 0x32) h →
      0 ≤ kmap { zeroFrame with k := ⟨none, [((2, 16), 1)]⟩ } r h ∧ kmap { zeroFrame with k := ⟨none, [((2, 16), 1)]⟩ } r h ≤ 1 := by
  refine ⟨by decide, fun r h _ _ => ?_⟩
  simp only [kmap, cellAt, lookupCell, unlistedCell, realKind]
  by_cases e : (r, h) = (2, 16) <;> simp [e]
theorem witness_PassOrderFollowsTheTable :
    ∃ t, step (busyAt (cs 2) 0x1E) = .next t ∧ t.status.run ≠ .faulted ∧ decodeStage (busyAt (cs 2) 0x1E).seq = .ok .storeprev :=
  ⟨_, rfl, by decide, by decide⟩
theorem witness_PassFaultsArePrecise :
    ∃ t, step (busyAt { cs 2 with wht := 16384 } 0x10) = .next t ∧ t.status.run = .faulted
      ∧ decodeStage (busyAt { cs 2 with wht := 16384 } 0x10).seq = .ok .fbinit :=
  ⟨_, rfl, by decide, by decide⟩
theorem witness_FaultedIsLeftOnlyByReset :
    (∃ t, step (faultedWith [.reset]) = .next t ∧ t.status.run = .idle)
    ∧ ∃ t, step (faultedWith [.wr 0 1]) = .next t ∧ t.status.run = .faulted := ⟨⟨_, rfl, rfl⟩, _, rfl, rfl⟩
theorem witness_HardwareResetGivesTheResetValues :
    (idleWith (cs 2) [.reset]).status.run ≠ .busy ∧ (idleWith (cs 2) [.reset]).host = .reset :: [] := by decide
/-- One register number of each clause, at the boundaries of the clauses; reads in IDLE and in FAULTED. -/
theorem witness_HostRegistersFollowTheMap :
    ((idleWith (cs 2) [.wrBurst 1]).status.run = .idle ∧ (idleWith (cs 2) [.wrBurst 1]).host = .wrBurst 1 :: [])
    ∧ ((idleWith (cs 2) [.rd 1]).status.run ≠ .busy ∧ (idleWith (cs 2) [.rd 1]).host = .rd 1 :: [])
    ∧ ((faultedWith [.rd 1]).status.run ≠ .busy ∧ (faultedWith [.rd 1]).host = .rd 1 :: [])
    ∧ ∀ n ∈ [0x01, 0x02, 0x08, 0x09, 0x0A, 0x0B, 0x0C, 0x0D, 0x0E, 0x0F, 0x10, 0x11],
      (idleWith (cs 2) [.wr n 0xFFFFFFFF]).status.run = .idle
      ∧ (idleWith (cs 2) [.wr n 0xFFFFFFFF]).host = .wr n 0xFFFFFFFF :: [] ∧ n ≠ 0 := by decide
theorem witness_OutlenAndFramehFollowTheActiveCopy :
    (cs 2).fw.toNat * (max (2 * ((cs 2).fh.toNat : Int) - 1) 0).toNat * 6 < 2 ^ 32 := by decide
theorem witness_SixteenBitAccessIsLittleEndian : 318 + 2 ≤ 320 ∧ 320 < 319 + 2 := by decide
theorem witness_HostReachesTheByteSpaces :
    (idleWith (cs 2) [.load1 [1, 2]]).status.run = .idle ∧ ([1, 2] : List Byte).length < 2 ^ 32
    ∧ (idleWith (cs 2) [.load1 [1, 2]]).host = .load1 [1, 2] :: []
    ∧ (idleWith (cs 2) [.load2 []]).host = .load2 [] :: []
    ∧ (idleWith (cs 2) [.put1 0 1]).host = .put1 0 1 :: [] ∧ (idleWith (cs 2) [.put2 255 1]).host = .put2 255 1 :: []
    ∧ (faultedWith [.getOut 1728]).status.run ≠ .busy ∧ (faultedWith [.getOut 1728]).host = .getOut 1728 :: []
    ∧ (faultedWith [.getOut 1728]).host.head? ≠ some .reset := by decide
theorem witness_ActiveCopyChangesOnlyByConfig :
    ∃ t, step { State.reset with shadow := cs 2, host := [.wr 0 1] } = .next t ∧ t.active = cs 2 := ⟨_, rfl, rfl⟩
theorem witness_PrevChangesOnlyByItsThreeWriters :
    ∃ t, step { busyAt (cs 0x12) 0x1E with fb := line1d } = .next t ∧ t.prev = line1d := ⟨_, rfl, rfl⟩
theorem witness_LogGrowsOnlyByConfig :
    ∃ t, step { State.reset with host := [.wr 0 1] } = .next t ∧ t.log = [⟨.activeStart, 0⟩] := ⟨_, rfl, rfl⟩
theorem witness_EveryStepKeepsLogViolations :
    LogHoldsViolations { State.reset with log := [⟨.width, 911⟩, ⟨.activeStart, 15⟩], host := [.wr 0 1] }
    ∧ ∃ t, step { State.reset with log := [⟨.width, 911⟩, ⟨.activeStart, 15⟩], host := [.wr 0 1] } = .next t :=
  ⟨by simp [LogHoldsViolations], _, rfl⟩
theorem witness_EveryStepKeepsCoherence :
    Coherent (busyAt (cs 2) 0x10) ∧ ∃ t, step (busyAt (cs 2) 0x10) = .next t := by
  refine ⟨?_, _, rfl⟩
  unfold Coherent SeqMatchesRun FaultFieldsMatchRun WarningsMatchActive DoneAndBusyAreConfigured NoDelayLine
  decide
theorem witness_EveryStepKeepsCanonicalMemory :
    Canonical { idleWith (cs 2) [.load1 [1, 2]] with fb := line1d }
    ∧ ∃ t, step { idleWith (cs 2) [.load1 [1, 2]] with fb := line1d } = .next t := by
  refine ⟨?_, _, rfl⟩
  have raw : FrameBuffer.wf line1d := by decide +kernel
  have rest : Memory.wf State.reset.mem ∧ FrameBuffer.wf zeroFrame := by decide +kernel
  exact ⟨rest.1, raw, rest.2⟩
theorem witness_CoherentStepsAreNeverRefused :
    Coherent (idleWith (cs 2) [.getOut 1728]) := by
  unfold Coherent SeqMatchesRun FaultFieldsMatchRun WarningsMatchActive DoneAndBusyAreConfigured NoDelayLine
  decide
theorem witness_TwoDimensionalDecodeIgnoresPrev :
    ((busyAt (cs 2) 0x14).status.run = .busy ∧ (busyAt (cs 2) 0x14).seq ≠ 0x15#8 ∧ (busyAt (cs 2) 0x17).seq ≠ 0x16#8
      ∧ (busyAt (cs 2) 0x1D).seq ≠ 0x1E#8) ∧
    (idleWith (cs 2) [.wr 0 2]).active.m3d = false ∧ (idleWith (cs 2) [.wr 0 2]).status.run = .idle
    ∧ (idleWith (cs 2) [.wr 0 2]).host = [.wr 0 2] := by decide
/-- In 2D mode and in 3D mode with low-pass and overlay. -/
theorem witness_FaultFreeDecodeCompletes :
    ∀ mode ∈ [2#6, 0x36#6], (idleWith (cs mode) [.wr 0 2]).status.configured = true
      ∧ (idleWith (cs mode) [.wr 0 2]).status.run = .idle ∧ (idleWith (cs mode) [.wr 0 2]).host = .wr 0 2 :: []
      ∧ BoundsFree Config.impl (idleWith (cs mode) [.wr 0 2]) ∧ (cs mode).BLK < (cs mode).WHT
      ∧ (idleWith (cs mode) [.wr 0 2]).estimate = none := by decide

end Sys2Proof.Tests
end

section
/-! PROOFS. What one step of the machine can do, said once: what the decoder's tables select, that every pass runs its
body in the frame of a pass and leaves no delay line, what a host action can do, and the kinds of steps there are. -/

namespace Sys2Proof.StepLaws

open Sys2Proof Sys2Proof.Machine Sys2Proof.Safety Sys2Proof.Laws

/-! ### The decoder's tables (30_encoding R92, R93) -/

theorem selectRow_some {n : Nat} {table : List (OpcodeRow n)} {w : BitVec n} {i : Instr}
    (h : selectRow table w = some i) : ∃ row ∈ table, row.instr = i ∧ w &&& row.mask = row.pattern := by
  obtain ⟨row, hfind, hinstr⟩ := Option.map_eq_some_iff.1 h
  exact ⟨row, List.mem_of_find?_eq_some hfind, hinstr, by simpa using List.find?_some hfind⟩

theorem stageTable_row : ∀ row ∈ stageTable, row.mask = BitVec.allOnes 8 ∧ encode row.instr = .uop row.pattern := by
  decide

theorem commandTable_row :
    ∀ row ∈ commandTable, row.mask = BitVec.allOnes 32 ∧ encode row.instr = .cmd row.pattern := by
  decide

/-- The pass a stage code selects is the one that code encodes. -/
theorem encode_of_decodeStage {c : StageCode} {i : Instr} (h : decodeStage c = .ok i) : encode i = .uop c := by
  unfold decodeStage at h
  split at h
  · cases h
    obtain ⟨row, hmem, rfl, hsel⟩ := selectRow_some ‹_›
    obtain ⟨hmask, henc⟩ := stageTable_row row hmem
    rw [henc, ← hsel, hmask, BitVec.and_allOnes]
  · cases h

/-- The command a word selects is the one that word encodes. -/
theorem encode_of_decodeCommand {w : Word} {i : Instr} (h : decodeCommand w = .ok i) : encode i = .cmd w := by
  unfold decodeCommand at h
  split at h
  · cases h
    obtain ⟨row, hmem, rfl, hsel⟩ := selectRow_some ‹_›
    obtain ⟨hmask, henc⟩ := commandTable_row row hmem
    rw [henc, ← hsel, hmask, BitVec.and_allOnes]
  · cases h

/-- Every legal stage code is a row of the table (30_encoding R93). -/
theorem decodeStage_of_legal {c : StageCode} (h : legalStageCode c = true) : ∃ i, decodeStage c = .ok i := by
  have hrows : ∀ k < 15, (selectRow stageTable (BitVec.ofNat 8 (0x10 + k))).isSome = true := by decide
  have hrange : 0x10 ≤ c.toNat ∧ c.toNat ≤ 0x1E := by simpa [legalStageCode, BitVec.ule] using h
  have hrow := hrows (c.toNat - 0x10) (by omega)
  rw [show 0x10 + (c.toNat - 0x10) = c.toNat by omega, BitVec.ofNat_toNat, BitVec.setWidth_eq] at hrow
  obtain ⟨i, hi⟩ := Option.isSome_iff_exists.1 hrow
  exact ⟨i, by simp [decodeStage, hi]⟩

/-- The sequencer goes to a stage code or to the end (40_sequencer R124). -/
theorem nextStage_legal (c : ConfigRegs) (i : Instr) :
    nextStage c i = 0x00#8 ∨ legalStageCode (nextStage c i) = true := by
  unfold nextStage
  repeat' split
  all_goals decide

/-! ### DECODE and STOREPREV -/

theorem exec_decode (s : State) : exec .decode s = execDecode s := rfl
theorem exec_storeprev (s : State) :
    exec .storeprev s = .next (finishPass .storeprev keepWork { s with prev := s.fb } s.scratch) := rfl

/-- Everything DECODE can answer (40_sequencer R122). -/
theorem execDecode_cases (s : State) :
    (s.status.configured = true
        ∧ execDecode s = .next { s with status := { s.status with done := false, run := .busy }, seq := 0x10#8 })
      ∨ (s.status.configured = false ∧ execDecode s = .next (raise .notConfigured s)) := by
  cases h : s.status.configured with
  | true => exact .inl ⟨rfl, by simp [execDecode, h, stageCode]⟩
  | false => exact .inr ⟨rfl, by simp [execDecode, h]⟩

/-! ### Delay lines during a pass (10_state R36) -/

/-- Nothing touched the FIR delay lines. -/
def SameFir (x y : Scratch) : Prop := y.work.fi = x.work.fi ∧ y.work.fq = x.work.fq

theorem SameFir.refl (x : Scratch) : SameFir x x := ⟨rfl, rfl⟩

theorem SameFir.trans {x y z : Scratch} (h1 : SameFir x y) (h2 : SameFir y z) : SameFir x z :=
  ⟨h2.1.trans h1.1, h2.2.trans h1.2⟩

/-- A loop whose turns leave the delay lines alone does so. -/
theorem forRange_sameFir {a b : Nat} {body : Nat → Scratch → Except FaultCause Scratch}
    (turn : ∀ v y z, body v y = .ok z → SameFir y z) {x y : Scratch} (h : forRange a b body x = .ok y) : SameFir x y :=
  forRange_keeps (SameFir x) (fun v y z _ _ hi hb => hi.trans (turn v y z hb)) (.refl x) h

theorem sameFir_of_wroteRaw {x y : Scratch} (h : WroteRaw x y) : SameFir x y := by
  obtain ⟨p, rfl, -⟩ := h
  exact .refl x

theorem sameFir_of_wroteC2d {x y : Scratch} (h : WroteC2d x y) : SameFir x y := by
  obtain ⟨p, rfl, -⟩ := h
  exact .refl x

theorem sameFir_of_wroteC3d {x y : Scratch} (h : WroteC3d x y) : SameFir x y := by
  obtain ⟨p, rfl, -⟩ := h
  exact .refl x

theorem sameFir_of_wroteOut {x y : Scratch} (h : WroteOut x y) : SameFir x y := by
  obtain ⟨m, rfl, -⟩ := h
  exact .refl x

theorem fbinitBody_sameFir {s : State} {x y : Scratch} (h : fbinitBody s x = .ok y) : SameFir x y := by
  rcases fbinitBody_cases s x with ⟨-, hc⟩ | ⟨-, hc⟩ <;> rw [hc] at h <;> cases h
  exact ⟨rfl, rfl⟩

theorem motionBody_sameFir {P : Impl} {s : State} {x y : Scratch} (h : motionBody P s x = .ok y) : SameFir x y := by
  rcases motionBody_cases P s x with ⟨-, hc⟩ | ⟨-, hc⟩ <;> rw [hc] at h <;> cases h
  exact ⟨rfl, rfl⟩

theorem trackerVisit_fir (r : Nat) (w : Work) : (trackerVisit r w).fi = w.fi ∧ (trackerVisit r w).fq = w.fq := by
  unfold trackerVisit
  split <;> exact ⟨rfl, rfl⟩

theorem routeIq_fir (ph : Phase) (v : R) (w : Work) : (routeIq ph v w).fi = w.fi ∧ (routeIq ph v w).fq = w.fq := by
  cases ph <;> exact ⟨rfl, rfl⟩

theorem combineColumn_sameFir {P : Impl} {cfg : ConfigRegs} {est : FrameBuffer → Nat → Nat → Except FaultCause R}
    {r h : Nat} {x y : Scratch} (hy : combineColumn P cfg est r h x = .ok y) : SameFir x y := by
  obtain ⟨e, -, hy⟩ := bind_ok hy
  obtain ⟨v, -, hy⟩ := bind_ok hy
  obtain ⟨p, -, hy⟩ := bind_ok hy
  cases hy
  exact routeIq_fir _ _ _

theorem combineLine_sameFir {P : Impl} {cfg : ConfigRegs} {est : FrameBuffer → Nat → Nat → Except FaultCause R}
    {r : Nat} {x y : Scratch} (h : combineLine P cfg est r x = .ok y) : SameFir x y :=
  .trans (y := { x with work := combineLineStart r x.work }) (trackerVisit_fir r x.work)
    (forRange_sameFir (fun _ _ _ => combineColumn_sameFir) h)

/-- The combiner uses no filter (44 R180). -/
theorem combineBody_sameFir {P : Impl} {est : FrameBuffer → Nat → Nat → Except FaultCause R} {s : State}
    {x y : Scratch} (h : combineBody P est s x = .ok y) : SameFir x y :=
  .trans (y := { x with work := trackerInit x.fb x.work }) ⟨rfl, rfl⟩
    (forRange_sameFir (fun _ _ _ => combineLine_sameFir) h)

theorem denoiseColumn_sameFir {P : Impl} {cfg : ConfigRegs} {f : Nat → Yiq → Yiq} {r h : Nat} {x y : Scratch}
    (hy : denoiseColumn P cfg f r h x = .ok y) : SameFir x y := by
  obtain ⟨v, -, hy⟩ := bind_ok hy
  obtain ⟨p, -, hy⟩ := bind_ok hy
  cases hy
  exact ⟨rfl, rfl⟩

theorem ynrBody_sameFir {P : Impl} {s : State} {x y : Scratch} (h : ynrBody P s x = .ok y) : SameFir x y := by
  refine forRange_sameFir (fun r y z hl => ?_) h
  obtain ⟨line, -, hl⟩ := bind_ok hl
  exact forRange_sameFir (fun _ _ _ hc => denoiseColumn_sameFir hc) hl

theorem cnrBody_sameFir {P : Impl} {s : State} {x y : Scratch} (h : cnrBody P s x = .ok y) : SameFir x y := by
  refine forRange_sameFir (fun r y z hl => ?_) h
  obtain ⟨lineI, -, hl⟩ := bind_ok hl
  obtain ⟨lineQ, -, hl⟩ := bind_ok hl
  exact forRange_sameFir (fun _ _ _ hc => denoiseColumn_sameFir hc) hl

theorem ycleanColumn_sameFir {P : Impl} {r h : Nat} {x y : Scratch} (hy : ycleanColumn P r h x = .ok y) :
    SameFir x y := by
  obtain ⟨p, -, hy⟩ := bind_ok hy
  obtain ⟨v, -, hy⟩ := bind_ok hy
  obtain ⟨q, -, hy⟩ := bind_ok hy
  cases hy
  exact ⟨rfl, rfl⟩

theorem ycleanLine_sameFir {P : Impl} {cfg : ConfigRegs} {r : Nat} {x y : Scratch}
    (h : ycleanLine P cfg r x = .ok y) : SameFir x y :=
  .trans (y := { x with work := trackerVisit r x.work }) (trackerVisit_fir r x.work)
    (forRange_sameFir (fun _ _ _ => ycleanColumn_sameFir) h)

theorem ycleanBody_sameFir {P : Impl} {s : State} {x y : Scratch} (h : ycleanBody P s x = .ok y) : SameFir x y :=
  .trans (y := { x with work := trackerInit x.fb x.work }) ⟨rfl, rfl⟩
    (forRange_sameFir (fun _ _ _ => ycleanLine_sameFir) h)

/-- A pass that starts without delay lines leaves none: its filters are discarded with their line (10_state R36). -/
def LeavesNoDelayLine (release : Nat → Work → Work) (body : State → Scratch → Except FaultCause Scratch) : Prop :=
  ∀ (s : State) (x : Scratch), NoDelayLine s → body s s.scratch = .ok x →
    (release s.free x.work).fi = [] ∧ (release s.free x.work).fq = []

/-- Passes that leave the delay lines alone, and whose release does. -/
theorem leavesNoDelayLine_of_same {release : Nat → Work → Work}
    {body : State → Scratch → Except FaultCause Scratch}
    (hrelease : ∀ n w, (release n w).fi = w.fi ∧ (release n w).fq = w.fq)
    (hbody : ∀ s x y, body s x = .ok y → SameFir x y) : LeavesNoDelayLine release body := by
  intro s x hs hx
  obtain ⟨hi, hq⟩ := hbody _ _ _ hx
  obtain ⟨ri, rq⟩ := hrelease s.free x.work
  exact ⟨ri.trans (hi.trans hs.1), rq.trans (hq.trans hs.2)⟩

/-- Passes that discard their filters, whatever they fed them. -/
theorem leavesNoDelayLine_of_discard (release : Nat → Work → Work)
    (body : State → Scratch → Except FaultCause Scratch) :
    LeavesNoDelayLine (fun n w => discardFir (release n w)) body :=
  fun _ _ _ _ => ⟨rfl, rfl⟩

/-! ### Every pass in the frame of a pass (40_sequencer R124) -/

/-- A stage code names STOREPREV or a pass whose meaning is a body in the frame of a pass. -/
theorem exec_pass {i : Instr} {c : StageCode} (hi : encode i = .uop c) :
    i = .storeprev ∨ ∃ release body, (∀ s, exec i s = runPass i release body s) ∧ LeavesNoDelayLine release body := by
  have kept : ∀ (n : Nat) (w : Work), (keepWork n w).fi = w.fi ∧ (keepWork n w).fq = w.fq := fun _ _ => ⟨rfl, rfl⟩
  cases i with
  | nop => cases hi
  | config => cases hi
  | decode => cases hi
  | resetprev => cases hi
  | fbinit => exact .inr ⟨_, _, exec_fbinit, leavesNoDelayLine_of_same kept fun _ _ _ => fbinitBody_sameFir⟩
  | ilace =>
    exact .inr ⟨_, _, exec_ilace, leavesNoDelayLine_of_same kept fun _ _ _ h => sameFir_of_wroteRaw (ilaceBody_wrote h)⟩
  | sep1d => exact .inr ⟨_, _, exec_sep1d, leavesNoDelayLine_of_discard _ _⟩
  | sep2d =>
    exact .inr ⟨_, _, exec_sep2d, leavesNoDelayLine_of_same kept fun _ _ _ h => sameFir_of_wroteC2d (sep2dBody_wrote h)⟩
  | iqcomb =>
    exact .inr ⟨_, _, exec_iqcomb, leavesNoDelayLine_of_same (fun _ _ => ⟨rfl, rfl⟩) fun _ _ _ => combineBody_sameFir⟩
  | motion => exact .inr ⟨_, _, exec_motion, leavesNoDelayLine_of_same kept fun _ _ _ => motionBody_sameFir⟩
  | sep3d =>
    exact .inr ⟨_, _, exec_sep3d, leavesNoDelayLine_of_same kept fun _ _ _ h => sameFir_of_wroteC3d (sep3dBody_wrote h)⟩
  | iqmix =>
    exact .inr ⟨_, _, exec_iqmix, leavesNoDelayLine_of_same (fun _ _ => ⟨rfl, rfl⟩) fun _ _ _ => combineBody_sameFir⟩
  | clpf => exact .inr ⟨_, _, exec_clpf, leavesNoDelayLine_of_discard _ _⟩
  | ynr => exact .inr ⟨_, _, exec_ynr, leavesNoDelayLine_of_same kept fun _ _ _ => ynrBody_sameFir⟩
  | cnr => exact .inr ⟨_, _, exec_cnr, leavesNoDelayLine_of_same kept fun _ _ _ => cnrBody_sameFir⟩
  | yclean =>
    exact .inr ⟨_, _, exec_yclean, leavesNoDelayLine_of_same (fun _ _ => ⟨rfl, rfl⟩) fun _ _ _ => ycleanBody_sameFir⟩
  | torgb =>
    exact .inr ⟨_, _, exec_torgb, leavesNoDelayLine_of_same kept fun _ _ _ h => sameFir_of_wroteOut (torgbBody_wrote h)⟩
  | overlay =>
    exact .inr ⟨_, _, exec_overlay, leavesNoDelayLine_of_same kept fun _ _ _ h => sameFir_of_wroteOut (overlayBody_wrote h)⟩
  | storeprev => exact .inl rfl

/-- Every command answers a next state, a fault among them (log 3). -/
theorem exec_command_next {i : Instr} {w : Word} (hi : encode i = .cmd w) (s : State) : ∃ t, exec i s = .next t := by
  cases i with
  | nop => exact ⟨_, rfl⟩
  | config => exact ⟨_, rfl⟩
  | decode => exact ⟨_, rfl⟩
  | resetprev => exact ⟨_, rfl⟩
  | _ => cases hi

/-- Every pass answers a next state: its end, or the fault entry. -/
theorem exec_pass_next {i : Instr} {c : StageCode} (hi : encode i = .uop c) (s : State) : ∃ t, exec i s = .next t := by
  rcases exec_pass hi with rfl | ⟨release, body, hexec, -⟩
  · exact ⟨_, exec_storeprev s⟩
  · rw [hexec]
    exact ⟨_, rfl⟩

/-! ### What a host action can do -/

/-- A host action that is neither a command nor a reset: the host-side registers, field buffers, answer and estimator
may differ, nothing else. -/
def HostAccess (s t : State) : Prop :=
  t = { s with
    shadow := t.shadow, args := t.args, mem := { t.mem with out := s.mem.out }, answer := t.answer
    estimate := t.estimate }

theorem hostAccess_writeReg (s : State) (v : Word) (n : Nat) : HostAccess s (writeReg s v n) := by
  obtain ⟨sh, ar, h⟩ := writeReg_cases s v n
  rw [h]
  rfl

theorem hostAccess_hostWrite {s t : State} (h : HostAccess s t) : HostAccess s (hostWrite s t) := by
  rcases hostWrite_cases s t with ⟨-, hw⟩ | ⟨-, hw⟩ <;> rw [hw]
  · rfl
  · exact h

/-- Every action but a reset and a write to `CMD` is an access. -/
theorem hostAct_access {a : HostAction} (notReset : a ≠ .reset) (notCmd : ∀ w, a ≠ .wr 0 w) (s : State) :
    ∃ t, hostAct exec a s = .next t ∧ HostAccess s t := by
  cases a with
  | reset => exact absurd rfl notReset
  | wr reg v =>
    have hreg : reg ≠ 0 := fun h => notCmd v (h ▸ rfl)
    exact ⟨_, by simp [hostAct, hreg], hostAccess_hostWrite (hostAccess_writeReg s v reg)⟩
  | wrBurst q => exact ⟨_, rfl, hostAccess_hostWrite rfl⟩
  | rd reg => exact ⟨_, rfl, rfl⟩
  | load1 bytes => exact ⟨_, rfl, hostAccess_hostWrite rfl⟩
  | load2 bytes => exact ⟨_, rfl, hostAccess_hostWrite rfl⟩
  | put1 a b => exact ⟨_, rfl, hostAccess_hostWrite rfl⟩
  | put2 a b => exact ⟨_, rfl, hostAccess_hostWrite rfl⟩
  | getOut a => exact ⟨_, rfl, rfl⟩
  | estimate broken => exact ⟨_, rfl, rfl⟩

/-- A write to `CMD`: the command in IDLE, `IllegalCommand` for any other word there, and nothing outside IDLE (10_state
R28; 30_encoding R96). -/
theorem issueCommand_cases (w : Word) (s : State) :
    (s.status.run = .idle ∧ ∃ i, encode i = .cmd w ∧ issueCommand exec w s = exec i s)
      ∨ (s.status.run = .idle ∧ issueCommand exec w s = .next (raise .illegalCommand s))
      ∨ (s.status.run ≠ .idle ∧ issueCommand exec w s = .next s) := by
  by_cases idle : s.status.run = .idle
  · cases hd : decodeCommand w with
    | ok i => exact .inl ⟨idle, i, encode_of_decodeCommand hd, by simp [issueCommand, idle, hd]⟩
    | error e => exact .inr (.inl ⟨idle, by simp [issueCommand, idle, hd]⟩)
  · exact .inr (.inr ⟨idle, by simp [issueCommand, idle]⟩)

/-! ### The kinds of steps -/

/-- Everything a step can be: one constructor per kind of step, with what it was taken from. -/
inductive StepKind (s : State) : State → Prop
  | passEnd {i : Instr} {release : Nat → Work → Work} {body : State → Scratch → Except FaultCause Scratch}
      {x : Scratch} (busy : s.status.run = .busy) (code : encode i = .uop s.seq)
      (frame : ∀ u, exec i u = runPass i release body u) (ok : body s s.scratch = .ok x)
      (noFir : LeavesNoDelayLine release body) : StepKind s (finishPass i release s x)
  | passFault (cause : FaultCause) (busy : s.status.run = .busy) : StepKind s (raise cause s)
  | storeprev (busy : s.status.run = .busy) (code : s.seq = 0x1E#8) :
      StepKind s (finishPass .storeprev keepWork { s with prev := s.fb } s.scratch)
  | quiet (notBusy : s.status.run ≠ .busy) (nothing : s.host = []) : StepKind s s
  | reset (notBusy : s.status.run ≠ .busy) (action : s.host.head? = some .reset) : StepKind s (hardwareReset s.popHost)
  | access {t : State} (notBusy : s.status.run ≠ .busy) (same : HostAccess s.popHost t) : StepKind s t
  | commandFault (cause : FaultCause) (idle : s.status.run = .idle) : StepKind s (raise cause s.popHost)
  | config {t : State} (idle : s.status.run = .idle) (action : s.host.head? = some (.wr 0 0x00000001#32))
      (done : execConfig s.popHost = .next t) : StepKind s t
  | decode (idle : s.status.run = .idle) (configured : s.status.configured = true) :
      StepKind s { s.popHost with status := { s.status with done := false, run := .busy }, seq := 0x10#8 }
  | resetprev (idle : s.status.run = .idle) (action : s.host.head? = some (.wr 0 0x00000003#32)) :
      StepKind s { s.popHost with prev := zeroFrame }

theorem passStep_kind {s t : State} {i : Instr} (busy : s.status.run = .busy) (code : encode i = .uop s.seq)
    (h : exec i s = .next t) : StepKind s t := by
  rcases exec_pass code with rfl | ⟨release, body, frame, noFir⟩
  · cases h
    exact .storeprev busy (OpWord.uop.inj code).symm
  · rw [frame] at h
    rcases runPass_cases i release body s with ⟨x, ok, hrun⟩ | ⟨cause, -, hrun⟩ <;> rw [hrun] at h <;> cases h
    · exact .passEnd busy code frame ok noFir
    · exact .passFault cause busy

theorem command_kind {s t : State} {i : Instr} {w : Word} (idle : s.status.run = .idle)
    (action : s.host.head? = some (.wr 0 w)) (code : encode i = .cmd w) (h : exec i s.popHost = .next t) :
    StepKind s t := by
  cases i with
  | nop =>
    cases h
    exact .access (by simp [idle]) rfl
  | config =>
    cases code
    exact .config idle action h
  | decode =>
    rcases execDecode_cases s.popHost with ⟨configured, e⟩ | ⟨-, e⟩ <;> rw [exec_decode, e] at h <;> cases h
    · exact .decode idle configured
    · exact .commandFault .notConfigured idle
  | resetprev =>
    cases code
    cases h
    exact .resetprev idle action
  | _ => cases code

theorem hostAct_kind {s t : State} {a : HostAction} (notBusy : s.status.run ≠ .busy) (action : s.host.head? = some a)
    (h : hostAct exec a s.popHost = .next t) : StepKind s t := by
  by_cases isReset : a = .reset
  · subst isReset
    cases h
    exact .reset notBusy action
  by_cases isCmd : ∃ w, a = .wr 0 w
  · obtain ⟨w, rfl⟩ := isCmd
    change issueCommand exec w s.popHost = .next t at h
    rcases issueCommand_cases w s.popHost with ⟨idle, i, code, e⟩ | ⟨idle, e⟩ | ⟨-, e⟩ <;> rw [e] at h
    · exact command_kind idle action code h
    · cases h
      exact .commandFault .illegalCommand idle
    · cases h
      exact .access notBusy rfl
  · obtain ⟨u, e, same⟩ := hostAct_access isReset (not_exists.1 isCmd) s.popHost
    rw [e] at h
    cases h
    exact .access notBusy same

/-- Every step is of one of these kinds. -/
theorem step_kind {s t : State} (h : step s = .next t) : StepKind s t := by
  by_cases busy : s.status.run = .busy
  · cases hd : decodeStage s.seq with
    | ok i =>
      rw [step_busy busy hd] at h
      exact passStep_kind busy (encode_of_decodeStage hd) h
    | error e => simp [step, stepWith, busy, passStep, hd] at h
  · cases hh : s.host with
    | nil =>
      rw [step_quiet busy hh] at h
      cases h
      exact .quiet busy hh
    | cons a rest =>
      rw [step_host busy hh] at h
      exact hostAct_kind busy (by simp [hh]) h

end Sys2Proof.StepLaws
end

section
/-! PROOFS. The control state stays coherent over every step and no coherent state stops the machine; the active
configuration, `PREV` and `LOG` change only by their named writers. Each by the kinds of steps. -/

namespace Sys2Proof.ControlState

open Sys2Proof Sys2Proof.Machine Sys2Proof.Safety Sys2Proof.Laws Sys2Proof.StepLaws

/-! ### Coherence -/

/-- Coherence speaks of `STATUS`, `SEQ`, the active configuration and the delay lines only. -/
theorem coherent_congr {s t : State} (h : Coherent s) (status : t.status = s.status) (seq : t.seq = s.seq)
    (active : t.active = s.active) (work : t.work = s.work) : Coherent t := by
  simpa only [Coherent, SeqMatchesRun, FaultFieldsMatchRun, WarningsMatchActive, DoneAndBusyAreConfigured,
    NoDelayLine, status, seq, active, work] using h

theorem freshReset_coherent (n : Nat) : Coherent (State.freshReset n) := by
  simp [Coherent, SeqMatchesRun, FaultFieldsMatchRun, WarningsMatchActive, DoneAndBusyAreConfigured, NoDelayLine,
    State.freshReset, Work.zero]

theorem hardwareReset_coherent (s : State) : Coherent (hardwareReset s) :=
  coherent_congr (freshReset_coherent s.free) rfl rfl rfl rfl

theorem raise_noDelayLine {s : State} (h : NoDelayLine s) (cause : FaultCause) : NoDelayLine (raise cause s) := by
  cases cause with
  | illegalCommand => exact h
  | notConfigured => exact h
  | calibration => exact ⟨rfl, rfl⟩
  | bounds => exact ⟨rfl, rfl⟩
  | motion => exact ⟨rfl, rfl⟩

/-- The fault entry is coherent: FAULTED with a code, `SEQ` and `DONE` clear, the warnings as they were (60_exceptions
R236). -/
theorem raise_coherent {s : State} (h : Coherent s) (cause : FaultCause) : Coherent (raise cause s) := by
  obtain ⟨-, -, warnings, -, noFir⟩ := h
  refine ⟨?_, ?_, ?_, ?_, raise_noDelayLine noFir cause⟩
  · simp [SeqMatchesRun]
  · simp [FaultFieldsMatchRun]
  · simpa [WarningsMatchActive] using warnings
  · simp [DoneAndBusyAreConfigured]

/-- A pass that ends leaves the next stage with BUSY, or 0x00 with IDLE and `DONE` (40_sequencer R124). -/
theorem finishPass_coherent {s : State} {i : Instr} {release : Nat → Work → Work} {x : Scratch} (h : Coherent s)
    (busy : s.status.run = .busy) (noFir : (release s.free x.work).fi = [] ∧ (release s.free x.work).fq = []) :
    Coherent (finishPass i release s x) := by
  obtain ⟨-, ⟨fault, stage⟩, warnings, ⟨configured, done⟩, -⟩ := h
  have noFault : s.status.fault = none := by simpa [busy] using fault
  have noStage : s.status.seq = 0 := stage (by simp [busy])
  have isConfigured := configured busy
  have delay : NoDelayLine (finishPass i release s x) := by simpa [NoDelayLine] using noFir
  by_cases atEnd : nextStage s.active i = 0x00#8
  · have hst := finishPass_status_end atEnd release x
    refine ⟨?_, ?_, ?_, ?_, delay⟩
    · simp [SeqMatchesRun, hst, atEnd]
    · simp [FaultFieldsMatchRun, hst, noFault, noStage]
    · simpa [WarningsMatchActive, hst] using warnings
    · simp [DoneAndBusyAreConfigured, hst, isConfigured]
  · have hst := finishPass_status_on atEnd release x
    have legal := (nextStage_legal s.active i).resolve_left atEnd
    refine ⟨?_, ?_, ?_, ?_, delay⟩
    · simp [SeqMatchesRun, hst, busy, legal]
    · simp [FaultFieldsMatchRun, hst, busy, noFault, noStage]
    · simpa [WarningsMatchActive, hst] using warnings
    · simpa [DoneAndBusyAreConfigured, hst, isConfigured] using done

/-- CONFIG recomputes the warnings of the copy it commits and clears `DONE` (40_sequencer R121). -/
theorem config_coherent {s t : State} (h : Coherent s) (ht : execConfig s = .next t) : Coherent t := by
  cases ht
  obtain ⟨seq, fault, -, -, noFir⟩ := h
  exact ⟨seq, fault, ⟨fun _ => ⟨rfl, rfl, rfl⟩, nofun⟩, ⟨fun _ => rfl, nofun⟩, noFir⟩

/-- DECODE of a configured block goes BUSY at FBINIT (40_sequencer R122). -/
theorem decode_coherent {s : State} (h : Coherent s) (idle : s.status.run = .idle)
    (configured : s.status.configured = true) :
    Coherent { s with status := { s.status with done := false, run := .busy }, seq := 0x10#8 } := by
  obtain ⟨-, ⟨fault, stage⟩, warnings, -, noFir⟩ := h
  refine ⟨⟨fun _ => rfl, fun h => absurd rfl h⟩, ⟨?_, fun _ => stage (by simp [idle])⟩, warnings,
    ⟨fun _ => configured, nofun⟩, noFir⟩
  simpa [idle] using fault

/-- Settles O56: the kinds of steps, each of which keeps the control state coherent. -/
theorem everyStepKeepsCoherence : Obligations.EveryStepKeepsCoherence := by
  intro s t h hstep
  have ⟨_, _, _, _, noDelay⟩ := h
  have popped : Coherent s.popHost := coherent_congr h rfl rfl rfl rfl
  cases step_kind hstep with
  | passEnd busy _ _ ok noFir => exact finishPass_coherent h busy (noFir s _ noDelay ok)
  | passFault cause _ => exact raise_coherent h cause
  | storeprev busy _ =>
    exact finishPass_coherent (s := { s with prev := s.fb }) (coherent_congr h rfl rfl rfl rfl) busy noDelay
  | quiet _ _ => exact h
  | reset _ _ => exact hardwareReset_coherent s.popHost
  | access _ same =>
    rw [same]
    exact coherent_congr popped rfl rfl rfl rfl
  | commandFault cause _ => exact raise_coherent popped cause
  | config _ _ done => exact config_coherent popped done
  | decode idle configured => exact decode_coherent popped idle configured
  | resetprev _ _ => exact coherent_congr popped rfl rfl rfl rfl

/-! ### No step of a coherent state is refused -/

theorem hostAct_next (a : HostAction) (s : State) : ∃ t, hostAct exec a s = .next t := by
  by_cases isReset : a = .reset
  · subst isReset
    exact ⟨_, rfl⟩
  by_cases isCmd : ∃ w, a = .wr 0 w
  · obtain ⟨w, rfl⟩ := isCmd
    change ∃ t, issueCommand exec w s = .next t
    rcases issueCommand_cases w s with ⟨-, i, code, e⟩ | ⟨-, e⟩ | ⟨-, e⟩ <;> rw [e]
    · exact exec_command_next code s
    · exact ⟨_, rfl⟩
    · exact ⟨_, rfl⟩
  · obtain ⟨t, e, -⟩ := hostAct_access isReset (not_exists.1 isCmd) s
    exact ⟨t, e⟩

/-- Settles O58: a coherent BUSY state names a pass in `SEQ`, and every pass, command and access answers a next state. -/
theorem coherentStepsAreNeverRefused : Obligations.CoherentStepsAreNeverRefused := by
  intro s h
  obtain ⟨⟨legal, -⟩, -⟩ := h
  by_cases busy : s.status.run = .busy
  · obtain ⟨i, hd⟩ := decodeStage_of_legal (legal busy)
    rw [step_busy busy hd]
    exact exec_pass_next (encode_of_decodeStage hd) s
  · cases hh : s.host with
    | nil => exact ⟨s, step_quiet busy hh⟩
    | cons a rest =>
      rw [step_host busy hh]
      exact hostAct_next a s.popHost

/-! ### The writers of the active configuration, of `PREV` and of `LOG` -/

/-- Of the kinds of steps STOREPREV, CONFIG, RESETPREV and the reset write one of the three; every other keeps them. -/
theorem step_writers {s t : State} (hstep : step s = .next t) :
    (t.active = s.active ∧ t.prev = s.prev ∧ t.log = s.log)
      ∨ (s.status.run = .busy ∧ s.seq = 0x1E#8 ∧ t.active = s.active ∧ t.prev = s.fb ∧ t.log = s.log)
      ∨ (s.status.run = .idle ∧ s.host.head? = some (.wr 0 0x00000001#32)
          ∧ t.active = s.shadow ∧ t.prev = s.prev ∧ t.log = s.log ++ warningEvents s.shadow)
      ∨ (s.status.run = .idle ∧ s.host.head? = some (.wr 0 0x00000003#32)
          ∧ t.active = s.active ∧ t.prev = zeroFrame ∧ t.log = s.log)
      ∨ (s.status.run ≠ .busy ∧ s.host.head? = some .reset
          ∧ t.active = ConfigRegs.zero ∧ t.prev = zeroFrame ∧ t.log = []) := by
  cases step_kind hstep with
  | passEnd _ _ _ _ _ => exact .inl (by simp)
  | passFault _ _ => exact .inl (by simp)
  | storeprev busy code => exact .inr (.inl ⟨busy, code, by simp⟩)
  | quiet _ _ => exact .inl ⟨rfl, rfl, rfl⟩
  | reset notBusy action => exact .inr (.inr (.inr (.inr ⟨notBusy, action, rfl, rfl, rfl⟩)))
  | access _ same =>
    rw [same]
    exact .inl ⟨rfl, rfl, rfl⟩
  | commandFault _ _ => exact .inl (by simp)
  | config idle action done =>
    cases done
    exact .inr (.inr (.inl ⟨idle, action, rfl, rfl, rfl⟩))
  | decode _ _ => exact .inl ⟨rfl, rfl, rfl⟩
  | resetprev idle action => exact .inr (.inr (.inr (.inl ⟨idle, action, rfl, rfl, rfl⟩)))

/-- Settles O51: of the writers only CONFIG and the reset change the active copy. -/
theorem activeCopyChangesOnlyByConfig : Obligations.ActiveCopyChangesOnlyByConfig := by
  intro s t hstep
  rcases step_writers hstep with ⟨same, -⟩ | ⟨-, -, same, -⟩ | ⟨idle, action, shadow, -⟩ | ⟨-, -, same, -⟩ |
    ⟨notBusy, action, zero, -⟩
  · exact .inl same
  · exact .inl same
  · exact .inr (.inl ⟨idle, action, shadow⟩)
  · exact .inl same
  · exact .inr (.inr ⟨notBusy, action, zero⟩)

/-- Settles O52: of the writers all but CONFIG change `PREV`. -/
theorem prevChangesOnlyByItsThreeWriters : Obligations.PrevChangesOnlyByItsThreeWriters := by
  intro s t hstep
  rcases step_writers hstep with ⟨-, same, -⟩ | ⟨busy, code, -, frame, -⟩ | ⟨-, -, -, same, -⟩ |
    ⟨idle, action, -, zero, -⟩ | ⟨notBusy, action, -, zero, -⟩
  · exact .inl same
  · exact .inr (.inl ⟨busy, code, frame⟩)
  · exact .inl same
  · exact .inr (.inr (.inl ⟨idle, action, zero⟩))
  · exact .inr (.inr (.inr ⟨notBusy, action, zero⟩))

/-- Settles O53: of the writers only CONFIG and the reset change `LOG`. -/
theorem logGrowsOnlyByConfig : Obligations.LogGrowsOnlyByConfig := by
  intro s t hstep
  rcases step_writers hstep with ⟨-, -, same⟩ | ⟨-, -, -, -, same⟩ | ⟨idle, action, -, -, events⟩ | ⟨-, -, -, -, same⟩ |
    ⟨notBusy, action, -, -, empty⟩
  · exact .inl same
  · exact .inl same
  · exact .inr (.inl ⟨idle, action, _, events⟩)
  · exact .inl same
  · exact .inr (.inr ⟨notBusy, action, empty⟩)

/-! ### The step on a BUSY and on an IDLE block -/

/-- Settles O4: the fetch of a BUSY block. -/
theorem busyStepRunsThePassInSeq : Obligations.BusyStepRunsThePassInSeq :=
  fun _ _ busy hd _ => step_busy busy hd

theorem popHost_of_host {s : State} {a : HostAction} {rest : List HostAction} (h : s.host = a :: rest) :
    s.popHost = { s with host := rest } := by
  simp [State.popHost, h]

/-- Settles O5: the host's write to `CMD` reaches the command it encodes. -/
theorem idleStepIssuesTheCommand : Obligations.IdleStepIssuesTheCommand := by
  intro s w rest i idle hh hd _
  have issued : ∀ u : State, u.status.run = .idle → issueCommand exec w u = exec i u := fun u hu => by
    simp [issueCommand, hu, hd]
  calc step s = hostAct exec (.wr 0 w) s.popHost := step_host (by simp [idle]) hh
    _ = exec i s.popHost := issued s.popHost idle
    _ = exec i { s with host := rest } := by rw [popHost_of_host hh]

/-! ### Hardware reset (10_state R42) -/

/-- Settles O55. -/
theorem resetIsCoherentAndCanonical : Obligations.ResetIsCoherentAndCanonical :=
  ⟨freshReset_coherent 0, reset_memory_wf 0, by simp [LogHoldsViolations, State.reset, State.freshReset]⟩

theorem statusWord_reset : statusWord ⟨.idle, false, false, false, false, false, none, 0⟩ = 0 := by decide

/-- Settles O45: the reset action and the reset state are one state of fresh contents, up to the environment's fields. -/
theorem hardwareResetGivesTheResetValues : Obligations.HardwareResetGivesTheResetValues := by
  intro s rest notBusy hh
  refine ⟨hardwareReset s.popHost, step_host notBusy hh, by simp [hardwareReset, hh], ?_⟩
  rintro u (rfl | rfl) <;>
    exact ⟨rfl, rfl, rfl, rfl, rfl, rfl, rfl, rfl, rfl, statusWord_reset, rfl, rfl,
      fun _ _ => ⟨rfl, rfl, rfl, rfl, rfl, rfl⟩, rfl, rfl, rfl⟩

end Sys2Proof.ControlState
end

section
/-! PROOFS. The registers as the host reads and writes them: the layout of `STATUS`, the register map, `OUTLEN` and
`FRAMEH` (10_state R27 to R35). -/

namespace Sys2Proof.HostRegisters

open Sys2Proof Sys2Proof.Machine Sys2Proof.Laws Sys2Proof.ControlState

/-! ### `STATUS` (10_state R29) -/

/-- The fields of `STATUS` side by side, the width still written as their sum. -/
def packStatus (seq fault : BitVec 8) (wAvs wFrh wFw done configured : Bool) (run : BitVec 2) :
    BitVec (8 + 8 + 8 + 1 + 1 + 1 + 1 + 1 + 1 + 2) :=
  0#8 ++ seq ++ fault ++ 0#1 ++ BitVec.ofBool wAvs ++ BitVec.ofBool wFrh ++ BitVec.ofBool wFw ++ BitVec.ofBool done
    ++ BitVec.ofBool configured ++ run

theorem statusWord_eq_packStatus (st : Status) : statusWord st = packStatus (statusSeqField st) (faultCode st.fault)
    st.wAvs st.wFrh st.wFw st.done st.configured (runCode st.run) := rfl

section
variable (seq fault : BitVec 8) (wAvs wFrh wFw done configured : Bool) (run : BitVec 2)

theorem packStatus_codes :
    (packStatus seq fault wAvs wFrh wFw done configured run).extractLsb' 0 2 = run
      ∧ (packStatus seq fault wAvs wFrh wFw done configured run).extractLsb' 8 8 = fault
      ∧ (packStatus seq fault wAvs wFrh wFw done configured run).extractLsb' 16 8 = seq
      ∧ (packStatus seq fault wAvs wFrh wFw done configured run).extractLsb' 24 8 = 0#8 := by
  simp (disch := decide) only [packStatus, BitVec.extractLsb'_append_eq_of_le, BitVec.extractLsb'_append_eq_of_add_le]
  simp

theorem packStatus_flags :
    (packStatus seq fault wAvs wFrh wFw done configured run).getLsbD 2 = configured
      ∧ (packStatus seq fault wAvs wFrh wFw done configured run).getLsbD 3 = done
      ∧ (packStatus seq fault wAvs wFrh wFw done configured run).getLsbD 4 = wFw
      ∧ (packStatus seq fault wAvs wFrh wFw done configured run).getLsbD 5 = wFrh
      ∧ (packStatus seq fault wAvs wFrh wFw done configured run).getLsbD 6 = wAvs
      ∧ (packStatus seq fault wAvs wFrh wFw done configured run).getLsbD 7 = false := by
  simp only [packStatus, BitVec.getLsbD_append]
  simp

end

/-- Settles O46: the fields of `STATUS` at their places. -/
theorem statusWordLayout : Obligations.StatusWordLayout := by
  intro st
  obtain ⟨run, fault, seq, reserved⟩ := packStatus_codes (statusSeqField st) (faultCode st.fault)
    st.wAvs st.wFrh st.wFw st.done st.configured (runCode st.run)
  obtain ⟨configured, done, wFw, wFrh, wAvs, clear⟩ := packStatus_flags (statusSeqField st) (faultCode st.fault)
    st.wAvs st.wFrh st.wFw st.done st.configured (runCode st.run)
  rw [← statusWord_eq_packStatus] at *
  refine ⟨run.trans ?_, configured, done, wFw, wFrh, wAvs, clear, fault.trans ?_, seq, reserved⟩
  · cases st.run <;> rfl
  · rcases st.fault with _ | _ | _ <;> rfl

/-! ### Register writes and reads (10_state R27, R30, R32, R33) -/

/-- The shadow registers after a register write: the one of that number is cut to its width, the others stand. -/
theorem writeReg_shadow (s : State) (v : Word) (n : Nat) : (writeReg s v n).shadow =
    { fw := if n = 0x02 then v.setWidth 16 else s.shadow.fw
      fh := if n = 0x03 then v.setWidth 16 else s.shadow.fh
      avs := if n = 0x04 then v.setWidth 16 else s.shadow.avs
      ave := if n = 0x05 then v.setWidth 16 else s.shadow.ave
      fvl := if n = 0x06 then v.setWidth 16 else s.shadow.fvl
      blk := if n = 0x07 then v.setWidth 16 else s.shadow.blk
      wht := if n = 0x08 then v.setWidth 16 else s.shadow.wht
      mode := if n = 0x09 then v.setWidth 6 else s.shadow.mode } := by
  unfold writeReg
  split <;> simp_all

/-- The argument registers after a register write. -/
theorem writeReg_args (s : State) (v : Word) (n : Nat) : (writeReg s v n).args =
    { ph1 := if n = 0x0A then v.setWidth 8 else s.args.ph1
      ph2 := if n = 0x0B then v.setWidth 8 else s.args.ph2
      burst := if n = 0x0C then Config.realFmt v else s.args.burst
      f1len := if n = 0x0D then v else s.args.f1len
      f2len := if n = 0x0E then v else s.args.f2len } := by
  unfold writeReg
  split <;> simp_all

/-- `STATUS`, `OUTLEN`, `FRAMEH` and reserved numbers ignore a write. -/
theorem writeReg_readOnly (s : State) (v : Word) {n : Nat} (h : n = 0x01 ∨ 0x0F ≤ n) : writeReg s v n = s := by
  unfold writeReg
  split <;> simp_all

theorem writeReg_frame (s : State) (v : Word) (n : Nat) :
    writeReg s v n = { s with shadow := (writeReg s v n).shadow, args := (writeReg s v n).args } := by
  obtain ⟨sh, ar, h⟩ := writeReg_cases s v n
  rw [h]

/-- Reserved numbers read 0. -/
theorem readReg_reserved (s : State) {m : Nat} (h : 0x11 ≤ m) : readReg s m = .word 0 := by
  unfold readReg
  split <;> simp_all

/-- A register read after a write of another. -/
theorem readReg_writeReg_other (s : State) (v : Word) {m n : Nat} (hlo : 0x02 ≤ m) (hhi : m ≤ 0x0E) (hne : m ≠ n) :
    readReg (writeReg s v n) m = readReg s m := by
  interval_cases m <;> simp [readReg, writeReg_shadow, writeReg_args, hne.symm]

/-- A field of `k` bits reads as the written word with the bits above it cleared. -/
theorem setWidth_setWidth_eq_and_mask (v : Word) {k : Nat} (hk : k ≤ 32) :
    (v.setWidth k).setWidth 32 = v &&& BitVec.ofNat 32 (2 ^ k - 1) := by
  have hmask : 2 ^ k - 1 < 2 ^ 32 := by have := Nat.pow_le_pow_right (show 0 < 2 by decide) hk; omega
  have hcut : v.toNat % 2 ^ k < 2 ^ 32 := (Nat.mod_le _ _).trans_lt v.isLt
  refine BitVec.eq_of_toNat_eq ?_
  rw [BitVec.toNat_setWidth, BitVec.toNat_setWidth, Nat.mod_eq_of_lt hcut, BitVec.toNat_and, BitVec.toNat_ofNat,
    Nat.mod_eq_of_lt hmask, Nat.and_two_pow_sub_one_eq_mod]

theorem readReg_writeReg_cfg (s : State) (v : Word) {n : Nat} (hlo : 0x02 ≤ n) (hhi : n ≤ 0x08) :
    readReg (writeReg s v n) n = .word (v &&& 0xFFFF#32) := by
  have cut : (v.setWidth 16).setWidth 32 = v &&& 0xFFFF#32 := setWidth_setWidth_eq_and_mask v (by decide)
  interval_cases n <;> exact congrArg Answer.word cut

theorem readReg_writeReg_mode (s : State) (v : Word) : readReg (writeReg s v 0x09) 0x09 = .word (v &&& 0x3F#32) :=
  congrArg Answer.word (setWidth_setWidth_eq_and_mask v (k := 6) (by decide))

theorem readReg_writeReg_phase (s : State) (v : Word) {n : Nat} (h : n = 0x0A ∨ n = 0x0B) :
    readReg (writeReg s v n) n = .word (v &&& 0xFF#32) := by
  have cut : (v.setWidth 8).setWidth 32 = v &&& 0xFF#32 := setWidth_setWidth_eq_and_mask v (by decide)
  rcases h with rfl | rfl <;> exact congrArg Answer.word cut

/-- In IDLE a host write to a register other than `CMD` is done. -/
theorem step_wr {s : State} {v : Word} {n : Nat} {rest : List HostAction} (idle : s.status.run = .idle)
    (hh : s.host = .wr n v :: rest) (hn : n ≠ 0) : step s = .next (writeReg { s with host := rest } v n) := by
  rw [step_host (by simp [idle]) hh, popHost_of_host hh]
  simp [hostAct, hn, hostWrite, idle]

/-- Settles O47: a write sets one field of the map and a read shows it. -/
theorem hostRegistersFollowTheMap : Obligations.HostRegistersFollowTheMap := by
  refine ⟨?_, ?_, ?_⟩
  · intro s v n rest idle hh hn
    refine ⟨_, step_wr idle hh hn, writeReg_frame _ v n, readReg_writeReg_cfg _ v, ?_, readReg_writeReg_phase _ v, ?_, ?_,
      ?_, fun m hlo hhi hne => readReg_writeReg_other _ v hlo hhi hne, rfl, fun m hm => readReg_reserved _ hm⟩
    · rintro rfl
      exact readReg_writeReg_mode _ v
    · rintro rfl
      rfl
    · rintro (rfl | rfl) <;> rfl
    · intro h
      rw [writeReg_readOnly _ v h]
      exact ⟨rfl, rfl, rfl⟩
  · intro s q rest idle hh
    refine ⟨{ s with host := rest, args := { s.args with burst := q } }, ?_, rfl, rfl⟩
    rw [step_host (by simp [idle]) hh, popHost_of_host hh]
    simp [hostAct, hostWrite, idle]
  · intro s n rest notBusy hh
    rw [step_host notBusy hh, popHost_of_host hh]
    rfl

/-! ### `OUTLEN` and `FRAMEH` (10_state R34) -/

theorem frameRows_eq (c : ConfigRegs) : c.frameRows = (max (2 * (c.fh.toNat : Int) - 1) 0).toNat := by
  simp only [ConfigRegs.frameRows, ConfigRegs.FRH, ConfigRegs.FH]
  omega

/-- A length that 32 bits hold stands in `OUTLEN` (log 10). -/
theorem outLenWord_of_lt {c : ConfigRegs} (h : c.outLen < 2 ^ 32) : outLenWord c = BitVec.ofNat 32 c.outLen :=
  if_pos h

/-- Settles O48. -/
theorem outlenAndFramehFollowTheActiveCopy : Obligations.OutlenAndFramehFollowTheActiveCopy := by
  intro s
  rw [← frameRows_eq]
  exact ⟨rfl, fun h => congrArg Answer.word (outLenWord_of_lt h)⟩

end Sys2Proof.HostRegisters
end

section
/-! PROOFS. Every step keeps the byte spaces and planes in canonical form: every pass writes one plane or `OUT` by
operations that keep the form, the fault entry and the reset start canonical contents, and the host writes bytes (log 17). -/

namespace Sys2Proof.CanonicalMemory

open Sys2Proof Sys2Proof.Machine Sys2Proof.Safety Sys2Proof.Laws Sys2Proof.StepLaws

/-! ### What a pass works on -/

/-- `FB` and `OUT` of a scratch state are in canonical form. -/
def CanonicalScratch (x : Scratch) : Prop := FrameBuffer.wf x.fb ∧ ByteBuf.wf x.out

theorem canonicalScratch_of_wroteRaw {x y : Scratch} (h : WroteRaw x y) (hx : CanonicalScratch x) :
    CanonicalScratch y := by
  obtain ⟨p, rfl, keeps⟩ := h
  obtain ⟨⟨raw, planes⟩, out⟩ := hx
  exact ⟨⟨keeps raw, planes⟩, out⟩

theorem canonicalScratch_of_wroteC1d {x y : Scratch} (h : WroteC1d x y) (hx : CanonicalScratch x) :
    CanonicalScratch y := by
  obtain ⟨p, w, rfl, keeps⟩ := h
  obtain ⟨⟨raw, c1d, planes⟩, out⟩ := hx
  exact ⟨⟨raw, keeps c1d, planes⟩, out⟩

theorem canonicalScratch_of_wroteC2d {x y : Scratch} (h : WroteC2d x y) (hx : CanonicalScratch x) :
    CanonicalScratch y := by
  obtain ⟨p, rfl, keeps⟩ := h
  obtain ⟨⟨raw, c1d, c2d, planes⟩, out⟩ := hx
  exact ⟨⟨raw, c1d, keeps c2d, planes⟩, out⟩

theorem canonicalScratch_of_wroteC3d {x y : Scratch} (h : WroteC3d x y) (hx : CanonicalScratch x) :
    CanonicalScratch y := by
  obtain ⟨p, rfl, keeps⟩ := h
  obtain ⟨⟨raw, c1d, c2d, c3d, planes⟩, out⟩ := hx
  exact ⟨⟨raw, c1d, c2d, keeps c3d, planes⟩, out⟩

theorem canonicalScratch_of_wroteYiq {x y : Scratch} (h : WroteYiq x y) (hx : CanonicalScratch x) :
    CanonicalScratch y := by
  obtain ⟨p, w, rfl, keeps⟩ := h
  obtain ⟨⟨raw, c1d, c2d, c3d, yiq, k⟩, out⟩ := hx
  exact ⟨⟨raw, c1d, c2d, c3d, keeps yiq, k⟩, out⟩

theorem canonicalScratch_of_wroteOut {x y : Scratch} (h : WroteOut x y) (hx : CanonicalScratch x) :
    CanonicalScratch y := by
  obtain ⟨m, rfl, keeps⟩ := h
  obtain ⟨planes, out⟩ := hx
  exact ⟨planes, keeps out⟩

/-- FBINIT builds a fresh frame and zeroes `OUT` (40_sequencer R125). -/
theorem fbinitBody_canonical {s : State} {x y : Scratch} (h : fbinitBody s x = .ok y) (hx : CanonicalScratch x) :
    CanonicalScratch y := by
  rcases fbinitBody_cases s x with ⟨-, hc⟩ | ⟨-, hc⟩ <;> rw [hc] at h <;> cases h
  exact ⟨freshFrame_wf s.args, zeroFill_wf hx.2 _⟩

/-- MOTION writes the whole of `K` (43 R170). -/
theorem motionBody_canonical {P : Impl} {s : State} {x y : Scratch} (h : motionBody P s x = .ok y)
    (hx : CanonicalScratch x) : CanonicalScratch y := by
  rcases motionBody_cases P s x with ⟨-, hc⟩ | ⟨-, hc⟩ <;> rw [hc] at h <;> cases h
  obtain ⟨⟨raw, c1d, c2d, c3d, yiq, -⟩, out⟩ := hx
  exact ⟨⟨raw, c1d, c2d, c3d, yiq, planeOf_wf _ _ _ _⟩, out⟩

/-! ### The end of a pass and the fault entry -/

theorem canonical_iff_scratch (s : State) : Canonical s ↔
    CanonicalScratch s.scratch ∧ ByteBuf.wf s.mem.field1 ∧ ByteBuf.wf s.mem.field2 ∧ FrameBuffer.wf s.prev :=
  ⟨fun ⟨⟨f1, f2, out⟩, fb, prev⟩ => ⟨⟨fb, out⟩, f1, f2, prev⟩,
    fun ⟨⟨fb, out⟩, f1, f2, prev⟩ => ⟨⟨f1, f2, out⟩, fb, prev⟩⟩

theorem finishPass_canonical {s : State} (h : Canonical s) {x : Scratch} (hx : CanonicalScratch x) (i : Instr)
    (release : Nat → Work → Work) : Canonical (finishPass i release s x) := by
  obtain ⟨⟨f1, f2, -⟩, -, prev⟩ := h
  simp only [Canonical, finishPass_mem, finishPass_fb, finishPass_prev]
  exact ⟨⟨f1, f2, hx.2⟩, hx.1, prev⟩

theorem forgetScratch_canonical {s : State} (h : Canonical s) : Canonical (forgetScratch s) := by
  obtain ⟨⟨f1, f2, -⟩, -, prev⟩ := h
  exact ⟨⟨f1, f2, forgetBytes_wf _⟩, unspecifiedFrame_wf _ _ _ _, prev⟩

/-- The contents a fault leaves unspecified are canonical (60_exceptions R236). -/
theorem raise_canonical {s : State} (h : Canonical s) (cause : FaultCause) : Canonical (raise cause s) := by
  cases cause with
  | illegalCommand => exact h
  | notConfigured => exact h
  | calibration => exact forgetScratch_canonical h
  | bounds => exact forgetScratch_canonical h
  | motion => exact forgetScratch_canonical h

theorem runPass_canonical {i : Instr} {release : Nat → Work → Work}
    {body : State → Scratch → Except FaultCause Scratch} {s t : State}
    (keeps : ∀ y, body s s.scratch = .ok y → CanonicalScratch s.scratch → CanonicalScratch y)
    (h : Canonical s) (hrun : runPass i release body s = .next t) : Canonical t := by
  rcases runPass_cases i release body s with ⟨y, ok, e⟩ | ⟨cause, -, e⟩ <;> rw [e] at hrun <;> cases hrun
  · exact finishPass_canonical h (keeps y ok ((canonical_iff_scratch s).1 h).1) i release
  · exact raise_canonical h cause

theorem storeprev_canonical {s : State} (h : Canonical s) :
    Canonical (finishPass .storeprev keepWork { s with prev := s.fb } s.scratch) := by
  obtain ⟨mem, fb, -⟩ := h
  have stored : Canonical { s with prev := s.fb } := ⟨mem, fb, fb⟩
  exact finishPass_canonical stored ((canonical_iff_scratch _).1 stored).1 _ _

/-- Every pass keeps the canonical form: it writes one plane, or `OUT`, through the operations that keep it. -/
theorem exec_pass_canonical {i : Instr} {c : StageCode} (hi : encode i = .uop c) {s t : State} (h : Canonical s)
    (ht : exec i s = .next t) : Canonical t := by
  cases i with
  | nop => cases hi
  | config => cases hi
  | decode => cases hi
  | resetprev => cases hi
  | fbinit => exact runPass_canonical (fun _ => fbinitBody_canonical) h (exec_fbinit s ▸ ht)
  | ilace =>
    exact runPass_canonical (fun _ hb => canonicalScratch_of_wroteRaw (ilaceBody_wrote hb)) h (exec_ilace s ▸ ht)
  | sep1d =>
    exact runPass_canonical (fun _ hb => canonicalScratch_of_wroteC1d (sep1dBody_wrote hb)) h (exec_sep1d s ▸ ht)
  | sep2d =>
    exact runPass_canonical (fun _ hb => canonicalScratch_of_wroteC2d (sep2dBody_wrote hb)) h (exec_sep2d s ▸ ht)
  | iqcomb =>
    exact runPass_canonical (fun _ hb => canonicalScratch_of_wroteYiq (combineBody_wrote hb)) h (exec_iqcomb s ▸ ht)
  | motion => exact runPass_canonical (fun _ => motionBody_canonical) h (exec_motion s ▸ ht)
  | sep3d =>
    exact runPass_canonical (fun _ hb => canonicalScratch_of_wroteC3d (sep3dBody_wrote hb)) h (exec_sep3d s ▸ ht)
  | iqmix =>
    exact runPass_canonical (fun _ hb => canonicalScratch_of_wroteYiq (combineBody_wrote hb)) h (exec_iqmix s ▸ ht)
  | clpf =>
    exact runPass_canonical (fun _ hb => canonicalScratch_of_wroteYiq (clpfBody_wrote hb)) h (exec_clpf s ▸ ht)
  | ynr => exact runPass_canonical (fun _ hb => canonicalScratch_of_wroteYiq (ynrBody_wrote hb)) h (exec_ynr s ▸ ht)
  | cnr => exact runPass_canonical (fun _ hb => canonicalScratch_of_wroteYiq (cnrBody_wrote hb)) h (exec_cnr s ▸ ht)
  | yclean =>
    exact runPass_canonical (fun _ hb => canonicalScratch_of_wroteYiq (ycleanBody_wrote hb)) h (exec_yclean s ▸ ht)
  | torgb =>
    exact runPass_canonical (fun _ hb => canonicalScratch_of_wroteOut (torgbBody_wrote hb)) h (exec_torgb s ▸ ht)
  | overlay =>
    exact runPass_canonical (fun _ hb => canonicalScratch_of_wroteOut (overlayBody_wrote hb)) h (exec_overlay s ▸ ht)
  | storeprev =>
    cases ht
    exact storeprev_canonical h

/-! ### The host's side -/

theorem hostWrite_canonical {s t : State} (hs : Canonical s) (ht : Canonical t) : Canonical (hostWrite s t) := by
  rcases hostWrite_cases s t with ⟨-, e⟩ | ⟨-, e⟩ <;> rw [e]
  · exact hs
  · exact ht

theorem writeReg_canonical {s : State} (h : Canonical s) (v : Word) (n : Nat) : Canonical (writeReg s v n) := by
  obtain ⟨sh, ar, e⟩ := writeReg_cases s v n
  rw [e]
  exact h

theorem exec_command_canonical {i : Instr} {w : Word} (hi : encode i = .cmd w) {s t : State} (h : Canonical s)
    (ht : exec i s = .next t) : Canonical t := by
  cases i with
  | nop =>
    cases ht
    exact h
  | config =>
    cases ht
    exact h
  | decode =>
    rcases execDecode_cases s with ⟨-, e⟩ | ⟨-, e⟩ <;> rw [exec_decode, e] at ht <;> cases ht
    · exact h
    · exact raise_canonical h .notConfigured
  | resetprev =>
    cases ht
    obtain ⟨mem, fb, -⟩ := h
    exact ⟨mem, fb, zeroFrame_wf⟩
  | _ => cases hi

theorem issueCommand_canonical {w : Word} {s t : State} (h : Canonical s) (ht : issueCommand exec w s = .next t) :
    Canonical t := by
  rcases issueCommand_cases w s with ⟨-, i, code, e⟩ | ⟨-, e⟩ | ⟨-, e⟩ <;> rw [e] at ht
  · exact exec_command_canonical code h ht
  · cases ht
    exact raise_canonical h .illegalCommand
  · cases ht
    exact h

/-- Every host action keeps the canonical form: only LOAD, byte writes, commands and the reset touch a space or plane. -/
theorem hostAct_canonical {a : HostAction} {s t : State} (h : Canonical s) (ht : hostAct exec a s = .next t) :
    Canonical t := by
  have ⟨⟨f1, f2, out⟩, frames⟩ := h
  cases a with
  | wr reg v =>
    simp only [hostAct] at ht
    split at ht
    · exact issueCommand_canonical h ht
    · cases ht
      exact hostWrite_canonical h (writeReg_canonical h v reg)
  | wrBurst q =>
    cases ht
    exact hostWrite_canonical h h
  | rd reg =>
    cases ht
    exact h
  | load1 bytes =>
    cases ht
    exact hostWrite_canonical h ⟨⟨setBytes_wf bytes f1 0, f2, out⟩, frames⟩
  | load2 bytes =>
    cases ht
    exact hostWrite_canonical h ⟨⟨f1, setBytes_wf bytes f2 0, out⟩, frames⟩
  | put1 a b =>
    cases ht
    exact hostWrite_canonical h ⟨⟨setByte_wf f1 a b, f2, out⟩, frames⟩
  | put2 a b =>
    cases ht
    exact hostWrite_canonical h ⟨⟨f1, setByte_wf f2 a b, out⟩, frames⟩
  | getOut a =>
    cases ht
    exact h
  | reset =>
    cases ht
    exact reset_memory_wf s.free
  | estimate broken =>
    cases ht
    exact h

/-- Settles O57: while BUSY by the passes, else by the host actions. -/
theorem everyStepKeepsCanonicalMemory : Obligations.EveryStepKeepsCanonicalMemory := by
  intro s t h hstep
  by_cases busy : s.status.run = .busy
  · cases hd : decodeStage s.seq with
    | ok i =>
      rw [step_busy busy hd] at hstep
      exact exec_pass_canonical (encode_of_decodeStage hd) h hstep
    | error e => simp [step, stepWith, busy, passStep, hd] at hstep
  · cases hh : s.host with
    | nil =>
      rw [step_quiet busy hh] at hstep
      cases hstep
      exact h
    | cons a rest =>
      rw [step_host busy hh] at hstep
      exact hostAct_canonical (s := s.popHost) h hstep

end Sys2Proof.CanonicalMemory
end

section
/-! PROOFS. Bounds of the byte spaces: a 16-bit access is little-endian (20_memory R61, R65), and ILACE faults on a field
buffer that is too short or a frame beyond the plane capacity (40_sequencer R126; 20_memory R62, R66). -/

namespace Sys2Proof.ByteBounds

open Sys2Proof Sys2Proof.Machine Sys2Proof.Safety Sys2Proof.Laws

/-! ### 16-bit accesses -/

theorem toNat_append_bytes (hi lo : Byte) : (hi ++ lo).toNat = lo.toNat + 256 * hi.toNat := by
  rw [BitVec.toNat_append, ← Nat.shiftLeft_add_eq_or_of_lt lo.isLt, Nat.shiftLeft_eq]
  omega

theorem low_byte_toNat (v : Sample) : (v.extractLsb' 0 8).toNat = v.toNat % 256 := by simp

theorem high_byte_toNat (v : Sample) : (v.extractLsb' 8 8).toNat = v.toNat / 256 := by
  have hv := v.isLt
  rw [BitVec.extractLsb'_toNat, Nat.shiftRight_eq_div_pow]
  omega

theorem high_append_low (v : Sample) : v.extractLsb' 8 8 ++ v.extractLsb' 0 8 = v :=
  BitVec.eq_of_toNat_eq (by rw [toNat_append_bytes, low_byte_toNat, high_byte_toNat]; omega)

theorem memRead_beyond {sp : ByteSpace} {len a : Nat} (h : len < a + 2) (m : ByteBuf) :
    memRead sp len m a = .error .bounds := if_neg (by omega)

theorem memWrite_beyond {len a : Nat} (h : len < a + 2) (m : ByteBuf) (v : Sample) :
    memWrite len m a v = .error .bounds := if_neg (by omega)

/-- Settles O49. -/
theorem sixteenBitAccessIsLittleEndian : Obligations.SixteenBitAccessIsLittleEndian := by
  intro sp len a m v
  refine ⟨fun ha => ⟨⟨_, memRead_eq ha m, toNat_append_bytes _ _⟩, _, memWrite_eq ha m v, ?_⟩,
    fun ha => ⟨memWrite_beyond ha m v, memRead_beyond ha m⟩⟩
  have low (b : Byte) : byteAt sp (setByte (setByte m a (v.extractLsb' 0 8)) (a + 1) b) a = v.extractLsb' 0 8 := by
    rw [byteAt_setByte_other _ _ (by omega), byteAt_setByte_self]
  refine ⟨?_, ?_, ?_, fun a' h0 h1 => ?_⟩
  · rw [low, low_byte_toNat]
  · rw [byteAt_setByte_self, high_byte_toNat]
  · rw [memRead_eq ha, byteAt_setByte_self, low, high_append_low]
  · rw [byteAt_setByte_other _ _ h1, byteAt_setByte_other _ _ h0]

/-! ### The fault entry of a pass -/

/-- The fault entry as a host sees it (60_exceptions R236). -/
theorem faultEntered_raise (cause : FaultCause) (s : State) :
    FaultEntered cause (faultStage cause s) s (raise cause s) := by
  simp [FaultEntered, SameRegisters]

/-! ### The frame rows and the lines of the fields (20_memory R62) -/

theorem lt_frameRows_iff_FRH (c : ConfigRegs) (r : Nat) : r < c.frameRows ↔ (r : Int) < c.FRH := Int.lt_toNat

theorem lt_frameRows_iff (c : ConfigRegs) (r : Nat) : r < c.frameRows ↔ r + 1 < 2 * c.FH := by
  simp only [ConfigRegs.frameRows, ConfigRegs.FRH]
  omega

/-- The last sample of the last line of a field ends at the length of the field. -/
theorem fieldAddr_last (fw j : Nat) (h : 0 < fw) : fieldAddr fw j (fw - 1) + 2 = 2 * fw * (j + 1) := by
  obtain ⟨c, rfl⟩ := Nat.exists_eq_add_of_lt h
  simp only [fieldAddr, Nat.zero_add, Nat.add_sub_cancel]
  ring

/-! ### ILACE beyond its bounds -/

/-- One cell of the frame that cannot be filled makes ILACE fault. -/
theorem ilace_faults_of_cell {s : State} {r c : Nat} (hr : r < s.active.frameRows) (hc : c < s.active.FW)
    (bad : ∀ x, ∃ e, ilaceCell Config.impl s r c x = .error e) :
    ∃ t, exec .ilace s = .next t ∧ FaultEntered .bounds s.seq s t := by
  have body : ilaceBody Config.impl s s.scratch = .error .bounds := by
    have row (y : Scratch) : forRange 0 s.active.FW (ilaceCell Config.impl s r) y = .error .bounds :=
      forRange_must_fail (body := ilaceCell Config.impl s r) (Nat.zero_le c) hc (fun _ _ _ => ilaceCell_fault) bad y
    refine forRange_must_fail (Nat.zero_le r) hr (fun w y e h => ?_) (fun y => ⟨.bounds, row y⟩) _
    obtain ⟨c', z, -, -, h⟩ := forRange_fault h
    exact ilaceCell_fault h
  exact ⟨raise .bounds s, runPass_error body, faultEntered_raise .bounds s⟩

theorem ilaceCell_short {P : Impl} {s : State} {r c : Nat} (h : fieldSample s r c = .error .bounds) (x : Scratch) :
    ∃ e, ilaceCell P s r c x = .error e := ⟨.bounds, by rw [ilaceCell, h]; rfl⟩

/-- A cell outside the plane capacity cannot be written, whatever the field holds (20_memory R66). -/
theorem ilaceCell_outside {P : Impl} {s : State} {r c : Nat} (h : inCapacity P r c = false) (x : Scratch) :
    ∃ e, ilaceCell P s r c x = .error e := by
  cases hy : ilaceCell P s r c x with
  | error e => exact ⟨e, rfl⟩
  | ok y =>
    obtain ⟨v, -, hy⟩ := bind_ok hy
    obtain ⟨p, hp, -⟩ := bind_ok hy
    rw [(writeRaw_ok hp).2.1] at h
    cases h

/-- Settles O15: in each case one cell of the frame cannot be filled: the last sample of the short field, or the first
column or row beyond the capacity. -/
theorem ilaceRaisesBoundsFault : Obligations.IlaceRaisesBoundsFault := by
  rintro s (⟨hw, hh, short⟩ | ⟨hw, hh, short⟩ | ⟨hh, wide⟩ | ⟨hw, high⟩)
  · have lastLine := fieldAddr_last s.active.FW (s.active.FH - 1) hw
    rw [Nat.sub_add_cancel hh] at lastLine
    refine ilace_faults_of_cell (r := 2 * (s.active.FH - 1)) (c := s.active.FW - 1)
      ((lt_frameRows_iff _ _).2 (by omega)) (by omega) (ilaceCell_short ?_)
    rw [fieldSample, if_pos (by omega), Nat.mul_div_cancel_left _ (by decide)]
    exact memRead_beyond (by omega) _
  · have lastLine := fieldAddr_last s.active.FW (s.active.FH - 2) hw
    rw [show s.active.FH - 2 + 1 = s.active.FH - 1 by omega] at lastLine
    refine ilace_faults_of_cell (r := 2 * (s.active.FH - 2) + 1) (c := s.active.FW - 1)
      ((lt_frameRows_iff _ _).2 (by omega)) (by omega) (ilaceCell_short ?_)
    rw [fieldSample, if_neg (by omega), show (2 * (s.active.FH - 2) + 1) / 2 = s.active.FH - 2 by omega]
    exact memRead_beyond (by omega) _
  · exact ilace_faults_of_cell (r := 0) (c := 910) ((lt_frameRows_iff _ _).2 (by omega)) wide
      (ilaceCell_outside (by decide))
  · exact ilace_faults_of_cell (r := 526) (c := 0) ((lt_frameRows_iff_FRH _ _).2 high) hw
      (ilaceCell_outside (by decide))

end Sys2Proof.ByteBounds
end

section
/-! PROOFS. A DECODE under the conditions of 20_memory R68 completes: no access of any pass is out of bounds, so every pass
ends without a fault, and the passes follow one another in the order of 40_sequencer R124 to the end. -/

namespace Sys2Proof.FaultFree

open Sys2Proof Sys2Proof.Machine Sys2Proof.Safety Sys2Proof.Reference Sys2Proof.Laws Sys2Proof.StepLaws
  Sys2Proof.ByteBounds

/-! ### Computations that end without a fault -/

/-- The computation ends without a fault. -/
def Completes {α : Type} (m : Except FaultCause α) : Prop := ∃ a, m = .ok a

theorem Completes.ok {α : Type} (a : α) : Completes (.ok a) := ⟨a, rfl⟩

theorem Completes.bind {α β : Type} {m : Except FaultCause α} {f : α → Except FaultCause β} (hm : Completes m)
    (hf : ∀ a, Completes (f a)) : Completes (m >>= f) := by
  obtain ⟨a, rfl⟩ := hm
  exact hf a

theorem Completes.map {α β : Type} {m : Except FaultCause α} (hm : Completes m) (f : α → β) :
    Completes (m.map f) := by
  obtain ⟨a, rfl⟩ := hm
  exact ⟨f a, rfl⟩

theorem mapM_completes {α β : Type} {f : α → Except FaultCause β} {l : List α} (hf : ∀ a ∈ l, Completes (f a)) :
    Completes (l.mapM f) := by
  induction l with
  | nil => exact .ok []
  | cons a rest ih =>
    rw [List.mapM_cons]
    exact .bind (hf a List.mem_cons_self) fun _ =>
      .bind (ih fun b hb => hf b (List.mem_cons_of_mem _ hb)) fun _ => .ok _

theorem forRange_completes {σ : Type} {a b : Nat} {body : Nat → σ → Except FaultCause σ}
    (turn : ∀ v y, a ≤ v → v < b → Completes (body v y)) (x : σ) : Completes (forRange a b body x) := by
  obtain ⟨y, hy, -⟩ := forRange_run (fun _ _ => True)
    (fun v y ha hb _ => (turn v y ha hb).imp fun _ h => ⟨h, trivial⟩) (x := x) trivial
  exact ⟨y, hy⟩

/-! ### Bounds of the window (20_memory R66, R68) -/

theorem inFrame_nat (cfg : ConfigRegs) (r c : Nat) : inFrame cfg r c = true ↔ r < cfg.frameRows ∧ c < cfg.FW := by
  simp [inFrame, lt_frameRows_iff_FRH]

/-- A visible, active pixel of a configuration that meets the conditions of R68: two columns to its left and right stand in
the frame, and the frame and one row more in the capacity. -/
structure Pixel (P : Impl) (cfg : ConfigRegs) (r h : Nat) : Prop where
  left : 2 ≤ h
  right : h + 2 < cfg.FW
  row : (r : Int) < cfg.FRH
  rows : cfg.FRH + 1 ≤ (P.capRows : Int)
  cols : cfg.FW ≤ P.capCols

theorem pixel_of_boundsFree {P : Impl} {s : State} (hb : BoundsFree P s) {r h : Nat} (hr : s.active.FVL ≤ r)
    (hr' : r < s.active.frameRows) (hh : s.active.AVS ≤ h) (hh' : h < s.active.AVE) : Pixel P s.active r h := by
  obtain ⟨cols, rows, -, -, window⟩ := hb
  have row := (lt_frameRows_iff_FRH s.active r).1 hr'
  obtain ⟨left, right⟩ := window (by omega) (by omega)
  exact ⟨by omega, by omega, row, rows, cols⟩

section Pixel

variable {P : Impl} {cfg : ConfigRegs} {r h : Nat}

/-- What a pass may reach around a pixel: rows up to the one after the frame, columns up to two away. -/
theorem Pixel.inCapacity (p : Pixel P cfg r h) {r' h' : Int} (hr : 0 ≤ r') (hr' : r' ≤ cfg.FRH)
    (hh : (h : Int) - 2 ≤ h') (hh' : h' ≤ (h : Int) + 2) : inCapacity P r' h' = true := by
  obtain ⟨left, right, -, rows, cols⟩ := p
  simp only [Machine.inCapacity, Bool.and_eq_true, decide_eq_true_eq]
  omega

theorem Pixel.inFrame (p : Pixel P cfg r h) {h' : Int} (hh' : h' ≤ (h : Int) + 2) : inFrame cfg r h' = true := by
  obtain ⟨-, right, row, -, -⟩ := p
  simp only [Machine.inFrame, Bool.and_eq_true, decide_eq_true_eq]
  omega

variable {α : Type}

theorem Pixel.readCell (p : Pixel P cfg r h) (kind : CellKind α) (plane : Plane α) {r' h' : Int} (hr : 0 ≤ r')
    (hr' : r' ≤ cfg.FRH) (hh : (h : Int) - 2 ≤ h') (hh' : h' ≤ (h : Int) + 2) :
    Completes (readCell P kind plane r' h') := ⟨_, readCell_eq (p.inCapacity hr hr' hh hh') kind plane⟩

theorem Pixel.readBeside (p : Pixel P cfg r h) (kind : CellKind α) (plane : Plane α) {h' : Int}
    (hh : (h : Int) - 2 ≤ h' := by omega) (hh' : h' ≤ (h : Int) + 2 := by omega) :
    Completes (Machine.readCell P kind plane r h') := p.readCell kind plane (by omega) p.row.le hh hh'

theorem Pixel.writeBeside [DecidableEq α] (p : Pixel P cfg r h) (kind : CellKind α) (plane : Plane α) (v : α) {h' : Int}
    (hh : (h : Int) - 2 ≤ h' := by omega) (hh' : h' ≤ (h : Int) + 2 := by omega) :
    Completes (writeCell P kind plane r h' v) :=
  ⟨_, writeCell_eq (p.inCapacity (by omega) p.row.le hh hh') kind plane v⟩

theorem Pixel.readRaw (p : Pixel P cfg r h) (fb : FrameBuffer) {h' : Int} (hh : (h : Int) - 2 ≤ h' := by omega)
    (hh' : h' ≤ (h : Int) + 2 := by omega) : Completes (readRaw P cfg fb r h') :=
  ⟨_, readRaw_eq (p.inFrame hh') (p.inCapacity (by omega) p.row.le hh hh') fb⟩

/-- Each channel of a pixel ends within `OUTLEN` (20_memory R69). -/
theorem Pixel.outAddr_le (p : Pixel P cfg r h) {ch : Nat} (hch : ch ≤ 2) :
    outAddr cfg.FW r h ch + 2 ≤ cfg.outLen := by
  obtain ⟨-, right, row, -, -⟩ := p
  have hrows : r + 1 ≤ cfg.frameRows := (lt_frameRows_iff_FRH cfg r).2 row
  calc outAddr cfg.FW r h ch + 2 ≤ 6 * ((r + 1) * cfg.FW) := by
        simp only [outAddr, Nat.add_mul, Nat.mul_assoc, Nat.mul_comm cfg.FW 3, Nat.mul_left_comm r 3]
        omega
    _ ≤ 6 * (cfg.frameRows * cfg.FW) := Nat.mul_le_mul_left 6 (Nat.mul_le_mul_right _ hrows)
    _ = cfg.outLen := by
        simp only [ConfigRegs.outLen]
        ring

theorem Pixel.readOut (p : Pixel P cfg r h) (m : ByteBuf) {ch : Nat} (hch : ch ≤ 2 := by omega) :
    Completes (memRead .out cfg.outLen m (outAddr cfg.FW r h ch)) := ⟨_, memRead_eq (p.outAddr_le hch) m⟩

theorem Pixel.writeOut (p : Pixel P cfg r h) (m : ByteBuf) (v : Sample) {ch : Nat} (hch : ch ≤ 2 := by omega) :
    Completes (memWrite cfg.outLen m (outAddr cfg.FW r h ch) v) := ⟨_, memWrite_eq (p.outAddr_le hch) m v⟩

end Pixel

/-! ### One pixel of each pass -/

section Columns

variable {P : Impl} {cfg : ConfigRegs} {r h : Nat}

theorem sep1dColumn_completes (p : Pixel P cfg r h) (x : Scratch) : Completes (sep1dColumn P cfg r h x) :=
  .bind (p.readRaw _) fun _ => .bind (p.readRaw _) fun _ => .bind (p.readRaw _) fun _ =>
    .bind (p.writeBeside _ _ _) fun _ => .ok _

/-- SEP2D reads the lines two above and two below: it runs on the rows that have both (42 R160). -/
theorem sep2dColumn_completes (p : Pixel P cfg r h) (above : 4 ≤ r) (below : (r : Int) < cfg.FRH - 1) (x : Scratch) :
    Completes (sep2dColumn P cfg r h x) := by
  have near (r' h' : Int) (hr : (r : Int) - 2 ≤ r' := by omega) (hr' : r' ≤ (r : Int) + 2 := by omega)
      (hh : (h : Int) - 2 ≤ h' := by omega) (hh' : h' ≤ h := by omega) :
      Completes (readCell P (realKind .c1d) x.fb.c1d r' h') :=
    p.readCell _ _ (by omega) (by omega) hh (by omega)
  exact .bind (near _ _) fun _ => .bind (near _ _) fun _ => .bind (near _ _) fun _ => .bind (near _ _) fun _ =>
    .bind (near _ _) fun _ => .bind (near _ _) fun _ => .bind (p.writeBeside _ _ _) fun _ => .ok _

theorem estimateFrom2d_completes (p : Pixel P cfg r h) (fb : FrameBuffer) : Completes (estimateFrom2d P fb r h) :=
  p.readBeside _ _

theorem estimateMixed_completes (p : Pixel P cfg r h) (fb : FrameBuffer) : Completes (estimateMixed P fb r h) :=
  .bind (p.readBeside _ _) fun _ => .bind (p.readBeside _ _) fun _ => .bind (p.readBeside _ _) fun _ => .ok _

theorem combineColumn_completes {est : FrameBuffer → Nat → Nat → Except FaultCause R} (p : Pixel P cfg r h)
    (hest : ∀ fb, Completes (est fb r h)) (x : Scratch) : Completes (combineColumn P cfg est r h x) :=
  .bind (hest x.fb) fun _ => .bind (p.readRaw _) fun _ => .bind (p.writeBeside _ _ _) fun _ => .ok _

theorem sep3dColumn_completes {s : State} (p : Pixel P s.active r h) (x : Scratch) :
    Completes (sep3dColumn P s r h x) :=
  .bind (p.readBeside _ _) fun _ => .bind (p.readRaw _) fun _ => .bind (p.writeBeside _ _ _) fun _ => .ok _

/-- CLPF reads and writes two columns to the left of the one it feeds (45 R191). -/
theorem clpfColumn_completes (p : Pixel P cfg r h) (taps : Taps × Taps) (x : Scratch) :
    Completes (clpfColumn P taps r h x) := by
  have shift : (Config.clpfShift : Int) = 2 := rfl
  exact .bind (p.readBeside _ _) fun _ => .bind (p.readBeside _ _) fun _ => .bind (p.writeBeside _ _ _) fun _ => .ok _

theorem denoiseColumn_completes (p : Pixel P cfg r h) (f : Nat → Yiq → Yiq) (x : Scratch) :
    Completes (denoiseColumn P cfg f r h x) :=
  .bind (p.readBeside _ _) fun _ => .bind (p.writeBeside _ _ _) fun _ => .ok _

theorem ycleanColumn_completes (p : Pixel P cfg r h) (x : Scratch) : Completes (ycleanColumn P r h x) :=
  .bind (p.readBeside _ _) fun _ => .bind (p.readBeside _ _) fun _ => .bind (p.writeBeside _ _ _) fun _ => .ok _

theorem torgbColumn_completes (p : Pixel P cfg r h) (x : Scratch) : Completes (torgbColumn P cfg r h x) :=
  .bind (p.readBeside _ _) fun _ => .bind (p.writeOut _ _) fun _ => .bind (p.writeOut _ _) fun _ =>
    .bind (p.writeOut _ _) fun _ => .ok _

theorem tintChannel_completes (p : Pixel P cfg r h) (k : R) (m : ByteBuf) {ch : Nat} (hch : ch ≤ 2 := by omega) :
    Completes (tintChannel cfg k r h ch m) :=
  .bind (p.readOut m) fun _ => p.writeOut m _

theorem overlayColumn_completes (p : Pixel P cfg r h) (x : Scratch) : Completes (overlayColumn P cfg r h x) :=
  .bind (p.readBeside _ _) fun _ => .bind (tintChannel_completes p _ _) fun _ =>
    .bind (tintChannel_completes p _ _) fun _ => .ok _

end Columns

/-! ### The body of each pass -/

section Bodies

variable {P : Impl} {s : State}

/-- A loop over the visible rows and active columns, with `start` at the start of each row, completes when every pixel of
it does. -/
theorem window_completes (hb : BoundsFree P s) (start : Nat → Scratch → Scratch)
    {column : Nat → Nat → Scratch → Except FaultCause Scratch}
    (turn : ∀ r h y, Pixel P s.active r h → Completes (column r h y)) (x : Scratch) :
    Completes (forRange s.active.FVL s.active.frameRows
      (fun r y => forRange s.active.AVS s.active.AVE (column r) (start r y)) x) :=
  forRange_completes (fun r y hr hr' => forRange_completes (fun h z hh hh' =>
    turn r h z (pixel_of_boundsFree hb hr hr' hh hh')) (start r y)) x

theorem fieldSample_completes (hb : BoundsFree P s) {r c : Nat} (hr : r < s.active.frameRows) (hc : c < s.active.FW) :
    Completes (fieldSample s r c) := by
  obtain ⟨-, -, len1, len2, -⟩ := hb
  have hrow := (lt_frameRows_iff s.active r).1 hr
  have upTo (j n : Nat) (hj : j + 1 ≤ n) : fieldAddr s.active.FW j c + 2 ≤ 2 * s.active.FW * n := by
    have hlast := fieldAddr_last s.active.FW j (by omega)
    have hmono : fieldAddr s.active.FW j c ≤ fieldAddr s.active.FW j (s.active.FW - 1) := by
      simp only [fieldAddr]
      omega
    have := Nat.mul_le_mul_left (2 * s.active.FW) hj
    omega
  unfold fieldSample
  split
  · exact ⟨_, memRead_eq ((upTo _ _ (by omega)).trans len1) _⟩
  · exact ⟨_, memRead_eq ((upTo _ _ (by omega)).trans len2) _⟩

theorem writeRaw_completes (hb : BoundsFree P s) {r c : Nat} (hr : r < s.active.frameRows) (hc : c < s.active.FW)
    (fb : FrameBuffer) (v : Sample) : Completes (writeRaw P s.active fb r c v) := by
  obtain ⟨cols, rows, -⟩ := hb
  have row := (lt_frameRows_iff_FRH s.active r).1 hr
  have capacity : inCapacity P r c = true := (inCapacity_nat P r c).2 ⟨by omega, by omega⟩
  rw [writeRaw, if_pos ((inFrame_nat s.active r c).2 ⟨hr, hc⟩)]
  exact ⟨_, writeCell_eq capacity _ _ _⟩

theorem ilaceBody_completes (hb : BoundsFree P s) (x : Scratch) : Completes (ilaceBody P s x) := by
  refine forRange_completes (fun r y _ hr => forRange_completes (fun c z _ hc => ?_) y) x
  exact .bind (fieldSample_completes hb hr hc) fun v => .bind (writeRaw_completes hb hr hc z.fb v) fun _ => .ok _

theorem sep1dBody_completes (hb : BoundsFree P s) (x : Scratch) : Completes (sep1dBody P s x) :=
  window_completes hb (fun r y => { y with work := sep1dLineStart P r y.work })
    (fun _ _ y p => sep1dColumn_completes p y) _

theorem sep2dBody_completes (hb : BoundsFree P s) (x : Scratch) : Completes (sep2dBody P s x) := by
  refine forRange_completes (fun r y hr hr' => forRange_completes (fun h z hh hh' => ?_) y) x
  have visible : r < s.active.frameRows := (lt_frameRows_iff_FRH s.active r).2 (by omega)
  exact sep2dColumn_completes (pixel_of_boundsFree hb (by omega) visible hh hh') (by omega) (by omega) z

theorem combineBody_completes (hb : BoundsFree P s) {est : FrameBuffer → Nat → Nat → Except FaultCause R}
    (hest : ∀ {r h}, Pixel P s.active r h → ∀ fb, Completes (est fb r h)) (x : Scratch) :
    Completes (combineBody P est s x) :=
  window_completes hb (fun r y => { y with work := combineLineStart r y.work })
    (fun _ _ y p => combineColumn_completes p (hest p) y) _

theorem motionBody_completes (h : s.estimate = none) (x : Scratch) : Completes (motionBody P s x) := by
  rcases motionBody_cases P s x with ⟨out, -⟩ | ⟨-, ok⟩
  · rw [motionAnswer_inRange h] at out
    cases out
  · exact ⟨_, ok⟩

theorem sep3dBody_completes (hb : BoundsFree P s) (x : Scratch) : Completes (sep3dBody P s x) :=
  window_completes hb (fun _ y => y) (fun _ _ y p => sep3dColumn_completes p y) x

theorem clpfBody_completes (hb : BoundsFree P s) (x : Scratch) : Completes (clpfBody P s x) :=
  window_completes hb (fun _ y => { y with work := clpfLineStart (lowPassTaps P s.active.clpfHq) y.work })
    (fun _ _ y p => clpfColumn_completes p _ y) x

theorem readLine_completes (hb : BoundsFree P s) {r : Nat} (hr : s.active.FVL ≤ r) (hr' : r < s.active.frameRows)
    (fb : FrameBuffer) (part : Yiq → R) : Completes (readLine P s.active fb part r) :=
  mapM_completes fun h hh => by
    obtain ⟨c, hc, rfl⟩ : ∃ c ∈ List.range' s.active.AVS (s.active.AVE - s.active.AVS), h = (c : Int) := by
      simpa using hh
    obtain ⟨hlo, hhi⟩ := List.mem_range'_1.1 hc
    exact ((pixel_of_boundsFree hb hr hr' hlo (by omega)).readBeside _ _).map part

theorem denoiseLine_completes (hb : BoundsFree P s) {r : Nat} (hr : s.active.FVL ≤ r) (hr' : r < s.active.frameRows)
    (f : Nat → Yiq → Yiq) (x : Scratch) :
    Completes (forRange s.active.AVS s.active.AVE (denoiseColumn P s.active f r) x) :=
  forRange_completes (fun _ y hh hh' => denoiseColumn_completes (pixel_of_boundsFree hb hr hr' hh hh') f y) x

theorem ynrBody_completes (hb : BoundsFree P s) (x : Scratch) : Completes (ynrBody P s x) :=
  forRange_completes (fun _ y hr hr' =>
    .bind (readLine_completes hb hr hr' y.fb _) fun _ => denoiseLine_completes hb hr hr' _ y) x

theorem cnrBody_completes (hb : BoundsFree P s) (x : Scratch) : Completes (cnrBody P s x) :=
  forRange_completes (fun _ y hr hr' => .bind (readLine_completes hb hr hr' y.fb _) fun _ =>
    .bind (readLine_completes hb hr hr' y.fb _) fun _ => denoiseLine_completes hb hr hr' _ y) x

theorem ycleanBody_completes (hb : BoundsFree P s) (x : Scratch) : Completes (ycleanBody P s x) :=
  window_completes hb (fun r y => { y with work := trackerVisit r y.work })
    (fun _ _ y p => ycleanColumn_completes p y) _

theorem torgbBody_completes (hb : BoundsFree P s) (x : Scratch) : Completes (torgbBody P s x) :=
  window_completes hb (fun _ y => y) (fun _ _ y p => torgbColumn_completes p y) x

theorem overlayBody_completes (hb : BoundsFree P s) (x : Scratch) : Completes (overlayBody P s x) :=
  window_completes hb (fun _ y => y) (fun _ _ y p => overlayColumn_completes p y) x

theorem fbinitBody_completes (h : s.active.BLK < s.active.WHT) (x : Scratch) : Completes (fbinitBody s x) := by
  rcases fbinitBody_cases s x with ⟨hbad, -⟩ | ⟨-, ok⟩
  · omega
  · exact ⟨_, ok⟩

end Bodies

/-! ### Where a pass ends, and what it leaves alone -/

theorem sameRegisters_refl (s : State) : SameRegisters s s :=
  ⟨rfl, rfl, rfl, rfl, rfl, rfl, rfl, fun _ => rfl, fun _ => rfl⟩

theorem sameRegisters_trans {s t u : State} (h : SameRegisters s t) (h' : SameRegisters t u) : SameRegisters s u := by
  obtain ⟨shadow, active, args, log, host, answer, estimate, f1, f2⟩ := h
  obtain ⟨shadow', active', args', log', host', answer', estimate', f1', f2'⟩ := h'
  exact ⟨shadow'.trans shadow, active'.trans active, args'.trans args, log'.trans log, host'.trans host,
    answer'.trans answer, estimate'.trans estimate, fun a => (f1' a).trans (f1 a), fun a => (f2' a).trans (f2 a)⟩

theorem finishPass_endsAt (i : Instr) (release : Nat → Work → Work) (s : State) (x : Scratch) :
    EndsAt (nextStage s.active i) s (finishPass i release s x) := by
  refine ⟨finishPass_seq i release s x, ?_⟩
  split
  · exact finishPass_status_end ‹_› release x
  · exact finishPass_status_on ‹_› release x

theorem finishPass_sameRegisters (i : Instr) (release : Nat → Work → Work) (s : State) (x : Scratch) :
    SameRegisters s (finishPass i release s x) := by
  simp [SameRegisters]

/-- A pass whose body completes ends at the next stage of the table and leaves the registers and `PREV` alone. -/
theorem exec_passFrame_of_completes {i : Instr} {release : Nat → Work → Work}
    {body : State → Scratch → Except FaultCause Scratch} {s : State} (frame : exec i s = runPass i release body s)
    (h : Completes (body s s.scratch)) : ∃ t, exec i s = .next t ∧ PassFrame (nextStage s.active i) s t := by
  obtain ⟨x, hx⟩ := h
  exact ⟨_, frame.trans (runPass_ok hx), finishPass_endsAt i release s x, finishPass_sameRegisters i release s x,
    finishPass_prev i release s x⟩

/-- A pass after others: what all of them leave alone, and where the last one ends. -/
theorem passFrame_trans {c d : StageCode} (hc : c ≠ 0) {s t u : State} (h : PassFrame c s t) (h' : PassFrame d t u) :
    PassFrame d s u := by
  obtain ⟨⟨-, status⟩, same, prev⟩ := h
  obtain ⟨⟨seq', status'⟩, same', prev'⟩ := h'
  rw [if_neg hc] at status
  exact ⟨⟨seq', by rw [status', status]⟩, sameRegisters_trans same same', prev'.trans prev⟩

/-! ### Every pass of a fault-free DECODE -/

/-- The conditions under which no pass of a DECODE faults: R68, a calibrated picture, an estimator that is `MOTION_EST`. -/
def Ready (s : State) : Prop := BoundsFree Config.impl s ∧ s.active.BLK < s.active.WHT ∧ s.estimate = none

theorem Ready.congr {s t : State} (h : Ready s) (same : SameRegisters s t) : Ready t := by
  obtain ⟨-, active, args, -, -, -, estimate, -⟩ := same
  simpa only [Ready, BoundsFree, active, args, estimate] using h

/-- A pass: an operation with a stage code of its own. -/
abbrev IsPass (i : Instr) : Prop := stageCode i ≠ 0x00#8

theorem decodeStage_stageCode {i : Instr} (h : IsPass i) : decodeStage (stageCode i) = .ok i := by
  cases i with
  | nop => cases h rfl
  | config => cases h rfl
  | decode => cases h rfl
  | resetprev => cases h rfl
  | _ => rfl

/-- Every pass but STOREPREV ends without a fault. -/
theorem exec_passFrame {s : State} (h : Ready s) {i : Instr} (pass : IsPass i) (ne : i ≠ .storeprev) :
    ∃ t, exec i s = .next t ∧ PassFrame (nextStage s.active i) s t := by
  obtain ⟨hb, calibrated, estimate⟩ := h
  cases i with
  | nop => cases pass rfl
  | config => cases pass rfl
  | decode => cases pass rfl
  | resetprev => cases pass rfl
  | fbinit => exact exec_passFrame_of_completes (exec_fbinit s) (fbinitBody_completes calibrated _)
  | ilace => exact exec_passFrame_of_completes (exec_ilace s) (ilaceBody_completes hb _)
  | sep1d => exact exec_passFrame_of_completes (exec_sep1d s) (sep1dBody_completes hb _)
  | sep2d => exact exec_passFrame_of_completes (exec_sep2d s) (sep2dBody_completes hb _)
  | iqcomb => exact exec_passFrame_of_completes (exec_iqcomb s) (combineBody_completes hb estimateFrom2d_completes _)
  | motion => exact exec_passFrame_of_completes (exec_motion s) (motionBody_completes estimate _)
  | sep3d => exact exec_passFrame_of_completes (exec_sep3d s) (sep3dBody_completes hb _)
  | iqmix => exact exec_passFrame_of_completes (exec_iqmix s) (combineBody_completes hb estimateMixed_completes _)
  | clpf => exact exec_passFrame_of_completes (exec_clpf s) (clpfBody_completes hb _)
  | ynr => exact exec_passFrame_of_completes (exec_ynr s) (ynrBody_completes hb _)
  | cnr => exact exec_passFrame_of_completes (exec_cnr s) (cnrBody_completes hb _)
  | yclean => exact exec_passFrame_of_completes (exec_yclean s) (ycleanBody_completes hb _)
  | torgb => exact exec_passFrame_of_completes (exec_torgb s) (torgbBody_completes hb _)
  | overlay => exact exec_passFrame_of_completes (exec_overlay s) (overlayBody_completes hb _)
  | storeprev => exact absurd rfl ne

/-! ### The sequence of passes (30_encoding R99; 40_sequencer R124) -/

/-- The passes a mode flag adds to the sequence. -/
def passesIf (on : Bool) (passes : List Instr) : List Instr := if on then passes else []

/-- The passes of a DECODE but STOREPREV, in order. -/
def framePasses (c : ConfigRegs) : List Instr :=
  List.flatten [[.fbinit, .ilace, .sep1d, .sep2d, .iqcomb], passesIf c.m3d [.motion, .sep3d, .iqmix],
    passesIf c.clpfOn [.clpf], [.ynr, .cnr, .yclean, .torgb], passesIf (c.ovl && c.m3d) [.overlay]]

/-- The pass after them: STOREPREV in 3D mode. -/
def lastPass (c : ConfigRegs) : List Instr := passesIf c.m3d [.storeprev]

/-- The stage a sequence of passes starts at, 0x00 for no pass. -/
def headStage : List Instr → StageCode
  | [] => 0x00#8
  | i :: _ => stageCode i

/-- Each pass of the sequence leads to the one after it, the last one to the end (40_sequencer R124). -/
def Follows (c : ConfigRegs) : List Instr → Prop
  | [] => True
  | i :: rest => nextStage c i = headStage rest ∧ Follows c rest

/-- The table of R124 leads through the sequence, in each of the eight settings of the mode flags. -/
theorem framePasses_follows (c : ConfigRegs) : Follows c (framePasses c ++ lastPass c) := by
  cases hm : c.m3d <;> cases hl : c.clpfOn <;> cases ho : c.ovl <;>
    simp [framePasses, lastPass, passesIf, Follows, headStage, nextStage, hm, hl, ho]

theorem framePasses_pass (c : ConfigRegs) : ∀ i ∈ framePasses c, IsPass i ∧ i ≠ .storeprev := by
  unfold framePasses
  cases c.m3d <;> cases c.clpfOn <;> cases c.ovl <;> decide

theorem length_framePasses (c : ConfigRegs) :
    (framePasses c).length + (lastPass c).length = passCount c.m3d c.clpfOn c.ovl := by
  unfold framePasses lastPass passCount
  cases c.m3d <;> cases c.clpfOn <;> cases c.ovl <;> rfl

/-! ### Runs -/

theorem run_step {s t : State} (h : step s = .next t) (n : Nat) :
    Host.Core.run core (n + 1) s = Host.Core.run core n t := by
  have taken : core.step s = .next t := h
  simp only [Host.Core.run, taken]

theorem run_add (m n : Nat) {s t : State} (h : Host.Core.run core m s = .next t) :
    Host.Core.run core (m + n) s = Host.Core.run core n t := by
  induction m generalizing s with
  | zero =>
    cases h
    rw [Nat.zero_add]
  | succ m ih =>
    rw [Nat.succ_add]
    simp only [Host.Core.run] at h ⊢
    cases hs : core.step s with
    | next u =>
      rw [hs] at h
      exact ih h
    | fault e => simp [hs] at h
    | refused e => simp [hs] at h

/-- A pass takes one step of the BUSY block whose `SEQ` names it. -/
theorem step_pass {s : State} {i : Instr} (busy : s.status.run = .busy) (pass : IsPass i) (seq : s.seq = stageCode i) :
    step s = exec i s :=
  step_busy busy (by rw [seq, decodeStage_stageCode pass])

/-- Before the end of the sequence the block is as busy as at its start. -/
theorem passFrame_status {c : StageCode} (hc : c ≠ 0) {s t : State} (h : PassFrame c s t) :
    t.status = s.status := by
  obtain ⟨⟨-, status⟩, -⟩ := h
  rwa [if_neg hc] at status

/-- From a BUSY block `s`, a sequence of passes that do not fault, one a step, leads to the stage after it. -/
theorem run_passes {s : State} (busy : s.status.run = .busy) (ready : Ready s) (passes rest : List Instr)
    (mem : ∀ i ∈ passes, IsPass i ∧ i ≠ .storeprev) (follows : Follows s.active (passes ++ rest)) {t : State}
    (start : PassFrame (headStage (passes ++ rest)) s t) :
    ∃ u, Host.Core.run core passes.length t = .next u ∧ PassFrame (headStage rest) s u := by
  induction passes generalizing t with
  | nil => exact ⟨t, rfl, start⟩
  | cons i passes ih =>
    obtain ⟨pass, ne⟩ := mem i List.mem_cons_self
    obtain ⟨next, follows⟩ := follows
    have ⟨⟨seq, _⟩, same, _⟩ := start
    have ⟨_, active, _⟩ := same
    obtain ⟨u, hu, frame⟩ := exec_passFrame (ready.congr same) pass ne
    rw [active, next] at frame
    obtain ⟨v, hv, done⟩ := ih (fun j hj => mem j (List.mem_cons_of_mem _ hj)) follows (passFrame_trans pass start frame)
    have first : step t = .next u := by
      rw [step_pass (by rw [passFrame_status pass start, busy]) pass seq, hu]
    refine ⟨v, ?_, done⟩
    rw [List.length_cons, run_step first, hv]

/-! ### The whole DECODE -/

/-- STOREPREV ends the sequence with `PREV` the frame (40_sequencer R127). -/
theorem exec_storeprev_end (s : State) : ∃ t, exec .storeprev s = .next t ∧ EndsAt 0x00#8 s t ∧ SameRegisters s t
    ∧ t.prev = t.fb :=
  ⟨_, exec_storeprev s, finishPass_endsAt .storeprev keepWork { s with prev := s.fb } s.scratch,
    finishPass_sameRegisters .storeprev keepWork { s with prev := s.fb } s.scratch, by simp [State.scratch]⟩

/-- The state DECODE starts the passes from (40_sequencer R122). -/
def decodeStart (s : State) (rest : List HostAction) : State :=
  { s with host := rest, status := { s.status with done := false, run := .busy }, seq := 0x10#8 }

theorem step_decode {s : State} {rest : List HostAction} (idle : s.status.run = .idle)
    (configured : s.status.configured = true) (hh : s.host = .wr 0 0x00000002#32 :: rest) :
    step s = .next (decodeStart s rest) := by
  rw [ControlState.idleStepIssuesTheCommand s _ rest .decode idle hh rfl rfl, exec_decode]
  rcases execDecode_cases { s with host := rest } with ⟨-, e⟩ | ⟨unconfigured, -⟩
  · exact e
  · simp [configured] at unconfigured

/-- The passes of a DECODE up to STOREPREV, from the state it starts them from. -/
theorem run_framePasses {s : State} (busy : s.status.run = .busy) (ready : Ready s) (seq : s.seq = 0x10#8) :
    ∃ u, Host.Core.run core (framePasses s.active).length s = .next u
      ∧ PassFrame (headStage (lastPass s.active)) s u :=
  run_passes busy ready _ _ (framePasses_pass s.active) (framePasses_follows s.active)
    ⟨⟨seq, rfl⟩, sameRegisters_refl s, rfl⟩

/-- Settles O60: the command, the passes of the frame, and in 3D mode STOREPREV. -/
theorem faultFreeDecodeCompletes : Obligations.FaultFreeDecodeCompletes := by
  intro s rest idle configured hh bounds calibrated estimate
  have ready : Ready (decodeStart s rest) := ⟨bounds, calibrated, estimate⟩
  obtain ⟨u, hu, frame⟩ := run_framePasses rfl ready rfl
  have run : Host.Core.run core (1 + passCount s.active.m3d s.active.clpfOn s.active.ovl) s
      = Host.Core.run core (lastPass s.active).length u := by
    rw [Nat.add_comm, run_step (step_decode idle configured hh), ← length_framePasses]
    exact run_add _ _ hu
  rw [run]
  cases hm : s.active.m3d with
  | false =>
    have last : lastPass s.active = [] := by simp [lastPass, passesIf, hm]
    rw [show (decodeStart s rest).active = s.active from rfl, last] at frame
    obtain ⟨⟨seq, status⟩, same, prev⟩ := frame
    exact ⟨u, by rw [last]; rfl, status, seq, same, fun _ => prev, nofun⟩
  | true =>
    have last : lastPass s.active = [.storeprev] := by simp [lastPass, passesIf, hm]
    rw [show (decodeStart s rest).active = s.active from rfl, last] at frame
    have busy : u.status = (decodeStart s rest).status := passFrame_status (by decide) frame
    obtain ⟨⟨seq, -⟩, same, -⟩ := frame
    obtain ⟨t, ht, ⟨seq', status'⟩, same', prev'⟩ := exec_storeprev_end u
    have stored : step u = .next t := by
      rw [step_pass (i := .storeprev) (by rw [busy]; rfl) (by decide) seq, ht]
    refine ⟨t, by rw [last]; exact run_step stored 0, ?_, seq', sameRegisters_trans same same', nofun, fun _ => prev'⟩
    rw [status', busy]
    rfl

end Sys2Proof.FaultFree
end

section
/-! PROOFS. The encoding (30_encoding R92, R93, R96, R97): the encoder and the decoder agree both ways, the legal words and
codes are the encodings, and every other one is rejected by name. -/

namespace Sys2Proof.Encoding

open Sys2Proof Sys2Proof.Laws Sys2Proof.StepLaws

/-! ### Encode, then decode -/

theorem encodesAndDecodes : ∀ i : Instr, EncodesAndDecodes.Statement i
  | .nop => EncodesAndDecodes.nop
  | .config => EncodesAndDecodes.config
  | .decode => EncodesAndDecodes.decode
  | .resetprev => EncodesAndDecodes.resetprev
  | .fbinit => EncodesAndDecodes.fbinit
  | .ilace => EncodesAndDecodes.ilace
  | .sep1d => EncodesAndDecodes.sep1d
  | .sep2d => EncodesAndDecodes.sep2d
  | .iqcomb => EncodesAndDecodes.iqcomb
  | .motion => EncodesAndDecodes.motion
  | .sep3d => EncodesAndDecodes.sep3d
  | .iqmix => EncodesAndDecodes.iqmix
  | .clpf => EncodesAndDecodes.clpf
  | .ynr => EncodesAndDecodes.ynr
  | .cnr => EncodesAndDecodes.cnr
  | .yclean => EncodesAndDecodes.yclean
  | .torgb => EncodesAndDecodes.torgb
  | .overlay => EncodesAndDecodes.overlay
  | .storeprev => EncodesAndDecodes.storeprev

theorem encode_wellFormed (i : Instr) : (encode i).wellFormed = true := (encodesAndDecodes i).1

theorem decode_encode (i : Instr) : decode (encode i) = .ok i := (encodesAndDecodes i).2

/-- Settles O1. -/
theorem encodedOperationDecodesToItself : Obligations.EncodedOperationDecodesToItself :=
  fun i _ => ⟨encode_wellFormed i, decode_encode i⟩

/-! ### Decode, then encode -/

theorem encode_of_decode {op : OpWord} {i : Instr} (h : decode op = .ok i) : encode i = op := by
  cases op with
  | cmd w => exact encode_of_decodeCommand h
  | uop c => exact encode_of_decodeStage h

theorem decode_eq_ok_iff (op : OpWord) (i : Instr) : decode op = .ok i ↔ encode i = op :=
  ⟨encode_of_decode, fun h => h ▸ decode_encode i⟩

/-! ### The legal words are the encodings (30_encoding R93, R96) -/

/-- R96, field by field. -/
theorem legalCommandWord_iff (w : Word) : legalCommandWord w = true ↔ w.extractLsb 31 8 = 0#24
    ∧ (w.extractLsb 7 0 = 0x00#8 ∨ w.extractLsb 7 0 = 0x01#8 ∨ w.extractLsb 7 0 = 0x02#8
      ∨ w.extractLsb 7 0 = 0x03#8) := by
  have low : w.extractLsb 7 0 = w.extractLsb' 0 8 := rfl
  simp [legalCommandWord, low]

/-- R96, by value: the two fields are the quotient and the remainder by 256. -/
theorem toNat_lt_of_legal {w : Word} (h : legalCommandWord w = true) : w.toNat < 4 := by
  obtain ⟨high, low⟩ := (legalCommandWord_iff w).1 h
  have bound := w.isLt
  simp only [BitVec.toNat_eq, BitVec.extractLsb_toNat, Nat.shiftRight_eq_div_pow, BitVec.toNat_ofNat] at high low
  omega

/-- Every legal command word is a row of the table (30_encoding R92). -/
theorem decodeCommand_of_legal {w : Word} (h : legalCommandWord w = true) : ∃ i, decodeCommand w = .ok i := by
  have hrows : ∀ k < 4, (selectRow commandTable (BitVec.ofNat 32 k)).isSome = true := by decide
  have hrow := hrows w.toNat (toNat_lt_of_legal h)
  rw [BitVec.ofNat_toNat, BitVec.setWidth_eq] at hrow
  obtain ⟨i, hi⟩ := Option.isSome_iff_exists.1 hrow
  exact ⟨i, by simp [decodeCommand, hi]⟩

theorem decode_of_wellFormed {op : OpWord} (h : op.wellFormed = true) : ∃ i, decode op = .ok i := by
  cases op with
  | cmd w => exact decodeCommand_of_legal h
  | uop c => exact decodeStage_of_legal h

theorem wellFormed_iff_encoding (op : OpWord) : op.wellFormed = true ↔ ∃ i, encode i = op := by
  constructor
  · intro h
    obtain ⟨i, hi⟩ := decode_of_wellFormed h
    exact ⟨i, encode_of_decode hi⟩
  · rintro ⟨i, rfl⟩
    exact encode_wellFormed i

/-! ### Every other word is rejected by name (30_encoding R97) -/

/-- An encoded operation is legal, so no operation is decoded from a word that is not. -/
theorem decode_ne_ok {op : OpWord} (h : op.wellFormed = false) (i : Instr) : decode op ≠ .ok i := by
  intro hd
  have legal := (wellFormed_iff_encoding op).2 ⟨i, encode_of_decode hd⟩
  simp [h] at legal

theorem decodeCommand_of_not_legal {w : Word} (h : legalCommandWord w = false) :
    decodeCommand w = .error (.illegalCommand w) := by
  have rejects : ∀ i, decodeCommand w ≠ .ok i := decode_ne_ok (op := .cmd w) h
  unfold decodeCommand at rejects ⊢
  cases hrow : selectRow commandTable w with
  | some i => exact absurd (by rw [hrow]) (rejects i)
  | none => rfl

theorem decodeStage_of_not_legal {c : StageCode} (h : legalStageCode c = false) :
    decodeStage c = .error (.unassignedStage c) := by
  have rejects : ∀ i, decodeStage c ≠ .ok i := decode_ne_ok (op := .uop c) h
  unfold decodeStage at rejects ⊢
  cases hrow : selectRow stageTable c with
  | some i => exact absurd (by rw [hrow]) (rejects i)
  | none => rfl

/-- Settles O2. -/
theorem legalWordsAreExactlyTheEncodings : Obligations.LegalWordsAreExactlyTheEncodings :=
  ⟨legalCommandWord_iff, wellFormed_iff_encoding, decode_eq_ok_iff, fun _ => decodeCommand_of_not_legal,
    fun _ => decodeStage_of_not_legal⟩

/-- Settles O3: each word of the tables is an encoding, each other word is not legal. -/
theorem wordsOfTheTablesDecode : Obligations.WordsOfTheTablesDecode :=
  ⟨decode_encode .nop, decode_encode .config, decode_encode .decode, decode_encode .resetprev,
    decodeCommand_of_not_legal (by decide), decodeCommand_of_not_legal (by decide),
    decodeCommand_of_not_legal (by decide), decodeCommand_of_not_legal (by decide),
    decode_encode .fbinit, decode_encode .sep1d, decode_encode .iqcomb, decode_encode .motion, decode_encode .clpf,
    decode_encode .torgb, decode_encode .storeprev, decodeStage_of_not_legal (by decide)⟩

end Sys2Proof.Encoding
end

section
/-! PROOFS. The host's words and bytes (10_state R28, R35, R37; 30_encoding R96, R98; 70 R270): an illegal word in `CMD`,
LOAD and byte writes into the field buffers, reads of `OUT`, and what leaves `OUT` alone. -/

namespace Sys2Proof.HostBytes

open Sys2Proof Sys2Proof.Machine Sys2Proof.Safety Sys2Proof.Laws Sys2Proof.StepLaws

/-! ### One host action (log 1) -/

theorem step_action {s : State} {a : HostAction} {rest : List HostAction} (notBusy : s.status.run ≠ .busy)
    (hh : s.host = a :: rest) : step s = hostAct exec a { s with host := rest } := by
  rw [step_host notBusy hh, ControlState.popHost_of_host hh]

theorem hostWrite_of_idle {s : State} (idle : s.status.run = .idle) (t : State) : hostWrite s t = t := by
  simp [hostWrite, idle]

/-- In IDLE a host action that is a write is done. -/
theorem step_write {s : State} {a : HostAction} {rest : List HostAction} {f : State → State}
    (idle : s.status.run = .idle) (hh : s.host = a :: rest)
    (write : ∀ u, hostAct exec a u = .next (hostWrite u (f u))) : step s = .next (f { s with host := rest }) := by
  rw [step_action (by simp [idle]) hh, write, hostWrite_of_idle (s := { s with host := rest }) idle]

/-! ### An illegal word (30_encoding R96; 60_exceptions R236) -/

theorem issueCommand_of_not_legal {w : Word} (h : legalCommandWord w = false) {s : State}
    (idle : s.status.run = .idle) : issueCommand exec w s = .next (raise .illegalCommand s) := by
  simp [issueCommand, idle, Encoding.decodeCommand_of_not_legal h]

/-- Settles O6: the word has no operation, so the write is the fault entry. -/
theorem illegalWordRaisesIllegalCommand : Obligations.IllegalWordRaisesIllegalCommand := by
  intro s w rest idle hh illegal
  calc step s = hostAct exec (.wr 0 w) { s with host := rest } := step_action (by simp [idle]) hh
    _ = .next (raise .illegalCommand { s with host := rest }) := issueCommand_of_not_legal illegal idle

/-! ### LOAD (30_encoding R98) -/

/-- Bytes loaded from address 0 on; those beyond them stand (log 14). -/
theorem byteAt_setBytes_zero (sp : ByteSpace) (m : ByteBuf) (bytes : List Byte) (a : Nat) :
    byteAt sp (setBytes m 0 bytes) a = if a < bytes.length then bytes.getD a 0 else byteAt sp m a := by
  simp [byteAt_setBytes]

theorem lengthWord_toNat {bytes : List Byte} (h : bytes.length < 2 ^ 32) :
    (BitVec.ofNat 32 bytes.length).toNat = bytes.length := by
  rw [BitVec.toNat_ofNat, Nat.mod_eq_of_lt h]

/-! ### What leaves `OUT` alone (10_state R37; 70 R270) -/

theorem sameOut_of_mem {s t : State} (h : t.mem = s.mem) : SameOut s t := fun a => by rw [h]

theorem sameOut_of_access {s t : State} (h : HostAccess s t) : SameOut s t := fun a => by rw [h]

/-- A fault raised outside a pass comes before any state change (60_exceptions R236). -/
theorem raise_mem_of_outsidePass {cause : FaultCause} (h : raisedOutsidePass cause = true) (s : State) :
    (raise cause s).mem = s.mem := by
  simp [raise, h]

/-- A command touches no byte space: the passes of a DECODE come after it (log 2). -/
theorem exec_command_mem {i : Instr} {w : Word} (hi : encode i = .cmd w) {s t : State} (ht : exec i s = .next t) :
    t.mem = s.mem := by
  cases i with
  | nop => cases ht; rfl
  | config => cases ht; rfl
  | decode =>
    rcases execDecode_cases s with ⟨-, e⟩ | ⟨-, e⟩ <;> rw [exec_decode, e] at ht <;> cases ht
    · rfl
    · exact raise_mem_of_outsidePass rfl s
  | resetprev => cases ht; rfl
  | _ => cases hi

theorem issueCommand_mem {w : Word} {s t : State} (ht : issueCommand exec w s = .next t) : t.mem = s.mem := by
  rcases issueCommand_cases w s with ⟨-, i, code, e⟩ | ⟨-, e⟩ | ⟨-, e⟩ <;> rw [e] at ht
  · exact exec_command_mem code ht
  · cases ht
    exact raise_mem_of_outsidePass rfl s
  · cases ht
    rfl

/-- Of the host's actions only a reset changes a byte of `OUT`. -/
theorem hostAct_sameOut {a : HostAction} (notReset : a ≠ .reset) {s t : State} (ht : hostAct exec a s = .next t) :
    SameOut s t := by
  by_cases isCmd : ∃ w, a = .wr 0 w
  · obtain ⟨w, rfl⟩ := isCmd
    exact sameOut_of_mem (issueCommand_mem ht)
  · obtain ⟨u, e, access⟩ := hostAct_access notReset (not_exists.1 isCmd) s
    rw [e] at ht
    cases ht
    exact sameOut_of_access access

theorem step_sameOut {s t : State} (notBusy : s.status.run ≠ .busy) (notReset : s.host.head? ≠ some .reset)
    (hstep : step s = .next t) : SameOut s t := by
  cases hh : s.host with
  | nil =>
    rw [step_quiet notBusy hh] at hstep
    cases hstep
    exact sameOut_of_mem rfl
  | cons a rest =>
    rw [step_host notBusy hh] at hstep
    exact hostAct_sameOut (s := s.popHost) (by simpa [hh] using notReset) hstep

/-- Settles O50: LOAD, byte writes and byte reads by what one action does, and the validity of `OUT` by `step_sameOut`. -/
theorem hostReachesTheByteSpaces : Obligations.HostReachesTheByteSpaces := by
  refine ⟨fun s bytes rest idle fits => ⟨fun hh => ?_, fun hh => ?_⟩,
    fun s a b rest idle => ⟨fun hh => ?_, fun hh => ?_⟩, fun s a rest notBusy hh => step_action notBusy hh,
    fun s t => step_sameOut⟩
  · exact ⟨_, step_write idle hh fun _ => rfl, rfl, lengthWord_toNat fits, byteAt_setBytes_zero _ _ bytes⟩
  · exact ⟨_, step_write idle hh fun _ => rfl, rfl, lengthWord_toNat fits, byteAt_setBytes_zero _ _ bytes⟩
  · exact ⟨_, step_write idle hh fun _ => rfl, rfl, fun a' => byteAt_setByte _ _ a a' b⟩
  · exact ⟨_, step_write idle hh fun _ => rfl, rfl, fun a' => byteAt_setByte _ _ a a' b⟩

end Sys2Proof.HostBytes
end

section
/-! PROOFS. The host commands NOP, CONFIG, DECODE and RESETPREV (40_sequencer R120 to R123): the whole state each leaves. -/

namespace Sys2Proof.HostCommands

open Sys2Proof Sys2Proof.Machine Sys2Proof.StepLaws

/-! ### NOP and RESETPREV (40_sequencer R120, R123) -/

/-- Settles O7: the row of the table, and the meaning of NOP. -/
theorem nopChangesNothing : Obligations.NopChangesNothing := ⟨rfl, fun _ => rfl⟩

/-- Settles O11: `PREV` becomes `ZeroFB`, which lists no cell and whose unlisted cells are 0. -/
theorem resetprevZeroesPrevOnly : Obligations.ResetprevZeroesPrevOnly :=
  ⟨rfl, fun s => ⟨{ s with prev := zeroFrame }, rfl, rfl, rfl, fun _ _ => ⟨rfl, rfl, rfl, rfl, rfl, rfl⟩, rfl, rfl, rfl⟩⟩

/-! ### CONFIG (40_sequencer R121; 60_exceptions R231, R233) -/

/-- The number of frame rows over naturals: no row for `FH = 0`. -/
theorem frameRows_eq (c : ConfigRegs) : c.frameRows = 2 * c.fh.toNat - 1 := by
  simp only [ConfigRegs.frameRows, ConfigRegs.FRH, ConfigRegs.FH]
  omega

/-- The events of a CONFIG are those of the three warnings, one after the other (60_exceptions R233). -/
theorem warningEvents_eq (c : ConfigRegs) : warningEvents c =
    (if 910 < c.fw.toNat then [⟨.width, c.fw.toNat⟩] else [])
      ++ (if 525 < 2 * (c.fh.toNat : Int) - 1 then [⟨.height, 2 * c.fh.toNat - 1⟩] else [])
      ++ (if c.avs.toNat < 16 then [⟨.activeStart, c.avs.toNat⟩] else []) := by
  have width : warns c .width = decide (910 < c.fw.toNat) := rfl
  have height : warns c .height = decide (525 < 2 * (c.fh.toNat : Int) - 1) := rfl
  have start : warns c .activeStart = decide (c.avs.toNat < 16) := rfl
  simp only [warningEvents, List.filter_cons, List.filter_nil, width, height, start, decide_eq_true_eq]
  split_ifs <;> simp [warningValue, frameRows_eq, ConfigRegs.FW, ConfigRegs.AVS]

/-- Settles O8: the warning flags are the conditions of R231 themselves, and the events are those of `warningEvents_eq`. -/
theorem configCommitsAndWarns : Obligations.ConfigCommitsAndWarns := by
  refine ⟨rfl, fun s => ?_⟩
  rw [List.append_assoc s.log, List.append_assoc s.log, ← warningEvents_eq]
  rfl

/-! ### DECODE (40_sequencer R122) -/

/-- Settles O9. -/
theorem decodeStartsTheSequence : Obligations.DecodeStartsTheSequence := by
  intro s configured
  rcases execDecode_cases s with ⟨-, e⟩ | ⟨unconfigured, -⟩
  · rw [exec_decode, e]
  · simp [configured] at unconfigured

/-- Settles O10: `NotConfigured` is raised outside a pass, so its entry forgets nothing (60_exceptions R236). -/
theorem decodeBeforeConfigRaisesNotConfigured : Obligations.DecodeBeforeConfigRaisesNotConfigured := by
  intro s unconfigured
  rcases execDecode_cases s with ⟨configured, -⟩ | ⟨-, e⟩
  · simp [unconfigured] at configured
  · rw [exec_decode, e]
    rfl

end Sys2Proof.HostCommands
end

section
/-! PROOFS. The passes that build and keep a frame: FBINIT, ILACE, STOREPREV (40_sequencer R125 to R127). -/

namespace Sys2Proof.FrameSetup

open Sys2Proof Sys2Proof.Machine Sys2Proof.Safety Sys2Proof.Reference Sys2Proof.Laws Sys2Proof.StepLaws
  Sys2Proof.ByteBounds Sys2Proof.FaultFree

theorem finishPass_passFrame (i : Instr) (release : Nat → Work → Work) (s : State) (x : Scratch) :
    PassFrame (nextStage s.active i) s (finishPass i release s x) :=
  ⟨finishPass_endsAt i release s x, finishPass_sameRegisters i release s x, finishPass_prev i release s x⟩

/-! ### FBINIT (40_sequencer R125) -/

/-- The scratch state FBINIT leaves. -/
def freshScratch (s : State) : Scratch :=
  { s.scratch with fb := freshFrame s.args, out := zeroFill s.mem.out s.active.outLen }

theorem exec_fbinit_calibrated {s : State} (h : s.active.BLK < s.active.WHT) :
    exec .fbinit s = .next (finishPass .fbinit keepWork s (freshScratch s)) := by
  rcases fbinitBody_cases s s.scratch with ⟨bad, -⟩ | ⟨-, ok⟩
  · omega
  · exact runPass_ok ok

/-- Settles O12: the planes of the fresh frame list no cell, and `OUT` is zero-filled below `OUTLEN`. -/
theorem fbinitBuildsAFreshFrame : Obligations.FbinitBuildsAFreshFrame := by
  intro s calibrated
  refine ⟨_, exec_fbinit_calibrated calibrated, finishPass_passFrame .fbinit keepWork s (freshScratch s),
    finishPass_work .., ?_⟩
  rw [finishPass_fb, finishPass_mem]
  exact ⟨fun _ _ => ⟨rfl, rfl, rfl, rfl, rfl, rfl⟩, rfl, rfl, rfl, byteAt_zeroFill .out s.mem.out s.active.outLen⟩

/-- Settles O13. -/
theorem fbinitRaisesCalibrationFault : Obligations.FbinitRaisesCalibrationFault := by
  intro s uncalibrated
  rcases fbinitBody_cases s s.scratch with ⟨-, error⟩ | ⟨calibrated, -⟩
  · exact ⟨_, runPass_error error, faultEntered_raise .calibration s⟩
  · omega

/-! ### ILACE (40_sequencer R126) -/

/-- The sample of the fields that ILACE puts in frame row `r`, column `c` (20_memory R61, R62). -/
def interlaced (s : State) (r c : Nat) : Sample :=
  if r % 2 = 0 then wordAt .field1 s.mem.field1 (2 * (r / 2 * s.active.FW + c))
  else wordAt .field2 s.mem.field2 (2 * (r / 2 * s.active.FW + c))

theorem memRead_ok {sp : ByteSpace} {len : Nat} {m : ByteBuf} {a : Nat} {v : Sample}
    (h : memRead sp len m a = .ok v) : v = wordAt sp m a := by
  unfold memRead at h
  split at h
  · exact (Except.ok.inj h).symm
  · cases h

theorem fieldSample_ok {s : State} {r c : Nat} {v : Sample} (h : fieldSample s r c = .ok v) :
    v = interlaced s r c := by
  unfold fieldSample at h
  unfold interlaced
  split at h
  · rw [if_pos ‹_›]
    exact memRead_ok h
  · rw [if_neg ‹_›]
    exact memRead_ok h

/-- Under the conditions of R68 a cell of the frame takes the sample of the fields. -/
theorem ilaceCell_eq {P : Impl} {s : State} (hb : BoundsFree P s) {r c : Nat} (hr : r < s.active.frameRows)
    (hc : c < s.active.FW) (x : Scratch) : ilaceCell P s r c x =
      .ok { x with fb := { x.fb with raw := setCell rawKind x.fb.raw r c (interlaced s r c) } } := by
  obtain ⟨v, hv⟩ := fieldSample_completes hb hr hc
  obtain ⟨p, hp⟩ := writeRaw_completes hb hr hc x.fb v
  obtain ⟨-, -, rfl⟩ := writeRaw_ok hp
  obtain rfl := fieldSample_ok hv
  simp only [ilaceCell, hv, hp, bind_ok_eq, Int.toNat_natCast]

/-- ILACE, started from `x`, has filled the frame up to row `r`, column `c`: the cells before that hold the samples of the
fields, every other cell and everything else is as before. -/
def FilledTo (s : State) (x : Scratch) (r c : Nat) (y : Scratch) : Prop :=
  y = { x with fb := { x.fb with raw := y.fb.raw } }
    ∧ ∀ r' c', cellAt rawKind y.fb.raw r' c' =
        if c' < s.active.FW ∧ (r' < r ∨ r' = r ∧ c' < c) then interlaced s r' c' else cellAt rawKind x.fb.raw r' c'

theorem filledTo_start (s : State) (x : Scratch) : FilledTo s x 0 0 x := ⟨rfl, fun _ _ => by simp⟩

theorem filledTo_cell {s : State} {x y : Scratch} {r c : Nat} (hc : c < s.active.FW) (h : FilledTo s x r c y) :
    FilledTo s x r (c + 1)
      { y with fb := { y.fb with raw := setCell rawKind y.fb.raw r c (interlaced s r c) } } := by
  obtain ⟨rest, cells⟩ := h
  refine ⟨by rw [rest], fun r' c' => ?_⟩
  simp only [cellAt_setCell, cells]
  by_cases here : r' = r ∧ c' = c
  · obtain ⟨rfl, rfl⟩ := here
    simp [hc]
  · rw [if_neg here]
    exact if_congr (by omega) rfl rfl

/-- A full row is the start of the next one. -/
theorem filledTo_row {s : State} {x y : Scratch} {r : Nat} (h : FilledTo s x r s.active.FW y) :
    FilledTo s x (r + 1) 0 y := by
  obtain ⟨rest, cells⟩ := h
  refine ⟨rest, fun r' c' => ?_⟩
  rw [cells]
  exact if_congr (by omega) rfl rfl

/-- Under the conditions of R68 the body of ILACE fills every row of the frame. -/
theorem ilaceBody_fills {P : Impl} {s : State} (hb : BoundsFree P s) (x : Scratch) :
    ∃ y, ilaceBody P s x = .ok y ∧ FilledTo s x s.active.frameRows 0 y := by
  have cell : ∀ r, r < s.active.frameRows → ∀ c y, 0 ≤ c → c < s.active.FW → FilledTo s x r c y →
      ∃ y', ilaceCell P s r c y = .ok y' ∧ FilledTo s x r (c + 1) y' :=
    fun r hr c y _ hc h => ⟨_, ilaceCell_eq hb hr hc y, filledTo_cell hc h⟩
  have row : ∀ r y, 0 ≤ r → r < s.active.frameRows → FilledTo s x r 0 y →
      ∃ y', forRange 0 s.active.FW (ilaceCell P s r) y = .ok y' ∧ FilledTo s x (r + 1) 0 y' := by
    intro r y _ hr h
    obtain ⟨z, hz, filled⟩ := forRange_run (FilledTo s x r) (cell r hr) h
    rw [Nat.zero_max] at filled
    exact ⟨z, hz, filledTo_row filled⟩
  obtain ⟨y, hy, filled⟩ := forRange_run (fun r => FilledTo s x r 0) row (filledTo_start s x)
  rw [Nat.zero_max] at filled
  exact ⟨y, hy, filled⟩

/-- Settles O14: the loop over the frame fills it cell by cell, in row order. -/
theorem ilaceInterlacesTheFields : Obligations.IlaceInterlacesTheFields := by
  intro s hb
  obtain ⟨y, hy, rest, cells⟩ := ilaceBody_fills hb s.scratch
  refine ⟨_, runPass_ok hy, finishPass_passFrame .ilace keepWork s y, ?_, ?_⟩
  · rw [SameOut, finishPass_mem, show y.out = s.mem.out from congrArg Scratch.out rest]
    exact fun _ => rfl
  · rw [finishPass_work, finishPass_fb]
    refine ⟨congrArg Scratch.work rest, congrArg Scratch.fb rest, fun r c => ?_⟩
    have inside : (c < s.active.FW ∧ (r < s.active.frameRows ∨ r = s.active.frameRows ∧ c < 0))
        ↔ ((r : Int) < s.active.FRH ∧ c < s.active.FW) := by
      rw [← lt_frameRows_iff_FRH]
      omega
    rw [cells]
    exact if_congr inside rfl rfl

/-! ### STOREPREV (40_sequencer R127) -/

/-- Settles O16: the end of a pass that changed nothing, from the state whose `PREV` is the frame. -/
theorem storeprevKeepsTheWholeFrame : Obligations.StoreprevKeepsTheWholeFrame := by
  intro s
  obtain ⟨ends, same, prev⟩ := finishPass_passFrame .storeprev keepWork { s with prev := s.fb } s.scratch
  exact ⟨_, exec_storeprev s, prev, finishPass_fb .., finishPass_work .., ends, same,
    fun a => by rw [finishPass_mem]; rfl⟩

end Sys2Proof.FrameSetup
end

section
/-! PROOFS. The sequencer: where a pass ends (40_sequencer R124), and that the passes of a two-dimensional DECODE neither
read nor write `PREV` (40_sequencer R129; 20_memory R76). -/

namespace Sys2Proof.Sequencer

open Sys2Proof Sys2Proof.Machine Sys2Proof.Safety Sys2Proof.Reference Sys2Proof.Laws Sys2Proof.StepLaws
  Sys2Proof.FaultFree

/-! ### The table of R124 -/

/-- The sequencer follows the table of R124 row by row; only IQCOMB, IQMIX and TORGB look at the mode flags. -/
theorem nextStage_eq_tableNext (c : ConfigRegs) (i : Instr) : nextStage c i = tableNext c.m3d c.clpfOn c.ovl i := by
  cases i with
  | iqcomb => cases hm : c.m3d <;> cases hl : c.clpfOn <;> simp [nextStage, tableNext, stageCode, hm, hl]
  | iqmix => cases hl : c.clpfOn <;> simp [nextStage, tableNext, stageCode, hl]
  | torgb => cases hm : c.m3d <;> cases ho : c.ovl <;> simp [nextStage, tableNext, stageCode, hm, ho]
  | _ => rfl

/-- Where a pass goes: to the next stage of the table with the registers kept, or to the fault entry. -/
theorem exec_pass_ends {s t : State} {i : Instr} {c : StageCode} (code : encode i = .uop c) (h : exec i s = .next t) :
    (EndsAt (nextStage s.active i) s t ∧ SameRegisters s t) ∨ ∃ cause, t = raise cause s := by
  rcases exec_pass code with rfl | ⟨release, body, frame, -⟩
  · cases h
    exact .inl ⟨finishPass_endsAt .storeprev keepWork { s with prev := s.fb } s.scratch,
      finishPass_sameRegisters .storeprev keepWork { s with prev := s.fb } s.scratch⟩
  · rw [frame] at h
    rcases runPass_cases i release body s with ⟨x, -, hrun⟩ | ⟨cause, -, hrun⟩ <;> rw [hrun] at h <;> cases h
    · exact .inl ⟨finishPass_endsAt i release s x, finishPass_sameRegisters i release s x⟩
    · exact .inr ⟨cause, rfl⟩

/-- Settles O42: a pass that does not fault ends at the next stage, which is the table's. -/
theorem passOrderFollowsTheTable : Obligations.PassOrderFollowsTheTable := by
  intro s t i busy hd hstep notFaulted
  rw [step_busy busy hd] at hstep
  rcases exec_pass_ends (encode_of_decodeStage hd) hstep with ⟨ends, -⟩ | ⟨cause, rfl⟩
  · rwa [nextStage_eq_tableNext] at ends
  · simp at notFaulted

/-! ### A state with another `PREV` -/

/-- The state with another previous frame. -/
def withPrev (p : FrameBuffer) (s : State) : State := { s with prev := p }

theorem advance_withPrev (p : FrameBuffer) (code : StageCode) (s : State) :
    advance code (withPrev p s) = withPrev p (advance code s) := by
  unfold advance
  split <;> rfl

theorem finishPass_withPrev (p : FrameBuffer) (i : Instr) (release : Nat → Work → Work) (s : State) (x : Scratch) :
    finishPass i release (withPrev p s) x = withPrev p (finishPass i release s x) :=
  advance_withPrev p (nextStage s.active i)
    (releaseCounters (s.withScratch { x with work := release s.free x.work }))

theorem raise_withPrev (p : FrameBuffer) (cause : FaultCause) (s : State) :
    raise cause (withPrev p s) = withPrev p (raise cause s) := by
  cases cause <;> rfl

/-- A pass whose body does not read `PREV` commutes with a change of it. -/
theorem runPass_withPrev {p : FrameBuffer} {body : State → Scratch → Except FaultCause Scratch} {s : State}
    (same : body (withPrev p s) = body s) (i : Instr) (release : Nat → Work → Work) :
    runPass i release body (withPrev p s) = mapNext (withPrev p) (runPass i release body s) := by
  have body_eq : body (withPrev p s) (withPrev p s).scratch = body s s.scratch := congrFun same s.scratch
  rcases runPass_cases i release body s with ⟨x, hx, hrun⟩ | ⟨cause, hx, hrun⟩
  · rw [hrun, runPass_ok (body_eq.trans hx), finishPass_withPrev]
    rfl
  · rw [hrun, runPass_error (body_eq.trans hx), raise_withPrev]
    rfl

/-- The three passes that read or write `PREV` (20_memory R76). -/
def touchesPrev (i : Instr) : Bool := [Instr.motion, .sep3d, .storeprev].contains i

/-- No other pass does: each body reads the active configuration, the arguments and the field buffers at most. -/
theorem exec_withPrev {i : Instr} {c : StageCode} (code : encode i = .uop c) (other : touchesPrev i = false)
    (p : FrameBuffer) (s : State) : exec i (withPrev p s) = mapNext (withPrev p) (exec i s) := by
  cases i with
  | nop => cases code
  | config => cases code
  | decode => cases code
  | resetprev => cases code
  | motion => cases other
  | sep3d => cases other
  | storeprev => cases other
  | fbinit => exact runPass_withPrev (body := fbinitBody) rfl _ _
  | ilace => exact runPass_withPrev (body := ilaceBody Config.impl) rfl _ _
  | sep1d => exact runPass_withPrev (body := sep1dBody Config.impl) rfl _ _
  | sep2d => exact runPass_withPrev (body := sep2dBody Config.impl) rfl _ _
  | iqcomb => exact runPass_withPrev (body := combineBody Config.impl (estimateFrom2d Config.impl)) rfl _ _
  | iqmix => exact runPass_withPrev (body := combineBody Config.impl (estimateMixed Config.impl)) rfl _ _
  | clpf => exact runPass_withPrev (body := clpfBody Config.impl) rfl _ _
  | ynr => exact runPass_withPrev (body := ynrBody Config.impl) rfl _ _
  | cnr => exact runPass_withPrev (body := cnrBody Config.impl) rfl _ _
  | yclean => exact runPass_withPrev (body := ycleanBody Config.impl) rfl _ _
  | torgb => exact runPass_withPrev (body := torgbBody Config.impl) rfl _ _
  | overlay => exact runPass_withPrev (body := overlayBody Config.impl) rfl _ _

theorem touchesPrev_of_stage {i : Instr} {c : StageCode} (code : encode i = .uop c) (notMotion : c ≠ 0x15#8)
    (notSep3d : c ≠ 0x16#8) (notStoreprev : c ≠ 0x1E#8) : touchesPrev i = false := by
  cases i with
  | motion => cases code; exact absurd rfl notMotion
  | sep3d => cases code; exact absurd rfl notSep3d
  | storeprev => cases code; exact absurd rfl notStoreprev
  | _ => rfl

/-- A step of a BUSY block whose `SEQ` names no pass over `PREV` commutes with a change of `PREV`. -/
theorem step_withPrev_of_busy {s : State} (busy : s.status.run = .busy) (notMotion : s.seq ≠ 0x15#8)
    (notSep3d : s.seq ≠ 0x16#8) (notStoreprev : s.seq ≠ 0x1E#8) (p : FrameBuffer) :
    step (withPrev p s) = mapNext (withPrev p) (step s) := by
  have busy' : (withPrev p s).status.run = .busy := busy
  cases hd : decodeStage s.seq with
  | ok i =>
    have code := encode_of_decodeStage hd
    rw [step_busy busy hd, step_busy busy' hd]
    exact exec_withPrev code (touchesPrev_of_stage code notMotion notSep3d notStoreprev) p s
  | error e =>
    have hd' : decodeStage (withPrev p s).seq = .error e := hd
    simp only [step, stepWith, busy, busy', passStep, hd, hd', if_true, mapNext]
    rfl

/-! ### A DECODE with 3D mode off -/

/-- The passes of a DECODE with 3D mode off, CLPF on or off. -/
def passes2d : List Instr := [.fbinit, .ilace, .sep1d, .sep2d, .iqcomb, .clpf, .ynr, .cnr, .yclean, .torgb]

theorem passes2d_spare_prev : ∀ i ∈ passes2d, encode i = .uop (stageCode i) ∧ IsPass i ∧ touchesPrev i = false := by
  decide

/-- With 3D mode off the sequencer stays among these passes, to the end (40_sequencer R124). -/
theorem nextStage_2d {c : ConfigRegs} (mode : c.m3d = false) {i : Instr} (mem : i ∈ passes2d) :
    nextStage c i = 0 ∨ ∃ j ∈ passes2d, nextStage c i = stageCode j := by
  cases i with
  | fbinit => exact .inr ⟨.ilace, by decide, rfl⟩
  | ilace => exact .inr ⟨.sep1d, by decide, rfl⟩
  | sep1d => exact .inr ⟨.sep2d, by decide, rfl⟩
  | sep2d => exact .inr ⟨.iqcomb, by decide, rfl⟩
  | iqcomb =>
    cases low : c.clpfOn with
    | true => exact .inr ⟨.clpf, by decide, by simp [nextStage, mode, low]⟩
    | false => exact .inr ⟨.ynr, by decide, by simp [nextStage, mode, low]⟩
  | clpf => exact .inr ⟨.ynr, by decide, rfl⟩
  | ynr => exact .inr ⟨.cnr, by decide, rfl⟩
  | cnr => exact .inr ⟨.yclean, by decide, rfl⟩
  | yclean => exact .inr ⟨.torgb, by decide, rfl⟩
  | torgb => exact .inl (by simp [nextStage, mode])
  | _ => exact absurd mem (by decide)

/-- A state of a DECODE with 3D mode off, once issued, or of the time after it: no host action is to come, and while BUSY
`SEQ` names one of its passes. -/
structure In2dDecode (s : State) : Prop where
  noHost : s.host = []
  mode : s.active.m3d = false
  stage : s.status.run = .busy → ∃ i ∈ passes2d, s.seq = stageCode i

/-- After a pass of the DECODE the next one is to come, or the block is no longer BUSY. -/
theorem In2dDecode.exec_keeps {s t : State} (h : In2dDecode s) {i : Instr} (mem : i ∈ passes2d)
    (done : exec i s = .next t) : In2dDecode t := by
  obtain ⟨noHost, mode, -⟩ := h
  obtain ⟨code, -, -⟩ := passes2d_spare_prev i mem
  rcases exec_pass_ends code done with ⟨⟨seq, status⟩, -, active, -, -, host, -⟩ | ⟨cause, rfl⟩
  · refine ⟨host.trans noHost, active ▸ mode, fun busy => ?_⟩
    rcases nextStage_2d mode mem with atEnd | next
    · rw [status, if_pos atEnd] at busy
      cases busy
    · rwa [seq]
  · exact ⟨by simpa using noHost, by simpa using mode, by simp⟩

/-- One step from there and from the same state with another `PREV`. -/
theorem In2dDecode.step_withPrev {s : State} (h : In2dDecode s) (p : FrameBuffer) :
    ∃ t, step s = .next t ∧ step (withPrev p s) = .next (withPrev p t) ∧ In2dDecode t := by
  by_cases busy : s.status.run = .busy
  · obtain ⟨i, mem, seq⟩ := h.stage busy
    obtain ⟨code, pass, other⟩ := passes2d_spare_prev i mem
    obtain ⟨t, done⟩ := exec_pass_next code s
    refine ⟨t, (step_pass busy pass seq).trans done, ?_, h.exec_keeps mem done⟩
    rw [step_pass (s := withPrev p s) busy pass seq, exec_withPrev code other, done]
    rfl
  · exact ⟨s, step_quiet busy h.noHost, step_quiet (s := withPrev p s) busy h.noHost, h⟩

theorem In2dDecode.run_withPrev {s : State} (h : In2dDecode s) (p : FrameBuffer) (n : Nat) :
    Host.Core.run core n (withPrev p s) = mapNext (withPrev p) (Host.Core.run core n s) := by
  induction n generalizing s with
  | zero => rfl
  | succ n ih =>
    obtain ⟨t, taken, taken', next⟩ := h.step_withPrev p
    rw [run_step taken, run_step taken', ih next]

/-- The command itself: it starts the passes, or faults before any CONFIG, whatever `PREV` holds. -/
theorem step_decode_withPrev {s : State} (mode : s.active.m3d = false) (idle : s.status.run = .idle)
    (hh : s.host = [.wr 0 0x00000002#32]) (p : FrameBuffer) :
    ∃ t, step s = .next t ∧ step (withPrev p s) = .next (withPrev p t) ∧ In2dDecode t := by
  have issued : ∀ u : State, u.status.run = .idle → u.host = [.wr 0 0x00000002#32] →
      step u = execDecode { u with host := [] } := fun u idle hh =>
    ControlState.idleStepIssuesTheCommand u _ [] .decode idle hh rfl rfl
  rw [issued s idle hh, issued (withPrev p s) idle hh]
  cases configured : s.status.configured with
  | true =>
    exact ⟨decodeStart s [], by simp [execDecode, configured, decodeStart, stageCode],
      by simp [execDecode, configured, decodeStart, stageCode, withPrev], rfl, mode, fun _ => ⟨.fbinit, by decide, rfl⟩⟩
  | false =>
    refine ⟨raise .notConfigured { s with host := [] }, by simp [execDecode, configured], ?_, by simp,
      by simpa using mode, by simp⟩
    rw [← raise_withPrev]
    simp [execDecode, configured, withPrev]

/-- Settles O59: pass by pass, and along the run of a DECODE, whose passes with 3D mode off are none of the three. -/
theorem twoDimensionalDecodeIgnoresPrev : Obligations.TwoDimensionalDecodeIgnoresPrev := by
  refine ⟨fun s p busy notMotion notSep3d notStoreprev =>
    step_withPrev_of_busy busy notMotion notSep3d notStoreprev p, fun s p n mode idle hh => ?_⟩
  obtain ⟨t, taken, taken', started⟩ := step_decode_withPrev mode idle hh p
  change Host.Core.run core n (withPrev p s) = mapNext (withPrev p) (Host.Core.run core n s)
  cases n with
  | zero => rfl
  | succ n => rw [run_step taken, run_step taken', started.run_withPrev]

end Sys2Proof.Sequencer
end

section
/-! PROOFS. The phase-inversion tracker (41 R140 to R143): the flag of each parity stands one visit behind the closed form
of the next row of that parity. -/

namespace Sys2Proof.PhaseTracker

open Sys2Proof Sys2Proof.Machine Sys2Proof.Reference

/-! ### The sign of a line (41 R143) -/

theorem sgn_mul_self (P : Impl) (inv : Bool) : sgn P inv * sgn P inv = 1 := by
  unfold sgn
  split <;> norm_num

/-- Settles O18. -/
theorem inversionSign : Obligations.InversionSign := ⟨fun _ _ => rfl, rfl, rfl⟩

/-! ### The flag of a row's parity (41 R140, R141) -/

/-- The flag that a visit of row `r` toggles. -/
def rowFlag (w : Work) (r : Nat) : Bool := if r % 2 = 0 then w.topInv else w.botInv

theorem rowFlag_trackerInit (fb : FrameBuffer) (w : Work) (r : Nat) :
    rowFlag (trackerInit fb w) r = initialInversion fb.ph1 fb.ph2 r := by
  unfold rowFlag initialInversion
  split <;> simp [trackerInit, initTop, initBot, Bool.decide_or, beq_eq_decide]

theorem trackerVisit_inv (r : Nat) (w : Work) : (trackerVisit r w).inv = !rowFlag w r := by
  unfold trackerVisit rowFlag
  split <;> rfl

theorem rowFlag_trackerVisit_same {r r' : Nat} (parity : r' % 2 = r % 2) (w : Work) :
    rowFlag (trackerVisit r w) r' = !rowFlag w r := by
  unfold trackerVisit rowFlag
  rw [parity]
  split <;> rfl

theorem rowFlag_trackerVisit_other {r r' : Nat} (parity : r' % 2 ≠ r % 2) (w : Work) :
    rowFlag (trackerVisit r w) r' = rowFlag w r' := by
  unfold trackerVisit rowFlag
  by_cases even : r % 2 = 0
  · rw [if_pos even, if_neg (by omega), if_neg (by omega)]
  · rw [if_neg even, if_pos (by omega), if_pos (by omega)]

/-! ### The closed form (41 R142) -/

/-- The first visit of a parity toggles its initial flag. -/
theorem inversionAt_first {fvl r : Nat} (ph1 ph2 : BitVec 8) (visited : fvl ≤ r) (first : r ≤ fvl + 1) :
    inversionAt fvl ph1 ph2 r = !initialInversion ph1 ph2 r := by
  have row : r - firstOfParity fvl r = 0 := by
    unfold firstOfParity
    split <;> omega
  simp [inversionAt, row]

/-- Consecutive lines of one field alternate. -/
theorem inversionAt_add_two {fvl r : Nat} (ph1 ph2 : BitVec 8) (h : fvl ≤ r) :
    inversionAt fvl ph1 ph2 (r + 2) = !inversionAt fvl ph1 ph2 r := by
  have parity : firstOfParity fvl (r + 2) = firstOfParity fvl r := by simp [firstOfParity]
  have reached : firstOfParity fvl r ≤ r := by
    unfold firstOfParity
    split <;> omega
  have visits : (r + 2 - firstOfParity fvl r) / 2 + 1 = (r - firstOfParity fvl r) / 2 + 1 + 1 := by omega
  have toggled : decide (((r - firstOfParity fvl r) / 2 + 1 + 1) % 2 = 1)
      = !decide (((r - firstOfParity fvl r) / 2 + 1) % 2 = 1) := by
    rw [← decide_not]
    exact decide_eq_decide.2 (by omega)
  have initial : initialInversion ph1 ph2 (r + 2) = initialInversion ph1 ph2 r := by simp [initialInversion]
  simp only [inversionAt, parity, visits, toggled, initial, Bool.xor_not]

/-- Before the visit of row `r`, the rows from `fvl` up to it visited: the flag that each of the next two rows will toggle
is the opposite of that row's inversion state. -/
def TrackedTo (fvl : Nat) (fb : FrameBuffer) (r : Nat) (w : Work) : Prop :=
  ∀ q, r ≤ q → q ≤ r + 1 → rowFlag w q = !inversionAt fvl fb.ph1 fb.ph2 q

theorem trackedTo_init (fb : FrameBuffer) (w : Work) (fvl : Nat) : TrackedTo fvl fb fvl (trackerInit fb w) :=
  fun q hq hq' => by rw [rowFlag_trackerInit, inversionAt_first _ _ hq hq', Bool.not_not]

theorem TrackedTo.inv {fvl r : Nat} {fb : FrameBuffer} {w : Work} (h : TrackedTo fvl fb r w) :
    (trackerVisit r w).inv = inversionAt fvl fb.ph1 fb.ph2 r := by
  rw [trackerVisit_inv, h r le_rfl (Nat.le_succ r), Bool.not_not]

theorem TrackedTo.visit {fvl r : Nat} {fb : FrameBuffer} {w : Work} (hr : fvl ≤ r) (h : TrackedTo fvl fb r w) :
    TrackedTo fvl fb (r + 1) (trackerVisit r w) := by
  intro q hq hq'
  obtain rfl | rfl : q = r + 1 ∨ q = r + 2 := by omega
  · rw [rowFlag_trackerVisit_other (by omega), h _ (by omega) le_rfl]
  · rw [rowFlag_trackerVisit_same (by omega), h _ le_rfl (by omega), inversionAt_add_two _ _ hr]

/-- Settles O17, by induction on the number of visits. -/
theorem trackerHasTheClosedForm : Obligations.TrackerHasTheClosedForm := by
  intro fb w fvl r hr
  have tracked (n : Nat) : TrackedTo fvl fb (fvl + n)
      ((List.range' fvl n).foldl (fun w' v => trackerVisit v w') (trackerInit fb w)) := by
    induction n with
    | zero => exact trackedTo_init fb w fvl
    | succ n ih =>
      rw [List.range'_1_concat, List.foldl_append]
      exact ih.visit (Nat.le_add_right fvl n)
  obtain ⟨n, rfl⟩ := Nat.exists_eq_add_of_le hr
  refine ⟨?_, inversionAt_add_two _ _ hr⟩
  rw [show fvl + n + 1 - fvl = n + 1 by omega, List.range'_1_concat, List.foldl_append]
  exact (tracked n).inv

end Sys2Proof.PhaseTracker
end

section
/-! PROOFS. FIR filters (41 R144; 45 R194 (d)): a delay line is the list of the values fed, the latest first, so a feed is
a convolution; and a filter fed at every second column returns the sum of `everySecond`. -/

namespace Sys2Proof.FirLines

open Sys2Proof Sys2Proof.Machine Sys2Proof.Reference

/-! ### Delay lines by place -/

/-- The delay line of `n` places that holds `f i` at place `i`, the latest value at place 0. -/
def lineOf (n : Nat) (f : Nat → R) : List R := (List.range n).map f

theorem length_tapCoeffs (t : Taps) : (tapCoeffs t).length = t.tail.length + 1 := rfl

theorem freshFir_eq_lineOf (t : Taps) : freshFir t = lineOf (tapCoeffs t).length fun _ => 0 := by
  simp [freshFir, lineOf, List.map_const']

theorem shiftIn_lineOf (n : Nat) (f : Nat → R) :
    shiftIn (f 0) (lineOf (n + 1) fun i => f (i + 1)) = lineOf (n + 1) f := by
  have dropLast : (lineOf (n + 1) fun i => f (i + 1)).dropLast = (List.range n).map fun i => f (i + 1) := by
    simp [lineOf, List.range_succ]
  rw [shiftIn, dropLast, lineOf, List.range_succ_eq_map, List.map_cons, List.map_map]
  rfl

theorem weightedSum_eq_zipWith (bs ds : List R) : weightedSum bs ds = (List.zipWith (· * ·) bs ds).sum := by
  induction bs generalizing ds with
  | nil => rfl
  | cons b bs ih =>
    cases ds with
    | nil => rfl
    | cons d ds => simp [weightedSum, ih]

theorem weightedSum_lineOf (bs : List R) (f : Nat → R) :
    weightedSum bs (lineOf bs.length f) = ((List.range bs.length).map fun i => bs.getD i 0 * f i).sum := by
  induction bs generalizing f with
  | nil => rfl
  | cons b bs ih =>
    have line : lineOf (bs.length + 1) f = f 0 :: lineOf bs.length fun i => f (i + 1) := by
      simp [lineOf, List.range_succ_eq_map, Function.comp_def]
    simp [line, weightedSum, ih, List.range_succ_eq_map, Function.comp_def]

/-- A feed moves every value one place on and returns the sum over the places. -/
theorem feed_lineOf (t : Taps) (f : Nat → R) :
    feed t (lineOf (tapCoeffs t).length fun i => f (i + 1)) (f 0)
      = (((List.range (tapCoeffs t).length).map fun i => (tapCoeffs t).getD i 0 * f i).sum,
        lineOf (tapCoeffs t).length f) := by
  have shifted := shiftIn_lineOf t.tail.length f
  rw [← length_tapCoeffs] at shifted
  rw [feed, shifted, weightedSum_lineOf]

/-! ### A feed is a convolution (41 R144) -/

/-- A fresh filter fed the values `vs` holds them latest first. -/
theorem fed_eq_lineOf (t : Taps) (vs : List R) :
    vs.foldl (fun d u => (feed t d u).2) (freshFir t)
      = lineOf (tapCoeffs t).length fun i => vs.reverse.getD i 0 := by
  induction vs using List.reverseRecOn with
  | nil => exact freshFir_eq_lineOf t
  | append_singleton vs v ih =>
    rw [List.foldl_append, ih, List.reverse_append]
    exact congrArg Prod.snd (feed_lineOf t fun i => (v :: vs.reverse).getD i 0)

theorem sum_map_range_min {f : Nat → R} {m : Nat} (zero : ∀ i, m ≤ i → f i = 0) (n : Nat) :
    ((List.range n).map f).sum = ((List.range (min m n)).map f).sum := by
  rcases Nat.le_total n m with h | h
  · rw [Nat.min_eq_right h]
  · obtain ⟨k, rfl⟩ := Nat.exists_eq_add_of_le h
    have rest : (((List.range k).map (m + ·)).map f).sum = 0 :=
      List.sum_eq_zero fun x hx => by
        simp only [List.mem_map] at hx
        obtain ⟨_, ⟨i, -, rfl⟩, rfl⟩ := hx
        exact zero _ (Nat.le_add_right m i)
    rw [Nat.min_eq_left h, List.range_add, List.map_append, List.sum_append, rest, add_zero]

/-- Settles O19: place `i` of the line holds the `i`-th latest value, and 0 past the first value fed. -/
theorem firFeedIsConvolution : Obligations.FirFeedIsConvolution := by
  intro t vs v
  refine ⟨rfl, fun d hd => ?_, ?_⟩
  · have shifted : shiftIn v d = v :: d.take ((tapCoeffs t).length - 1) := by
      rw [shiftIn, List.dropLast_eq_take, hd]
    exact ⟨shifted, by rw [← shifted, ← weightedSum_eq_zipWith]; rfl⟩
  · have returned := congrArg Prod.fst (feed_lineOf t fun i => (v :: vs.reverse).getD i 0)
    have noValue : ∀ i, vs.length + 1 ≤ i → (tapCoeffs t).getD i 0 * (v :: vs.reverse).getD i 0 = 0 := fun i hi => by
      rw [List.getD_eq_default (v :: vs.reverse) 0 (by simpa using hi), mul_zero]
    have value : ∀ i, i < vs.length + 1 →
        (v :: vs.reverse).getD i 0 = (vs ++ [v]).getD (vs.length - i) 0 := fun i hi => by
      rw [← List.reverse_concat', List.getD_eq_getElem?_getD, List.getD_eq_getElem?_getD,
        List.getElem?_reverse (by simpa using hi), List.length_append, List.length_singleton, Nat.add_sub_cancel]
    rw [fed_eq_lineOf]
    refine returned.trans ((sum_map_range_min noValue _).trans (congrArg List.sum (List.map_congr_left fun i hi => ?_)))
    rw [value i (by rw [List.mem_range] at hi; omega)]

/-! ### Linearity -/

/-- A filter whose values are all scaled returns its answer scaled. -/
theorem feed_scaled (e : R) (t : Taps) (d : List R) (v : R) :
    feed t (d.map (e * ·)) (e * v) = (e * (feed t d v).1, (feed t d v).2.map (e * ·)) := by
  have sum (bs ds : List R) : weightedSum bs (ds.map (e * ·)) = e * weightedSum bs ds := by
    induction bs generalizing ds with
    | nil => simp [weightedSum]
    | cons b bs ih =>
      cases ds with
      | nil => simp [weightedSum]
      | cons d ds =>
        simp only [List.map_cons, weightedSum, ih]
        ring
  have shifted : shiftIn (e * v) (d.map (e * ·)) = (shiftIn v d).map (e * ·) := by
    simp [shiftIn, List.map_dropLast]
  rw [feed, shifted, sum]
  rfl

theorem freshFir_scaled (e : R) (t : Taps) : (freshFir t).map (e * ·) = freshFir t := by
  simp [freshFir]

theorem everySecond_scaled (e : R) (coeffs : List R) (u : Nat → R) (avs h : Nat) :
    everySecond coeffs (fun c => e * u c) avs h = e * everySecond coeffs u avs h := by
  rw [everySecond, everySecond, ← List.sum_map_mul_left]
  refine congrArg List.sum (List.map_congr_left fun i _ => ?_)
  split <;> ring

/-! ### Filters fed at every second column (41 R145; 45 R194 (d)) -/

/-- What stands at place `i` of a line fed `u` at every second column before column `k`, none left of `avs`. -/
def past (u : Nat → R) (avs k i : Nat) : R := if avs + 2 * (i + 1) ≤ k then u (k - 2 * (i + 1)) else 0

theorem freshFir_eq_past (t : Taps) (u : Nat → R) {avs k : Nat} (h : k ≤ avs + 1) :
    freshFir t = lineOf (tapCoeffs t).length (past u avs k) := by
  have nothing : past u avs k = fun _ => 0 := funext fun i => if_neg (by omega)
  rw [freshFir_eq_lineOf, nothing]

theorem feed_past (t : Taps) (u : Nat → R) {avs k : Nat} (h : avs ≤ k) :
    feed t (lineOf (tapCoeffs t).length (past u avs k)) (u k)
      = (everySecond (tapCoeffs t) u avs k, lineOf (tapCoeffs t).length (past u avs (k + 2))) := by
  have latest : past u avs (k + 2) 0 = u k := if_pos (by omega)
  have moved : (fun i => past u avs (k + 2) (i + 1)) = past u avs k := funext fun i => by
    unfold past
    rw [show k + 2 - 2 * (i + 1 + 1) = k - 2 * (i + 1) by omega]
    exact if_congr (by omega) rfl rfl
  have fed := feed_lineOf t (past u avs (k + 2))
  rw [latest, moved] at fed
  rw [fed, everySecond]
  refine congrArg (fun l : List R => (l.sum, _)) (List.map_congr_left fun i _ => ?_)
  unfold past
  rw [mul_ite, mul_zero, show k + 2 - 2 * (i + 1) = k - 2 * i by omega]
  exact if_congr (by omega) rfl rfl

end Sys2Proof.FirLines
end

section
/-! PROOFS. SEP1D (41 R145, R146): where a column faults and what it does otherwise; on every line the sign of the
inversion state is multiplied in before the filters and again after them, and so has no effect. -/

namespace Sys2Proof.Sep1d

open Sys2Proof Sys2Proof.Machine Sys2Proof.Safety Sys2Proof.Reference Sys2Proof.Laws Sys2Proof.ByteBounds
  Sys2Proof.FaultFree Sys2Proof.FrameSetup Sys2Proof.PhaseTracker Sys2Proof.FirLines

/-! ### One column -/

/-- The chroma sample of a column, signed and through its filter: the filter's value and the working registers. -/
def routedChroma (P : Impl) (r h : Nat) (x : Scratch) : R × Work :=
  route1d P (phase h) (sgn P x.work.inv * chromaSample x.fb r h) x.work

/-- What a column that reaches its samples does. -/
def filterColumn (P : Impl) (r h : Nat) (x : Scratch) : Scratch :=
  { x with
    fb := { x.fb with
      c1d := setCell (realKind .c1d) x.fb.c1d r h (sgn P x.work.inv * (routedChroma P r h x).1) }
    work := (routedChroma P r h x).2 }

/-- The three samples of a column stand in the frame and in the capacity (20_memory R66). -/
structure Reachable (P : Impl) (cfg : ConfigRegs) (r h : Nat) : Prop where
  left : 2 ≤ h
  right : h + 2 < cfg.FW
  row : (r : Int) < cfg.FRH
  rowCap : r < P.capRows
  colCap : h + 2 < P.capCols

theorem reachable_of_pixel {P : Impl} {cfg : ConfigRegs} {r h : Nat} (p : Pixel P cfg r h) : Reachable P cfg r h := by
  obtain ⟨left, right, row, rows, cols⟩ := p
  exact ⟨left, right, row, by omega, by omega⟩

/-- A sample of a reachable column, as the closed forms name it. -/
theorem Reachable.readRaw {P : Impl} {cfg : ConfigRegs} {r h : Nat} (reach : Reachable P cfg r h) (fb : FrameBuffer)
    {c : Nat} (hc : c ≤ h + 2) : readRaw P cfg fb r c = .ok (raw fb r c) := by
  obtain ⟨-, right, row, rowCap, colCap⟩ := reach
  exact readRaw_eq ((inFrame_nat cfg r c).2 ⟨(lt_frameRows_iff_FRH cfg r).2 row, by omega⟩)
    ((inCapacity_nat P r c).2 ⟨rowCap, by omega⟩) fb

theorem readRaw_ok {P : Impl} {cfg : ConfigRegs} {fb : FrameBuffer} {r c : Int} {v : R}
    (h : readRaw P cfg fb r c = .ok v) : inFrame cfg r c = true ∧ inCapacity P r c = true := by
  by_contra outside
  have fault : readRaw P cfg fb r c = .error .bounds := by
    unfold Machine.readRaw readCell
    by_cases frame : inFrame cfg r c = true
    · rw [if_pos frame, if_neg fun cap => outside ⟨frame, cap⟩]
      rfl
    · rw [if_neg frame]
  rw [fault] at h
  cases h

theorem sep1dColumn_of_reachable {P : Impl} {cfg : ConfigRegs} {r h : Nat} (reach : Reachable P cfg r h)
    (x : Scratch) : sep1dColumn P cfg r h x = .ok (filterColumn P r h x) := by
  have left : ((h : Int) - 2) = ((h - 2 : Nat) : Int) := (Nat.cast_sub reach.left).symm
  have right : ((h : Int) + 2) = ((h + 2 : Nat) : Int) := rfl
  have cap : inCapacity P r h = true := (inCapacity_nat P r h).2 ⟨reach.rowCap, by have := reach.colCap; omega⟩
  rw [sep1dColumn, left, right, reach.readRaw _ (by omega), reach.readRaw _ (by omega), reach.readRaw _ (by omega)]
  simp only [bind_ok_eq, writeCell_eq cap, Int.toNat_natCast]
  rfl

theorem reachable_of_sep1dColumn_ok {P : Impl} {cfg : ConfigRegs} {r h : Nat} {x y : Scratch}
    (hy : sep1dColumn P cfg r h x = .ok y) : Reachable P cfg r h := by
  obtain ⟨left, hleft, hy⟩ := bind_ok hy
  obtain ⟨right, hright, -⟩ := bind_ok hy
  obtain ⟨-, capLeft⟩ := readRaw_ok hleft
  obtain ⟨frame, cap⟩ := readRaw_ok hright
  have right : ((h : Int) + 2) = ((h + 2 : Nat) : Int) := rfl
  rw [right] at frame cap
  obtain ⟨row, col⟩ := (inFrame_nat cfg r (h + 2)).1 frame
  obtain ⟨rowCap, colCap⟩ := (inCapacity_nat P r (h + 2)).1 cap
  have inside : 2 ≤ h := by
    simp only [inCapacity, Bool.and_eq_true, decide_eq_true_eq] at capLeft
    omega
  exact ⟨inside, col, (lt_frameRows_iff_FRH cfg r).1 row, rowCap, colCap⟩

theorem sep1dColumn_ok {P : Impl} {cfg : ConfigRegs} {r h : Nat} {x y : Scratch}
    (hy : sep1dColumn P cfg r h x = .ok y) : Reachable P cfg r h ∧ y = filterColumn P r h x := by
  have reach := reachable_of_sep1dColumn_ok hy
  rw [sep1dColumn_of_reachable reach] at hy
  exact ⟨reach, (Except.ok.inj hy).symm⟩

/-! ### SEP1D beyond its bounds (20_memory R66, R68) -/

/-- One active column of a visible row that cannot be reached makes SEP1D fault. -/
theorem sep1d_faults_of_column {s : State} {r h : Nat} (hr : s.active.FVL ≤ r) (hr' : r < s.active.frameRows)
    (hh : s.active.AVS ≤ h) (hh' : h < s.active.AVE) (bad : ¬ Reachable Config.impl s.active r h) :
    ∃ t, exec .sep1d s = .next t ∧ FaultEntered .bounds s.seq s t := by
  have column (x : Scratch) : ∃ e, sep1dColumn Config.impl s.active r h x = .error e := by
    cases hy : sep1dColumn Config.impl s.active r h x with
    | error e => exact ⟨e, rfl⟩
    | ok y => exact absurd (reachable_of_sep1dColumn_ok hy) bad
  have line (x : Scratch) : sep1dLine Config.impl s.active r x = .error .bounds :=
    forRange_must_fail (body := sep1dColumn Config.impl s.active r) hh hh' (fun _ _ _ => sep1dColumn_fault) column _
  have body : sep1dBody Config.impl s s.scratch = .error .bounds := by
    refine forRange_must_fail hr hr' (fun _ _ _ he => ?_) (fun x => ⟨.bounds, line x⟩) _
    obtain ⟨c, z, -, -, he⟩ := forRange_fault he
    exact sep1dColumn_fault he
  exact ⟨raise .bounds s, runPass_error body, faultEntered_raise .bounds s⟩

/-- Settles O21: on the first visible row, the first column of the window has no sample two columns to its left, or the
last one none two to its right. -/
theorem sep1dRaisesBoundsFault : Obligations.Sep1dRaisesBoundsFault := by
  rintro s rows columns (left | right)
  · exact sep1d_faults_of_column le_rfl ((lt_frameRows_iff_FRH _ _).2 rows) le_rfl columns
      fun reach => by have := reach.left; omega
  · exact sep1d_faults_of_column (h := s.active.AVE - 1) le_rfl ((lt_frameRows_iff_FRH _ _).2 rows) (by omega)
      (by omega) fun reach => by have := reach.right; omega

/-! ### The filters of a line (41 R145) -/

theorem route1d_even (P : Impl) {h : Nat} (even : h % 2 = 0) (t : R) (w : Work) :
    route1d P (phase h) t w = (quadrantSign h * (feed P.fir1dI w.fi (quadrantSign h * t)).1,
      { w with fi := (feed P.fir1dI w.fi (quadrantSign h * t)).2 }) := by
  rcases (by omega : h % 4 = 0 ∨ h % 4 = 2) with q | q <;> simp [phase, Config.phases, quadrantSign, route1d, q]

theorem route1d_odd (P : Impl) {h : Nat} (odd : h % 2 = 1) (t : R) (w : Work) :
    route1d P (phase h) t w = (quadrantSign h * (feed P.fir1dQ w.fq (quadrantSign h * t)).1,
      { w with fq := (feed P.fir1dQ w.fq (quadrantSign h * t)).2 }) := by
  rcases (by omega : h % 4 = 1 ∨ h % 4 = 3) with q | q <;> simp [phase, Config.phases, quadrantSign, route1d, q]

@[simp] theorem route1d_inv (P : Impl) (ph : Phase) (t : R) (w : Work) : (route1d P ph t w).2.inv = w.inv := by
  cases ph <;> rfl

/-- Before column `h` of a line: each of the two filters holds what `u` gave it at the columns of its parity. -/
structure FedTo (P : Impl) (u : Nat → R) (avs h : Nat) (w : Work) : Prop where
  fi : w.fi = lineOf (tapCoeffs P.fir1dI).length (past u avs (h + h % 2))
  fq : w.fq = lineOf (tapCoeffs P.fir1dQ).length (past u avs (h + (h + 1) % 2))

theorem fedTo_lineStart (P : Impl) (u : Nat → R) (avs r : Nat) (w : Work) :
    FedTo P u avs avs (sep1dLineStart P r w) :=
  ⟨freshFir_eq_past P.fir1dI u (by omega), freshFir_eq_past P.fir1dQ u (by omega)⟩

/-- The tap list of a column's parity. -/
def coeffsAt (P : Impl) (h : Nat) : List R := if h % 2 = 0 then tapCoeffs P.fir1dI else tapCoeffs P.fir1dQ

/-- A column feeds the filter of its parity; the other one waits. -/
theorem route1d_fed {P : Impl} {u : Nat → R} {avs h : Nat} {w : Work} {t : R} (hh : avs ≤ h)
    (fed : FedTo P u avs h w) (value : u h = quadrantSign h * t) :
    (route1d P (phase h) t w).1 = quadrantSign h * everySecond (coeffsAt P h) u avs h
      ∧ FedTo P u avs (h + 1) (route1d P (phase h) t w).2 := by
  obtain ⟨fi, fq⟩ := fed
  rcases Nat.mod_two_eq_zero_or_one h with even | odd
  · rw [even, Nat.add_zero] at fi
    rw [route1d_even P even, ← value, fi, feed_past _ _ hh, coeffsAt, if_pos even]
    refine ⟨rfl, ?_, ?_⟩
    · rw [show h + 1 + (h + 1) % 2 = h + 2 by omega]
    · rw [show h + 1 + (h + 1 + 1) % 2 = h + (h + 1) % 2 by omega]
      exact fq
  · rw [show h + (h + 1) % 2 = h by omega] at fq
    rw [route1d_odd P odd, ← value, fq, feed_past _ _ hh, coeffsAt, if_neg (by omega)]
    refine ⟨rfl, ?_, ?_⟩
    · rw [show h + 1 + (h + 1) % 2 = h + h % 2 by omega]
      exact fi
    · rw [show h + 1 + (h + 1 + 1) % 2 = h + 2 by omega]

/-! ### The estimate of a column (41 R145, R146) -/

/-- What SEP1D writes into a visible, active cell. -/
def estimateAt (P : Impl) (cfg : ConfigRegs) (fb : FrameBuffer) (r h : Nat) : R :=
  estimate1d (tapCoeffs P.fir1dI) (tapCoeffs P.fir1dQ) (chromaSample fb r) cfg.AVS h

/-- What the filters of row `r` are fed, with the sign `e` of the line. -/
def fedSample (e : R) (fb : FrameBuffer) (r c : Nat) : R := e * (quadrantSign c * chromaSample fb r c)

/-- The sign of the line, multiplied in before the filter and again after it, cancels (41 R146). -/
theorem sign_cancels {e : R} (unit : e * e = 1) (P : Impl) (cfg : ConfigRegs) (fb : FrameBuffer) (r h : Nat) :
    e * (quadrantSign h * everySecond (coeffsAt P h) (fedSample e fb r) cfg.AVS h) = estimateAt P cfg fb r h := by
  calc e * (quadrantSign h * everySecond (coeffsAt P h) (fedSample e fb r) cfg.AVS h)
      = e * e * estimateAt P cfg fb r h := by
        rw [show fedSample e fb r = fun c => e * (quadrantSign c * chromaSample fb r c) from rfl, everySecond_scaled,
          estimateAt, estimate1d, coeffsAt]
        ring
    _ = estimateAt P cfg fb r h := by rw [unit, one_mul]

/-! ### The body of SEP1D -/

/-- SEP1D, started from `x`, has filtered the visible, active cells before row `r`, column `h`; every other cell of
`C1D`, and `RAW`, are as before. -/
structure FilteredTo (P : Impl) (cfg : ConfigRegs) (x : Scratch) (r h : Nat) (y : Scratch) : Prop where
  raw : y.fb.raw = x.fb.raw
  cells : ∀ r' h', c1d y.fb r' h' =
    if cfg.FVL ≤ r' ∧ (cfg.AVS ≤ h' ∧ h' < cfg.AVE) ∧ (r' < r ∨ r' = r ∧ h' < h) then estimateAt P cfg x.fb r' h'
    else c1d x.fb r' h'

theorem filteredTo_start (P : Impl) (cfg : ConfigRegs) (x : Scratch) (w : Work) :
    FilteredTo P cfg x cfg.FVL cfg.AVS { x with work := w } :=
  ⟨rfl, fun _ _ => (if_neg (by omega)).symm⟩

/-- A full row is the start of the next one. -/
theorem FilteredTo.nextRow {P : Impl} {cfg : ConfigRegs} {x y : Scratch} {r : Nat}
    (f : FilteredTo P cfg x r (max cfg.AVS cfg.AVE) y) : FilteredTo P cfg x (r + 1) cfg.AVS y :=
  ⟨f.raw, fun r' h' => by
    rw [f.cells]
    exact if_congr (by omega) rfl rfl⟩

/-- In row `r`, before column `h`: the line's inversion state stands, and its filters hold the samples fed. -/
structure InLine (P : Impl) (cfg : ConfigRegs) (x : Scratch) (flag : Bool) (r h : Nat) (y : Scratch) : Prop where
  filtered : FilteredTo P cfg x r h y
  inv : y.work.inv = flag
  fed : FedTo P (fedSample (sgn P flag) x.fb r) cfg.AVS h y.work

theorem chromaSample_congr {fb fb' : FrameBuffer} (raw : fb'.raw = fb.raw) (r h : Nat) :
    chromaSample fb' r h = chromaSample fb r h := by
  simp only [chromaSample, Reference.raw, raw]

theorem InLine.column {P : Impl} {cfg : ConfigRegs} {x y : Scratch} {inv : Bool} {r h : Nat}
    (line : InLine P cfg x inv r h y) (hr : cfg.FVL ≤ r) (hh : cfg.AVS ≤ h) (hh' : h < cfg.AVE) :
    InLine P cfg x inv r (h + 1) (filterColumn P r h y) := by
  obtain ⟨⟨raw, cells⟩, same, fed⟩ := line
  have value : fedSample (sgn P inv) x.fb r h = quadrantSign h * (sgn P y.work.inv * chromaSample y.fb r h) := by
    rw [same, chromaSample_congr raw, fedSample]
    ring
  obtain ⟨answer, fed'⟩ := route1d_fed hh fed value
  refine ⟨⟨raw, fun r' h' => ?_⟩, (route1d_inv ..).trans same, fed'⟩
  have written : sgn P y.work.inv * (routedChroma P r h y).1 = estimateAt P cfg x.fb r h := by
    rw [routedChroma, answer, same, sign_cancels (sgn_mul_self P inv)]
  rw [c1d, filterColumn, cellAt_setCell, written]
  by_cases here : r' = r ∧ h' = h
  · obtain ⟨rfl, rfl⟩ := here
    rw [if_pos ⟨rfl, rfl⟩, if_pos ⟨hr, ⟨hh, hh'⟩, by omega⟩]
  · rw [if_neg here]
    exact (cells r' h').trans (if_congr (by omega) rfl rfl)

/-- Under the conditions of R68 the body of SEP1D filters every visible, active cell. -/
theorem sep1dBody_filters {P : Impl} {s : State} (hb : BoundsFree P s) (x : Scratch) :
    ∃ y, sep1dBody P s x = .ok y
      ∧ FilteredTo P s.active x (max s.active.FVL s.active.frameRows) s.active.AVS y := by
  have row : ∀ r y, s.active.FVL ≤ r → r < s.active.frameRows → FilteredTo P s.active x r s.active.AVS y →
      ∃ y', sep1dLine P s.active r y = .ok y' ∧ FilteredTo P s.active x (r + 1) s.active.AVS y' := by
    intro r y hr hr' filtered
    obtain ⟨z, hz, line⟩ := forRange_run (InLine P s.active x (sep1dLineStart P r y.work).inv r)
      (fun h z hh hh' line =>
        ⟨_, sep1dColumn_of_reachable (reachable_of_pixel (pixel_of_boundsFree hb hr hr' hh hh')) z, line.column hr hh hh'⟩)
      (show InLine P s.active x _ r s.active.AVS { y with work := sep1dLineStart P r y.work } from
        ⟨⟨filtered.raw, filtered.cells⟩, rfl, fedTo_lineStart ..⟩)
    exact ⟨z, hz, line.filtered.nextRow⟩
  exact forRange_run (fun r => FilteredTo P s.active x r s.active.AVS) row (filteredTo_start P s.active x _)

/-- The hold registers of the combiner and of the low-pass (10_state R22, R23). -/
def holds (w : Work) : R × R × R × R := (w.si, w.sq, w.vi, w.vq)

theorem sep1dLineStart_holds (P : Impl) (r : Nat) (w : Work) : holds (sep1dLineStart P r w) = holds w := by
  unfold sep1dLineStart trackerVisit
  split <;> rfl

theorem route1d_holds (P : Impl) (ph : Phase) (t : R) (w : Work) : holds (route1d P ph t w).2 = holds w := by
  cases ph <;> rfl

theorem sep1dBody_holds {P : Impl} {s : State} {x y : Scratch} (h : sep1dBody P s x = .ok y) :
    holds y.work = holds x.work := by
  refine forRange_keeps (fun z => holds z.work = holds x.work) (fun r z z' _ _ hz hline => ?_) rfl h
  refine forRange_keeps (fun z' => holds z'.work = holds x.work) (fun h z z' _ _ hz hcol => ?_)
    ((sep1dLineStart_holds P r z.work).trans hz) hline
  obtain ⟨-, rfl⟩ := sep1dColumn_ok hcol
  exact (route1d_holds ..).trans hz

/-- Settles O20: the loop over the window filters it cell by cell; of the working registers only the tracker's and the
delay lines are touched. -/
theorem sep1dFiltersTheRoutedSamples : Obligations.Sep1dFiltersTheRoutedSamples := by
  intro s hb
  obtain ⟨y, hy, filtered⟩ := sep1dBody_filters hb s.scratch
  obtain ⟨p, w, rfl, -⟩ := sep1dBody_wrote hy
  obtain ⟨si, sq, vi, vq⟩ : w.si = s.work.si ∧ w.sq = s.work.sq ∧ w.vi = s.work.vi ∧ w.vq = s.work.vq := by
    simpa [holds, State.scratch] using sep1dBody_holds hy
  have inside (r h : Nat) : (s.active.FVL ≤ r ∧ (s.active.AVS ≤ h ∧ h < s.active.AVE)
        ∧ (r < max s.active.FVL s.active.frameRows ∨ r = max s.active.FVL s.active.frameRows ∧ h < s.active.AVS))
      ↔ visible s.active r ∧ activeCol s.active h := by
    simp only [visible, activeCol, ← lt_frameRows_iff_FRH]
    omega
  refine ⟨_, runPass_ok hy, finishPass_passFrame .sep1d _ s _, ?_, ?_⟩
  · rw [SameOut, finishPass_mem]
    exact fun _ => rfl
  · rw [finishPass_fb, finishPass_work]
    refine ⟨rfl, fun r h hr hh => ?_, fun r h outside => ?_, rfl, rfl, si, sq, vi, vq⟩
    · rw [filtered.cells, if_pos ((inside r h).2 ⟨hr, hh⟩)]
      rfl
    · rw [filtered.cells, if_neg fun hin => outside ((inside r h).1 hin)]
      rfl

/-! ### Runs with another inversion state (41 R146) -/

/-- Loops whose turns correspond correspond. -/
theorem forRange_simulates {σ τ : Type} {a b : Nat} (rel : σ → τ → Prop) {body : Nat → σ → Except FaultCause σ}
    {body' : Nat → τ → Except FaultCause τ}
    (turn : ∀ v y y' z, rel y y' → body v y = .ok z → ∃ z', body' v y' = .ok z' ∧ rel z z') {x y : σ} {x' : τ}
    (start : rel x x') (h : forRange a b body x = .ok y) : ∃ y', forRange a b body' x' = .ok y' ∧ rel y y' := by
  induction hn : b - a generalizing a x x' with
  | zero =>
    rw [forRange_empty (by omega)] at h
    cases h
    exact ⟨x', forRange_empty (by omega) _ _, start⟩
  | succ n ih =>
    rw [forRange_turn (by omega)] at h ⊢
    obtain ⟨z, hz, h⟩ := bind_ok h
    obtain ⟨z', hz', related⟩ := turn a x x' z start hz
    rw [hz']
    exact ih (a := a + 1) related h (by omega)

section Inversion

variable (P : Impl) (b : Bool) (p1 p2 : BitVec 8)

/-- The parameters with another `INV_NEGATES`. -/
def withNegates : Impl := { P with invNegates := b }

/-- The frame with other phase IDs. -/
def withPhases (fb : FrameBuffer) : FrameBuffer := { fb with ph1 := p1, ph2 := p2 }

/-- In a line of the two runs: the frames differ at most in their phase IDs, and the second run's sign and delay lines are
the first's times `e`. -/
structure SameLine (e : R) (x x' : Scratch) : Prop where
  fb : x'.fb = withPhases p1 p2 x.fb
  sign : sgn (withNegates P b) x'.work.inv = e * sgn P x.work.inv
  fi : x'.work.fi = x.work.fi.map (e * ·)
  fq : x'.work.fq = x.work.fq.map (e * ·)

variable {P b p1 p2}

theorem Reachable.withNegates {cfg : ConfigRegs} {r h : Nat} (reach : Reachable P cfg r h) :
    Reachable (withNegates P b) cfg r h := ⟨reach.left, reach.right, reach.row, reach.rowCap, reach.colCap⟩

/-- A line starts with fresh filters, whose zeros any factor keeps; the factor is the product of the two signs. -/
theorem sameLine_start {x x' : Scratch} (fb : x'.fb = withPhases p1 p2 x.fb) (r : Nat) :
    ∃ e, e * e = 1 ∧ SameLine P b p1 p2 e { x with work := sep1dLineStart P r x.work }
      { x' with work := sep1dLineStart (withNegates P b) r x'.work } := by
  have unit' := sgn_mul_self (withNegates P b) (sep1dLineStart (withNegates P b) r x'.work).inv
  have unit := sgn_mul_self P (sep1dLineStart P r x.work).inv
  refine ⟨sgn (withNegates P b) (sep1dLineStart (withNegates P b) r x'.work).inv
    * sgn P (sep1dLineStart P r x.work).inv, ?_, fb, ?_, (freshFir_scaled _ _).symm, (freshFir_scaled _ _).symm⟩
  · rw [mul_mul_mul_comm, unit', unit, one_mul]
  · rw [mul_assoc, unit, mul_one]

/-- Scaled delay lines and a scaled sample give a scaled answer and scaled delay lines. -/
theorem route1d_scaled (e : R) (ph : Phase) (t : R) {w w' : Work} (fi : w'.fi = w.fi.map (e * ·))
    (fq : w'.fq = w.fq.map (e * ·)) :
    (route1d (withNegates P b) ph (e * t) w').1 = e * (route1d P ph t w).1
      ∧ (route1d (withNegates P b) ph (e * t) w').2.fi = (route1d P ph t w).2.fi.map (e * ·)
      ∧ (route1d (withNegates P b) ph (e * t) w').2.fq = (route1d P ph t w).2.fq.map (e * ·) := by
  cases ph <;> simp [route1d, withNegates, fi, fq, ← mul_neg, feed_scaled]

theorem SameLine.column {e : R} (unit : e * e = 1) {x x' : Scratch} (line : SameLine P b p1 p2 e x x')
    (r h : Nat) :
    SameLine P b p1 p2 e (filterColumn P r h x) (filterColumn (withNegates P b) r h x') := by
  obtain ⟨fb, sign, fi, fq⟩ := line
  have sample : sgn (withNegates P b) x'.work.inv * chromaSample x'.fb r h
      = e * (sgn P x.work.inv * chromaSample x.fb r h) := by
    rw [sign, mul_assoc, chromaSample_congr (congrArg FrameBuffer.raw fb)]
    rfl
  obtain ⟨answer, fi', fq'⟩ := route1d_scaled (P := P) (b := b) e (phase h)
    (sgn P x.work.inv * chromaSample x.fb r h) fi fq
  rw [← sample] at answer fi' fq'
  have written : sgn (withNegates P b) x'.work.inv * (routedChroma (withNegates P b) r h x').1
      = sgn P x.work.inv * (routedChroma P r h x).1 := by
    rw [routedChroma, answer, sign, mul_mul_mul_comm, unit, one_mul]
    rfl
  refine ⟨?_, ?_, fi', fq'⟩
  · rw [filterColumn, written, fb]
    rfl
  · simpa [filterColumn, routedChroma] using sign

/-- Runs of a line from frames that differ at most in their phase IDs end with such frames. -/
theorem sep1dLine_simulates {cfg : ConfigRegs} {r : Nat} {x x' y : Scratch} (fb : x'.fb = withPhases p1 p2 x.fb)
    (h : sep1dLine P cfg r x = .ok y) :
    ∃ y', sep1dLine (withNegates P b) cfg r x' = .ok y' ∧ y'.fb = withPhases p1 p2 y.fb := by
  obtain ⟨e, unit, start⟩ := sameLine_start (P := P) (b := b) fb r
  have column : ∀ h x x' z, SameLine P b p1 p2 e x x' → sep1dColumn P cfg r h x = .ok z →
      ∃ z', sep1dColumn (withNegates P b) cfg r h x' = .ok z' ∧ SameLine P b p1 p2 e z z' := by
    intro h x x' z line hz
    obtain ⟨reach, rfl⟩ := sep1dColumn_ok hz
    exact ⟨_, sep1dColumn_of_reachable reach.withNegates x', line.column unit r h⟩
  obtain ⟨y', hy', line⟩ := forRange_simulates (SameLine P b p1 p2 e) column start h
  exact ⟨y', hy', line.fb⟩

end Inversion

/-- Settles O22: the two runs keep frames that differ at most in their phase IDs, line by line. -/
theorem sep1dIgnoresTheInversionState : Obligations.Sep1dIgnoresTheInversionState := by
  intro P s x y b p1 p2 hy
  obtain ⟨z, hz, fb⟩ := forRange_simulates (body := sep1dLine P s.active)
    (body' := sep1dLine (withNegates P b) s.active) (fun x x' : Scratch => x'.fb = withPhases p1 p2 x.fb)
    (fun _ _ _ _ fb hline => sep1dLine_simulates (b := b) fb hline)
    (x := { x with work := trackerInit x.fb x.work })
    (x' := { x with fb := withPhases p1 p2 x.fb, work := trackerInit (withPhases p1 p2 x.fb) x.work }) rfl hy
  exact ⟨z, hz, by rw [fb]; rfl⟩

end Sys2Proof.Sep1d
end

section
/-! PROOFS. Loops whose turns write cells (00_scope R12): a finished loop has written the cells of its turns, each with
its own value, and left every other cell alone. -/

namespace Sys2Proof.WindowLoops

open Sys2Proof Sys2Proof.Machine Sys2Proof.Laws

section Writes

variable {σ α : Type} {read : σ → Nat → Nat → α} {value : Nat → Nat → α}

/-- From `x` to `y` the cells of `region` took their `value`, and every other cell reads as before. -/
def Writes (read : σ → Nat → Nat → α) (value : Nat → Nat → α) (region : Nat → Nat → Prop) (x y : σ) : Prop :=
  ∀ r h, (region r h → read y r h = value r h) ∧ (¬ region r h → read y r h = read x r h)

theorem Writes.none {region : Nat → Nat → Prop} (empty : ∀ r h, ¬ region r h) (x : σ) :
    Writes read value region x x := fun r h => ⟨fun inside => absurd inside (empty r h), fun _ => rfl⟩

theorem Writes.congr {A B : Nat → Nat → Prop} (same : ∀ r h, A r h ↔ B r h) {x y : σ}
    (w : Writes read value A x y) : Writes read value B x y := fun r h => by
  rw [← same r h]
  exact w r h

theorem Writes.trans {A B : Nat → Nat → Prop} {x y z : σ} (first : Writes read value A x y)
    (second : Writes read value B y z) : Writes read value (fun r h => A r h ∨ B r h) x z := by
  intro r h
  obtain ⟨inA, outA⟩ := first r h
  obtain ⟨inB, outB⟩ := second r h
  by_cases b : B r h
  · exact ⟨fun _ => inB b, fun outside => absurd (.inr b) outside⟩
  · rw [outB b]
    exact ⟨fun inside => inA (inside.resolve_right b), fun outside => outA fun a => outside (.inl a)⟩

/-- A loop each turn `v` of which succeeds, keeps `keep` and writes `region v` writes the regions of all its turns. -/
theorem forRange_writes {a b : Nat} (keep : σ → Prop) (region : Nat → Nat → Nat → Prop)
    {body : Nat → σ → Except FaultCause σ}
    (turn : ∀ v y, a ≤ v → v < b → keep y → ∃ z, body v y = .ok z ∧ keep z ∧ Writes read value (region v) y z)
    {x : σ} (start : keep x) :
    ∃ y, forRange a b body x = .ok y ∧ keep y
      ∧ Writes read value (fun r h => ∃ v, (a ≤ v ∧ v < b) ∧ region v r h) x y := by
  obtain ⟨y, run, kept, written⟩ := forRange_run
    (fun n y => keep y ∧ Writes read value (fun r h => ∃ v, (a ≤ v ∧ v < n) ∧ region v r h) x y)
    (fun v y lo hi ⟨kept, before⟩ => by
      obtain ⟨z, run, kept', now⟩ := turn v y lo hi kept
      refine ⟨z, run, kept', (before.trans now).congr fun r h => ⟨?_, ?_⟩⟩
      · rintro (⟨u, bounds, inside⟩ | inside)
        · exact ⟨u, by omega, inside⟩
        · exact ⟨v, by omega, inside⟩
      · rintro ⟨u, bounds, inside⟩
        rcases (by omega : u < v ∨ u = v) with earlier | rfl
        · exact .inl ⟨u, by omega, inside⟩
        · exact .inr inside)
    ⟨start, Writes.none (fun r h => by rintro ⟨v, bounds, -⟩; omega) x⟩
  refine ⟨y, run, kept, written.congr fun r h => exists_congr fun v => and_congr_left' ?_⟩
  omega

/-- A loop over a window of rows and columns, each turn of which writes its own cell, writes the window. -/
theorem window_writes {top bottom left right : Nat} (keep : σ → Prop) {column : Nat → Nat → σ → Except FaultCause σ}
    (turn : ∀ r h y, top ≤ r → r < bottom → left ≤ h → h < right → keep y → ∃ z, column r h y = .ok z ∧ keep z
      ∧ Writes read value (fun r' h' => r' = r ∧ h' = h) y z)
    {x : σ} (start : keep x) :
    ∃ y, forRange top bottom (fun r => forRange left right (column r)) x = .ok y ∧ keep y
      ∧ Writes read value (fun r h => (top ≤ r ∧ r < bottom) ∧ left ≤ h ∧ h < right) x y := by
  have row : ∀ r y, top ≤ r → r < bottom → keep y → ∃ z, forRange left right (column r) y = .ok z ∧ keep z
      ∧ Writes read value (fun r' h' => r' = r ∧ left ≤ h' ∧ h' < right) y z := by
    intro r y lo hi kept
    obtain ⟨z, run, kept', written⟩ := forRange_writes keep (fun h r' h' => r' = r ∧ h' = h)
      (fun h y lo' hi' => turn r h y lo hi lo' hi') kept
    exact ⟨z, run, kept', written.congr fun r' h' =>
      ⟨fun ⟨_, bounds, same, rfl⟩ => ⟨same, bounds⟩, fun ⟨same, bounds⟩ => ⟨h', bounds, same, rfl⟩⟩⟩
  obtain ⟨y, run, kept, written⟩ := forRange_writes keep (fun r r' h' => r' = r ∧ left ≤ h' ∧ h' < right) row start
  exact ⟨y, run, kept, written.congr fun r' h' =>
    ⟨fun ⟨_, bounds, rfl, cols⟩ => ⟨bounds, cols⟩, fun ⟨bounds, cols⟩ => ⟨r', bounds, rfl, cols⟩⟩⟩

end Writes

theorem setCell_writes {α : Type} [DecidableEq α] (kind : CellKind α) (p : Plane α) (value : Nat → Nat → α)
    (r h : Nat) :
    Writes (cellAt kind) value (fun r' h' => r' = r ∧ h' = h) p (setCell kind p r h (value r h)) := by
  refine fun r' h' => ⟨?_, fun outside => cellAt_setCell_other kind p outside _⟩
  rintro ⟨rfl, rfl⟩
  exact cellAt_setCell_self ..

end Sys2Proof.WindowLoops
end

section
/-! PROOFS. SEP2D (42 R160 to R165): the weight of a difference, the cases of the tie-break, the estimate of one pixel,
and the rows and columns the pass writes. -/

namespace Sys2Proof.Sep2d

open Sys2Proof Sys2Proof.Machine Sys2Proof.Safety Sys2Proof.Reference Sys2Proof.Laws Sys2Proof.ByteBounds
  Sys2Proof.FaultFree Sys2Proof.FrameSetup Sys2Proof.WindowLoops

/-! ### Arithmetic (00_scope R11) -/

theorem magnitude_eq_abs (v : R) : magnitude v = |v| := by
  unfold magnitude
  split
  · exact (abs_of_nonneg ‹_›).symm
  · exact (abs_of_neg (lt_of_not_ge ‹_›)).symm

theorem clamp_eq_max_min {lo hi : R} (ordered : lo ≤ hi) (v : R) : clamp v lo hi = max lo (min hi v) := by
  unfold clamp
  split
  · rename_i below
    rw [min_eq_right (below.le.trans ordered), max_eq_left below.le]
  · split
    · rename_i above
      rw [min_eq_left above.le, max_eq_right ordered]
    · rename_i notBelow notAbove
      rw [min_eq_right (le_of_not_gt notAbove), max_eq_right (le_of_not_gt notBelow)]

/-! ### The weight of a difference (42 R162) -/

theorem lineWeight_eq (ires d : R) : lineWeight ires d = max 0 (min 1 (1 - d / (45 * ires))) :=
  clamp_eq_max_min zero_le_one _

theorem lineWeight_nonneg (ires d : R) : 0 ≤ lineWeight ires d := by
  rw [lineWeight_eq]
  exact le_max_left ..

theorem lineWeight_le_one (ires d : R) : lineWeight ires d ≤ 1 := by
  rw [lineWeight_eq]
  exact max_le zero_le_one (min_le_left ..)

theorem lineWeight_of_nonpos {ires d : R} (pos : 0 < ires) (h : d ≤ 0) : lineWeight ires d = 1 := by
  have quotient : d / (45 * ires) ≤ 0 := div_nonpos_of_nonpos_of_nonneg h (by positivity)
  rw [lineWeight_eq, min_eq_left (by linarith), max_eq_right zero_le_one]

theorem lineWeight_of_range_le {ires d : R} (pos : 0 < ires) (h : 45 * ires ≤ d) : lineWeight ires d = 0 := by
  have quotient : 1 ≤ d / (45 * ires) := (one_le_div (by positivity)).2 h
  rw [lineWeight_eq, max_eq_left (min_le_of_right_le (by linarith))]

theorem lineWeight_between {ires d : R} (pos : 0 < ires) (low : 0 ≤ d) (high : d ≤ 45 * ires) :
    lineWeight ires d = 1 - d / (45 * ires) := by
  have nonneg : 0 ≤ d / (45 * ires) := by positivity
  have le_one : d / (45 * ires) ≤ 1 := (div_le_one (by positivity)).2 high
  rw [lineWeight_eq, min_eq_right (by linarith), max_eq_right (by linarith)]

/-- Settles O23: the clamped line, one lemma for each of its stretches. -/
theorem weightFallsLinearlyFromOneToZero : Obligations.WeightFallsLinearlyFromOneToZero := fun ires d pos =>
  ⟨lineWeight_eq ires d, lineWeight_nonneg ires d, lineWeight_le_one ires d, lineWeight_of_nonpos pos,
    lineWeight_of_range_le pos, lineWeight_between pos⟩

/-! ### The tie-break (42 R163, R164) -/

section TieBreak

variable {kp kn p0 n0 : R}

/-- Two weights of at most 1 leave a gain of at least 1. -/
theorem one_le_gain {k : R} (pos : 0 < k) (le_two : k ≤ 2) : 1 ≤ 2 / k := (one_le_div pos).2 le_two

/-- A next line that outweighs the previous one more than three times stands alone (42 R163). -/
theorem tieBreak_next_dominates (hp : 0 ≤ kp) (hn : kn ≤ 1) (h : 3 * kp < kn) :
    tieBreak kp kn p0 n0 = (0, kn, 2 / kn) ∧ 1 ≤ 2 / kn := by
  have pos : 0 < kn := by linarith
  have exceeds : Config.ratio2d * kp < kn := h
  have gain : 1 ≤ 2 / kn := one_le_gain pos (by linarith)
  refine ⟨?_, gain⟩
  simp only [tieBreak, if_pos (Or.inr pos), if_pos exceeds, zero_add, if_neg gain.not_gt]

/-- A previous line that outweighs the next one more than three times stands alone (42 R163). -/
theorem tieBreak_prev_dominates (hn : 0 ≤ kn) (hp : kp ≤ 1) (h : 3 * kn < kp) :
    tieBreak kp kn p0 n0 = (kp, 0, 2 / kp) ∧ 1 ≤ 2 / kp := by
  have pos : 0 < kp := by linarith
  have exceeds : Config.ratio2d * kn < kp := h
  have other : ¬ Config.ratio2d * kp < kn := show ¬ 3 * kp < kn by linarith
  have gain : 1 ≤ 2 / kp := one_le_gain pos (by linarith)
  refine ⟨?_, gain⟩
  simp only [tieBreak, if_pos (Or.inl pos), if_neg other, if_pos exceeds, add_zero, if_neg gain.not_gt]

/-- Weights within a factor of three of each other both stand (42 R163). -/
theorem tieBreak_balanced (hp : kp ≤ 1) (hn : kn ≤ 1) (pos : 0 < kp + kn) (next : kn ≤ 3 * kp)
    (prev : kp ≤ 3 * kn) : tieBreak kp kn p0 n0 = (kp, kn, 2 / (kp + kn)) ∧ 1 ≤ 2 / (kp + kn) := by
  have weighted : 0 < kp ∨ 0 < kn := .inl (by linarith)
  have nextWithin : ¬ Config.ratio2d * kp < kn := next.not_gt
  have prevWithin : ¬ Config.ratio2d * kn < kp := prev.not_gt
  have gain : 1 ≤ 2 / (kp + kn) := one_le_gain pos (by linarith)
  refine ⟨?_, gain⟩
  simp only [tieBreak, if_pos weighted, if_neg nextWithin, if_neg prevWithin, if_neg gain.not_gt]

/-- With both weights 0 the agreement test decides (42 R164). -/
theorem tieBreak_zero (p0 n0 : R) :
    tieBreak 0 0 p0 n0 = if |(|p0| - |n0|)| ≤ |p0 + n0| / 5 then (1, 1, 1) else (0, 0, 1) := by
  have test : |(|p0| - |n0|)| - 1 / 5 * |p0 + n0| ≤ 0 ↔ |(|p0| - |n0|)| ≤ |p0 + n0| / 5 := by
    constructor <;> intro h <;> linarith
  simp only [tieBreak, lt_irrefl, or_self, if_false, magnitude_eq_abs, Config.tolPair, test]

/-- The scale of the tie-break is never below 1, whichever of its cases applies. -/
theorem one_le_tieBreak_scale (hp : 0 ≤ kp) (hp' : kp ≤ 1) (hn : 0 ≤ kn) (hn' : kn ≤ 1) :
    1 ≤ (tieBreak kp kn p0 n0).2.2 := by
  by_cases nextDominates : 3 * kp < kn
  · obtain ⟨eq, gain⟩ := tieBreak_next_dominates (p0 := p0) (n0 := n0) hp hn' nextDominates
    rwa [eq]
  by_cases prevDominates : 3 * kn < kp
  · obtain ⟨eq, gain⟩ := tieBreak_prev_dominates (p0 := p0) (n0 := n0) hn hp' prevDominates
    rwa [eq]
  rcases (add_nonneg hp hn).lt_or_eq with pos | zero
  · obtain ⟨eq, gain⟩ := tieBreak_balanced (p0 := p0) (n0 := n0) hp' hn' pos (le_of_not_gt nextDominates)
      (le_of_not_gt prevDominates)
    rwa [eq]
  · obtain ⟨rfl, rfl⟩ : kp = 0 ∧ kn = 0 := ⟨by linarith, by linarith⟩
    rw [tieBreak_zero]
    split <;> exact le_rfl

end TieBreak

/-- Settles O24: the cases of R163 when a weight is above 0, and the agreement test of R164 when both are 0. -/
theorem tieBreakFollowsItsCases : Obligations.TieBreakFollowsItsCases := by
  intro kp kn p0 n0 hp hp' hn hn'
  refine ⟨fun h => (tieBreak_next_dominates hp hn' h).1, fun h => (tieBreak_prev_dominates hn hp' h).1,
    fun pos next prev => (tieBreak_balanced hp' hn' pos next prev).1, ?_, ?_, one_le_tieBreak_scale hp hp' hn hn'⟩
  · rintro rfl rfl agree
    rw [tieBreak_zero, if_pos agree]
  · rintro rfl rfl disagree
    rw [tieBreak_zero, if_neg disagree.not_ge]

/-! ### The estimate of one pixel (42 R161, R165) -/

theorem lineDifference_eq (c0 c1 x0 x1 : R) :
    lineDifference c0 c1 x0 x1 = |(|c0| - |x0|)| + |(|c1| - |x1|)| - 1 / 10 * (|c0| + |c1|) := by
  simp only [lineDifference, magnitude_eq_abs, Config.tolLine]

theorem tieBreak_one_one (p0 n0 : R) : tieBreak 1 1 p0 n0 = (1, 1, 1) := by
  obtain ⟨eq, -⟩ := tieBreak_balanced (kp := 1) (kn := 1) (p0 := p0) (n0 := n0) le_rfl le_rfl (by norm_num)
    (by norm_num) (by norm_num)
  rw [eq]
  norm_num

/-- Settles O25: on an ideal colour both weights stand at 1 with scale 1, and the two differences are `2·c0`. -/
theorem estimate2dFollowsItsFormula : Obligations.Estimate2dFollowsItsFormula := by
  intro ires c0 c1 p0 p1 n0 n1 tol dp dn k
  have formula : estimate2d ires c0 c1 p0 p1 n0 n1
      = ((c0 - p0) * k.1 * k.2.2 + (c0 - n0) * k.2.1 * k.2.2) / 8 := by
    rw [estimate2d, lineDifference_eq, lineDifference_eq]
    rfl
  refine ⟨formula, fun prev next prevFull nextFull => ?_⟩
  have weights : k = (1, 1, 1) := by
    rw [show k = tieBreak (lineWeight ires dp) (lineWeight ires dn) p0 n0 from rfl, prevFull, nextFull,
      tieBreak_one_one]
  rw [formula, weights, prev, next]
  ring

/-! ### One column (42 R160) -/

/-- What SEP2D writes into a cell, from the 1D estimates of its line and of the lines two above and two below. -/
def estimateAt (cfg : ConfigRegs) (fb : FrameBuffer) (r h : Nat) : R :=
  estimate2d cfg.IRES (c1d fb r h) (c1d fb r (h - 1)) (c1d fb (r - 2) h) (c1d fb (r - 2) (h - 1)) (c1d fb (r + 2) h)
    (c1d fb (r + 2) (h - 1))

theorem sep2dColumn_eq {P : Impl} {cfg : ConfigRegs} {r h : Nat} (p : Pixel P cfg r h) (above : 4 ≤ r)
    (below : (r : Int) < cfg.FRH - 1) (x : Scratch) : sep2dColumn P cfg r h x =
      .ok { x with fb := { x.fb with c2d := setCell (realKind .c2d) x.fb.c2d r h (estimateAt cfg x.fb r h) } } := by
  have inside := p.left
  have capacity (r' h' : Nat) (hr : r' ≤ r + 2) (hh : h - 1 ≤ h') (hh' : h' ≤ h) : inCapacity P r' h' = true :=
    p.inCapacity (by omega) (by omega) (by omega) (by omega)
  have read (r' h' : Nat) (hr : r' ≤ r + 2) (hh : h - 1 ≤ h') (hh' : h' ≤ h) :
      readCell P (realKind .c1d) x.fb.c1d r' h' = .ok (c1d x.fb r' h') := readCell_eq (capacity r' h' hr hh hh') ..
  have write := writeCell_eq (capacity r h (by omega) (by omega) le_rfl) (realKind .c2d) x.fb.c2d
    (estimateAt cfg x.fb r h)
  have left : ((h : Int) - 1) = ((h - 1 : Nat) : Int) := by omega
  have up : ((r : Int) - 2) = ((r - 2 : Nat) : Int) := by omega
  have down : ((r : Int) + 2) = ((r + 2 : Nat) : Int) := rfl
  rw [estimateAt, Int.toNat_natCast, Int.toNat_natCast] at write
  simp (disch := omega) only [sep2dColumn, left, up, down, read, bind_ok_eq, write]
  rfl

/-! ### The body of SEP2D (42 R160) -/

/-- The cells SEP2D writes: those of the active window whose rows have a line two above and two below them. -/
def Combined (cfg : ConfigRegs) (r h : Nat) : Prop :=
  cfg.FVL ≤ r ∧ 4 ≤ r ∧ (r : Int) < cfg.FRH - 1 ∧ activeCol cfg h

/-- Under the conditions of R68 the body of SEP2D writes the estimates into the cells of `Combined`; it reads `C1D`,
which it leaves alone. -/
theorem sep2dBody_combines {P : Impl} {s : State} (hb : BoundsFree P s) (x : Scratch) :
    ∃ p, sep2dBody P s x = .ok { x with fb := { x.fb with c2d := p } }
      ∧ Writes (cellAt (realKind .c2d)) (estimateAt s.active x.fb) (Combined s.active) x.fb.c2d p := by
  have turn : ∀ r h y, max s.active.FVL 4 ≤ r → r < (s.active.FRH - 1).toNat → s.active.AVS ≤ h → h < s.active.AVE →
      (∃ p, y = { x with fb := { x.fb with c2d := p } }) →
      ∃ z, sep2dColumn P s.active r h y = .ok z ∧ (∃ p, z = { x with fb := { x.fb with c2d := p } })
        ∧ Writes (fun z : Scratch => c2d z.fb) (estimateAt s.active x.fb) (fun r' h' => r' = r ∧ h' = h) y z := by
    rintro r h _ hr hr' hh hh' ⟨p, rfl⟩
    have row : r < s.active.frameRows := (lt_frameRows_iff_FRH s.active r).2 (by omega)
    have pixel := pixel_of_boundsFree hb (by omega) row hh hh'
    exact ⟨_, sep2dColumn_eq pixel (by omega) (by omega) _, ⟨_, rfl⟩, setCell_writes (realKind .c2d) p _ r h⟩
  obtain ⟨_, run, ⟨p, rfl⟩, written⟩ := window_writes _ turn (x := x) ⟨x.fb.c2d, rfl⟩
  refine ⟨p, run, Writes.congr (fun r h => ?_) written⟩
  simp only [Combined, activeCol]
  omega

/-- Settles O26: the loop over the rows and columns of `Combined` writes them cell by cell. -/
theorem sep2dCombinesNeighbourLines : Obligations.Sep2dCombinesNeighbourLines := by
  intro s hb
  obtain ⟨p, run, written⟩ := sep2dBody_combines hb s.scratch
  refine ⟨_, runPass_ok run, finishPass_passFrame .sep2d keepWork s _, ?_, finishPass_work .., ?_⟩
  · rw [SameOut, finishPass_mem]
    exact fun _ => rfl
  · rw [finishPass_fb]
    exact ⟨rfl, fun r h visible above below active => (written r h).1 ⟨visible, above, below, active⟩,
      fun r h => (written r h).2⟩

end Sys2Proof.Sep2d
end

section
/-! PROOFS. MOTION (43 R170, R172): the answered map is taken whole or refused. SEP3D (43 R173, R174): the half-difference
of one pixel, the window the pass writes, and the first frame. -/

namespace Sys2Proof.Sep3dMotion

open Sys2Proof Sys2Proof.Machine Sys2Proof.Safety Sys2Proof.Reference Sys2Proof.Laws Sys2Proof.ByteBounds
  Sys2Proof.FaultFree Sys2Proof.FrameSetup Sys2Proof.WindowLoops

/-! ### The end of a pass that leaves `OUT` alone -/

theorem finishPass_sameOut (i : Instr) (release : Nat → Work → Work) (s : State) {x : Scratch}
    (out : x.out = s.mem.out) : SameOut s (finishPass i release s x) := by
  rw [SameOut, finishPass_mem, out]
  exact fun _ => rfl

/-! ### The answered map (43 R170) -/

theorem checkedMap_of_inRange {P : Impl} {m : Nat → Nat → R} (h : mapInRange P m = true) :
    checkedMap P m = .ok (planeOf (realKind .k) P.capRows P.capCols m) := if_pos h

theorem checkedMap_of_outOfRange {P : Impl} {m : Nat → Nat → R} {r c : Nat} (row : r < P.capRows) (col : c < P.capCols)
    (outside : m r c < 0 ∨ 1 < m r c) : checkedMap P m = .error .motion := by
  refine if_neg fun inRange => ?_
  obtain ⟨low, high⟩ := (mapInRange_iff P m).1 inRange r c row col
  exact outside.elim low.not_gt high.not_gt

/-- A plane taken whole from a map reads as the map on every row and column of the capacity. -/
theorem cellAt_planeOf_inside {α : Type} [DecidableEq α] (kind : CellKind α) {rows cols : Nat} (f : Nat → Nat → α)
    {r c : Nat} (row : r < rows) (col : c < cols) : cellAt kind (planeOf kind rows cols f) r c = f r c := by
  rw [cellAt_planeOf, if_pos ⟨row, col⟩]

theorem motionAnswer_eq_motionEst {s : State} (h : s.estimate = none) (P : Impl) (yiq : Plane Yiq) (r c : Nat) :
    motionAnswer P s yiq r c = unitVal (P.motionEst yiq s.prev r c) := by
  simp only [motionAnswer, h]

/-- What MOTION leaves when the answer passes the check. -/
def answeredScratch (P : Impl) (s : State) (x : Scratch) : Scratch :=
  { x with fb := { x.fb with k := planeOf (realKind .k) P.capRows P.capCols (motionAnswer P s x.fb.yiq) } }

theorem motionBody_of_motionEst {P : Impl} {s : State} (h : s.estimate = none) (x : Scratch) :
    motionBody P s x = .ok (answeredScratch P s x) := by
  rcases motionBody_cases P s x with ⟨outOfRange, -⟩ | ⟨-, ok⟩
  · rw [motionAnswer_inRange h] at outOfRange
    cases outOfRange
  · exact ok

theorem motionBody_of_broken {P : Impl} {s : State} {a : OutOfRange} (h : s.estimate = some a) (rows : 0 < P.capRows)
    (cols : 0 < P.capCols) (x : Scratch) : motionBody P s x = .error .motion := by
  rcases motionBody_cases P s x with ⟨-, error⟩ | ⟨inRange, -⟩
  · exact error
  · rw [motionAnswer_broken h rows cols] at inRange
    cases inRange

/-- Settles O29: the answer of `MOTION_EST` passes the check and becomes the whole plane. -/
theorem motionStoresTheEstimatorsMap : Obligations.MotionStoresTheEstimatorsMap := by
  intro s unbroken
  have run := motionBody_of_motionEst (P := Config.impl) unbroken s.scratch
  refine ⟨_, (exec_motion s).trans (runPass_ok run), finishPass_passFrame .motion keepWork s _,
    finishPass_sameOut _ _ s rfl, finishPass_work .., ?_⟩
  rw [finishPass_fb]
  refine ⟨rfl, fun r c row col => ?_⟩
  have stored : kmap (answeredScratch Config.impl s s.scratch).fb r c
      = unitVal (Config.motionEst s.fb.yiq s.prev r c) :=
    (cellAt_planeOf_inside _ _ row col).trans (motionAnswer_eq_motionEst unbroken ..)
  rw [stored]
  exact ⟨rfl, unitVal_range _⟩

/-- Settles O30: the check looks at every cell of the capacity, and a broken estimator's answer has a cell that fails
it. -/
theorem motionChecksTheAnsweredMap : Obligations.MotionChecksTheAnsweredMap := by
  refine ⟨fun m => ⟨fun inRange => ?_, ?_⟩, fun s a broken => ?_⟩
  · exact ⟨_, checkedMap_of_inRange ((mapInRange_iff Config.impl m).2 inRange),
      fun r c row col => cellAt_planeOf_inside _ m row col⟩
  · rintro ⟨r, c, row, col, outside⟩
    exact checkedMap_of_outOfRange (P := Config.impl) row col outside
  · have rows : 0 < Config.impl.capRows := by decide
    have cols : 0 < Config.impl.capCols := by decide
    have error := motionBody_of_broken (P := Config.impl) broken rows cols s.scratch
    exact ⟨_, (exec_motion s).trans (runPass_error error), faultEntered_raise .motion s⟩

/-! ### SEP3D (43 R173) -/

/-- What SEP3D writes into a cell: half the difference from the current sample to that of the previous frame. -/
def halfDifference (prev fb : FrameBuffer) (r h : Nat) : R := (raw prev r h - raw fb r h) / 2

theorem sep3dColumn_eq {P : Impl} {s : State} {r h : Nat} (p : Pixel P s.active r h) (x : Scratch) :
    sep3dColumn P s r h x = .ok { x with fb := { x.fb with
      c3d := setCell (realKind .c3d) x.fb.c3d r h (halfDifference s.prev x.fb r h) } } := by
  have capacity : inCapacity P r h = true := p.inCapacity (by omega) p.row.le (by omega) (by omega)
  have frame : inFrame s.active r h = true := p.inFrame (by omega)
  simp only [sep3dColumn, readCell_eq capacity, readRaw_eq frame capacity, writeCell_eq capacity, bind_ok_eq,
    Int.toNat_natCast]
  rfl

/-- Under the conditions of R68 the body of SEP3D writes the half-differences into the visible, active cells; it reads
`RAW` of both frames, which it leaves alone. -/
theorem sep3dBody_halves {P : Impl} {s : State} (hb : BoundsFree P s) (x : Scratch) :
    ∃ p, sep3dBody P s x = .ok { x with fb := { x.fb with c3d := p } }
      ∧ Writes (cellAt (realKind .c3d)) (halfDifference s.prev x.fb)
        (fun r h => visible s.active r ∧ activeCol s.active h) x.fb.c3d p := by
  have turn : ∀ r h y, s.active.FVL ≤ r → r < s.active.frameRows → s.active.AVS ≤ h → h < s.active.AVE →
      (∃ p, y = { x with fb := { x.fb with c3d := p } }) →
      ∃ z, sep3dColumn P s r h y = .ok z ∧ (∃ p, z = { x with fb := { x.fb with c3d := p } })
        ∧ Writes (fun z : Scratch => c3d z.fb) (halfDifference s.prev x.fb) (fun r' h' => r' = r ∧ h' = h) y z := by
    rintro r h _ hr hr' hh hh' ⟨p, rfl⟩
    have pixel := pixel_of_boundsFree hb hr hr' hh hh'
    exact ⟨_, sep3dColumn_eq pixel _, ⟨_, rfl⟩, setCell_writes (realKind .c3d) p _ r h⟩
  obtain ⟨_, run, ⟨p, rfl⟩, written⟩ := window_writes _ turn (x := x) ⟨x.fb.c3d, rfl⟩
  refine ⟨p, run, Writes.congr (fun r h => ?_) written⟩
  rw [visible, activeCol, lt_frameRows_iff_FRH]

/-- Settles O31: the loop over the visible rows and active columns writes them cell by cell. -/
theorem sep3dHalvesTheFrameDifference : Obligations.Sep3dHalvesTheFrameDifference := by
  intro s hb
  obtain ⟨p, run, written⟩ := sep3dBody_halves hb s.scratch
  refine ⟨_, (exec_sep3d s).trans (runPass_ok run), finishPass_passFrame .sep3d keepWork s _,
    finishPass_sameOut _ _ s rfl, finishPass_work .., ?_⟩
  rw [finishPass_fb]
  exact ⟨rfl, fun r h row col => (written r h).1 ⟨row, col⟩, fun r h => (written r h).2⟩

/-! ### The first frame (43 R174) -/

theorem raw_zeroFrame (r h : Nat) : raw zeroFrame r h = 0 := Nat.cast_zero

/-- Settles O32: the difference to an all-zero `PREV`, by O31; the pass is not the last of the sequence, so `STATUS`
stands. -/
theorem firstFrame3dIsMinusHalfTheSample : Obligations.FirstFrame3dIsMinusHalfTheSample := by
  intro s hb first
  obtain ⟨t, run, ⟨⟨-, status⟩, same, -⟩, -, -, -, halved, -⟩ := sep3dHalvesTheFrameDifference s hb
  obtain ⟨-, -, -, log, -⟩ := same
  refine ⟨t, run, status, log, fun r h row col => ?_⟩
  rw [halved r h row col, first, raw_zeroFrame, zero_sub]

end Sys2Proof.Sep3dMotion
end

section
/-! PROOFS. IQCOMB and IQMIX (44 R180 to R184): one combiner over two estimates. A line carries its inversion state, which
has the tracker's closed form, and the two hold registers from column to column; each column writes one cell of `YIQ`. -/

namespace Sys2Proof.Combiner

open Sys2Proof Sys2Proof.Machine Sys2Proof.Safety Sys2Proof.Reference Sys2Proof.Laws Sys2Proof.ByteBounds
  Sys2Proof.FaultFree Sys2Proof.FrameSetup Sys2Proof.Sequencer Sys2Proof.PhaseTracker Sys2Proof.WindowLoops
  Sys2Proof.Sep3dMotion

/-! ### The hold registers of a line (44 R180, R183) -/

theorem heldI_odd {h : Nat} (odd : h % 2 = 1) (signed : Nat → R) (avs : Nat) :
    heldI signed avs h = if h % 4 = 3 then signed h else -signed h := if_pos odd

theorem heldQ_even {h : Nat} (even : h % 2 = 0) (signed : Nat → R) (avs : Nat) :
    heldQ signed avs h = if h % 4 = 0 then signed h else -signed h := if_pos even

/-- An even column keeps the I value of the column before it. -/
theorem heldI_even {h : Nat} (even : h % 2 = 0) (signed : Nat → R) (avs : Nat) :
    heldI signed avs h = if avs < h then heldI signed avs (h - 1) else 0 := by
  by_cases first : avs < h
  · rw [if_pos first, heldI_odd (show (h - 1) % 2 = 1 by omega), heldI, if_neg (by omega), if_pos first]
  · rw [if_neg first, heldI, if_neg (by omega), if_neg first]

/-- An odd column keeps the Q value of the column before it. -/
theorem heldQ_odd {h : Nat} (odd : h % 2 = 1) (signed : Nat → R) (avs : Nat) :
    heldQ signed avs h = if avs < h then heldQ signed avs (h - 1) else 0 := by
  by_cases first : avs < h
  · rw [if_pos first, heldQ_even (show (h - 1) % 2 = 0 by omega), heldQ, if_neg (by omega), if_pos first]
  · rw [if_neg first, heldQ, if_neg (by omega), if_neg first]

theorem routeIq_even {h : Nat} (even : h % 2 = 0) (c : R) (w : Work) :
    routeIq (phase h) c w = { w with sq := if h % 4 = 0 then c else -c } := by
  rcases (by omega : h % 4 = 0 ∨ h % 4 = 2) with q | q <;> simp [phase, Config.phases, routeIq, q]

theorem routeIq_odd {h : Nat} (odd : h % 2 = 1) (c : R) (w : Work) :
    routeIq (phase h) c w = { w with si := if h % 4 = 3 then c else -c } := by
  rcases (by omega : h % 4 = 1 ∨ h % 4 = 3) with q | q <;> simp [phase, Config.phases, routeIq, q]

theorem routeIq_frame (ph : Phase) (c : R) (w : Work) : ∃ si sq, routeIq ph c w = { w with si := si, sq := sq } := by
  cases ph <;> exact ⟨_, _, rfl⟩

/-- Before column `h` of a line: the registers hold what the column before it left, and 0 at the start of the line. -/
structure HeldTo (signed : Nat → R) (avs h : Nat) (w : Work) : Prop where
  si : w.si = if avs < h then heldI signed avs (h - 1) else 0
  sq : w.sq = if avs < h then heldQ signed avs (h - 1) else 0

theorem heldTo_lineStart (signed : Nat → R) (avs r : Nat) (w : Work) :
    HeldTo signed avs avs (combineLineStart r w) := ⟨(if_neg avs.lt_irrefl).symm, (if_neg avs.lt_irrefl).symm⟩

theorem heldTo_succ_iff {signed : Nat → R} {avs h : Nat} (hh : avs ≤ h) (w : Work) :
    HeldTo signed avs (h + 1) w ↔ w.si = heldI signed avs h ∧ w.sq = heldQ signed avs h := by
  have reached : avs < h + 1 := Nat.lt_succ_of_le hh
  exact ⟨fun ⟨si, sq⟩ => ⟨si.trans (if_pos reached), sq.trans (if_pos reached)⟩,
    fun ⟨si, sq⟩ => ⟨si.trans (if_pos reached).symm, sq.trans (if_pos reached).symm⟩⟩

/-- A column routes its estimate to the register of its parity; the other one holds. -/
theorem HeldTo.route {signed : Nat → R} {avs h : Nat} {w : Work} (held : HeldTo signed avs h w) (hh : avs ≤ h) :
    HeldTo signed avs (h + 1) (routeIq (phase h) (signed h) w) := by
  obtain ⟨si, sq⟩ := held
  rw [heldTo_succ_iff hh]
  rcases Nat.mod_two_eq_zero_or_one h with even | odd
  · rw [routeIq_even even, heldI_even even, heldQ_even even]
    exact ⟨si, rfl⟩
  · rw [routeIq_odd odd, heldI_odd odd, heldQ_odd odd]
    exact ⟨rfl, sq⟩

/-! ### One column -/

/-- What a column with estimate `e` does. -/
def demodulateColumn (P : Impl) (e : R) (r h : Nat) (x : Scratch) : Scratch :=
  let w := routeIq (phase h) (sgn P x.work.inv * e) x.work
  { x with
    fb := { x.fb with yiq := setCell yiqKind x.fb.yiq r h ⟨raw x.fb r h, w.si, w.sq⟩ }
    work := w }

theorem inCapacity_of_pixel {P : Impl} {cfg : ConfigRegs} {r h : Nat} (p : Pixel P cfg r h) :
    inCapacity P r h = true := p.inCapacity (by omega) p.row.le (by omega) (by omega)

theorem combineColumn_eq {P : Impl} {cfg : ConfigRegs} {est : FrameBuffer → Nat → Nat → Except FaultCause R}
    {r h : Nat} (p : Pixel P cfg r h) {x : Scratch} {e : R} (read : est x.fb r h = .ok e) :
    combineColumn P cfg est r h x = .ok (demodulateColumn P e r h x) := by
  have capacity := inCapacity_of_pixel p
  have frame : inFrame cfg r h = true := p.inFrame (by omega)
  simp only [combineColumn, read, readRaw_eq frame capacity, writeCell_eq capacity, bind_ok_eq, Int.toNat_natCast]
  rfl

/-! ### One line -/

section Lines

/-- Whatever stands in `YIQ`, the estimate of a pixel of the frame is its `value`. -/
def Estimates (cfg : ConfigRegs) (est : FrameBuffer → Nat → Nat → Except FaultCause R) (fb : FrameBuffer)
    (value : Nat → Nat → R) : Prop :=
  ∀ r h, Pixel Config.impl cfg r h → ∀ p, est { fb with yiq := p } r h = .ok (value r h)

/-- The estimates of a row, with the sign of the line (44 R182). -/
def signedRow (cfg : ConfigRegs) (fb : FrameBuffer) (value : Nat → Nat → R) (r c : Nat) : R :=
  lineSign cfg.FVL fb r * value r c

/-- What the combiner writes into a visible, active cell (44 R180, R183). -/
def demodulated (cfg : ConfigRegs) (fb : FrameBuffer) (value : Nat → Nat → R) (r h : Nat) : Yiq :=
  ⟨raw fb r h, heldI (signedRow cfg fb value r) cfg.AVS h, heldQ (signedRow cfg fb value r) cfg.AVS h⟩

/-- The working registers that the combiner leaves alone. -/
def otherRegisters (w : Work) : R × R × List R × List R := (w.vi, w.vq, w.fi, w.fq)

theorem combineLineStart_others (r : Nat) (w : Work) : otherRegisters (combineLineStart r w) = otherRegisters w := by
  unfold combineLineStart trackerVisit
  split <;> rfl

/-- Before row `r`: of the scratch state `x` only `YIQ` and the working registers changed; the tracker stands at `r`. -/
structure AtRow (cfg : ConfigRegs) (x : Scratch) (r : Nat) (y : Scratch) : Prop where
  frame : ∃ p w, y = { x with fb := { x.fb with yiq := p }, work := w }
  tracked : TrackedTo cfg.FVL x.fb r y.work
  others : otherRegisters y.work = otherRegisters x.work

/-- Before column `h` of a line that started with the registers `w`: only `YIQ` and the hold registers changed. -/
structure InLine (x : Scratch) (w : Work) (signed : Nat → R) (avs h : Nat) (y : Scratch) : Prop where
  frame : ∃ p si sq, y = { x with fb := { x.fb with yiq := p }, work := { w with si := si, sq := sq } }
  held : HeldTo signed avs h y.work

variable {cfg : ConfigRegs} {est : FrameBuffer → Nat → Nat → Except FaultCause R} {value : Nat → Nat → R}
  {x : Scratch}

/-- A column of a line writes its cell and leaves the line at the next column. -/
theorem InLine.column {w : Work} {r h : Nat} {y : Scratch} (estimates : Estimates cfg est x.fb value)
    (line : InLine x w (signedRow cfg x.fb value r) cfg.AVS h y)
    (inv : w.inv = inversionAt cfg.FVL x.fb.ph1 x.fb.ph2 r) (p : Pixel Config.impl cfg r h) (hh : cfg.AVS ≤ h) :
    ∃ z, combineColumn Config.impl cfg est r h y = .ok z ∧ InLine x w (signedRow cfg x.fb value r) cfg.AVS (h + 1) z
      ∧ Writes (fun z : Scratch => yiq z.fb) (demodulated cfg x.fb value) (fun r' h' => r' = r ∧ h' = h) y z := by
  obtain ⟨⟨plane, si, sq, rfl⟩, held⟩ := line
  have signed : sgn Config.impl w.inv * value r h = signedRow cfg x.fb value r h := by
    rw [inv]
    rfl
  have held' := held.route hh
  rw [← signed] at held'
  obtain ⟨siNext, sqNext⟩ := (heldTo_succ_iff hh _).1 held'
  refine ⟨_, combineColumn_eq p (estimates r h p plane), ⟨?_, held'⟩, ?_⟩
  · obtain ⟨si', sq', route⟩ :=
      routeIq_frame (phase h) (sgn Config.impl w.inv * value r h) { w with si := si, sq := sq }
    exact ⟨_, si', sq', congrArg (Scratch.mk _ _) route⟩
  · have written := setCell_writes yiqKind plane (demodulated cfg x.fb value) r h
    rw [demodulated, ← siNext, ← sqNext] at written
    exact written

/-- A line of the combiner writes its active cells and leaves the tracker at the next row. -/
theorem AtRow.line {s : State} {r : Nat} {y : Scratch} (hb : BoundsFree Config.impl s)
    (estimates : Estimates s.active est x.fb value) (hr : s.active.FVL ≤ r) (hr' : r < s.active.frameRows)
    (row : AtRow s.active x r y) :
    ∃ z, combineLine Config.impl s.active est r y = .ok z ∧ AtRow s.active x (r + 1) z
      ∧ Writes (fun z : Scratch => yiq z.fb) (demodulated s.active x.fb value)
        (fun r' h' => r' = r ∧ s.active.AVS ≤ h' ∧ h' < s.active.AVE) y z := by
  obtain ⟨⟨plane, w, rfl⟩, tracked, kept⟩ := row
  have start : InLine x (combineLineStart r w) (signedRow s.active x.fb value r) s.active.AVS s.active.AVS
      { x with fb := { x.fb with yiq := plane }, work := combineLineStart r w } :=
    ⟨⟨plane, 0, 0, rfl⟩, heldTo_lineStart ..⟩
  obtain ⟨_, run, ⟨⟨plane', si, sq, rfl⟩, -⟩, written⟩ := forRange_run
    (fun h z => InLine x (combineLineStart r w) (signedRow s.active x.fb value r) s.active.AVS h z
      ∧ Writes (fun z : Scratch => yiq z.fb) (demodulated s.active x.fb value)
        (fun r' h' => r' = r ∧ s.active.AVS ≤ h' ∧ h' < h) _ z)
    (fun h z hh hh' ⟨line, before⟩ => by
      obtain ⟨z', run, line', now⟩ := line.column estimates tracked.inv (pixel_of_boundsFree hb hr hr' hh hh') hh
      exact ⟨z', run, line', (before.trans now).congr fun _ _ => by omega⟩)
    ⟨start, Writes.none (fun _ _ => by omega) _⟩
  exact ⟨_, run, ⟨⟨_, _, rfl⟩, tracked.visit hr, (combineLineStart_others r w).trans kept⟩,
    written.congr fun _ _ => by omega⟩

/-! ### The body of the combiner (44 R180) -/

/-- Under the conditions of R68 the combiner writes the demodulated samples into the visible, active cells. -/
theorem combineBody_demodulates {s : State} (hb : BoundsFree Config.impl s)
    (estimates : Estimates s.active est x.fb value) :
    ∃ p w, combineBody Config.impl est s x = .ok { x with fb := { x.fb with yiq := p }, work := w }
      ∧ otherRegisters w = otherRegisters x.work
      ∧ Writes (cellAt yiqKind) (demodulated s.active x.fb value)
        (fun r h => visible s.active r ∧ activeCol s.active h) x.fb.yiq p := by
  have start : AtRow s.active x s.active.FVL { x with work := trackerInit x.fb x.work } :=
    ⟨⟨x.fb.yiq, _, rfl⟩, trackedTo_init x.fb x.work s.active.FVL, rfl⟩
  obtain ⟨_, run, ⟨⟨p, w, rfl⟩, -, kept⟩, written⟩ := forRange_run
    (fun r z => AtRow s.active x r z
      ∧ Writes (fun z : Scratch => yiq z.fb) (demodulated s.active x.fb value)
        (fun r' h' => (s.active.FVL ≤ r' ∧ r' < r) ∧ s.active.AVS ≤ h' ∧ h' < s.active.AVE) _ z)
    (fun r z hr hr' ⟨row, before⟩ => by
      obtain ⟨z', run, row', now⟩ := row.line hb estimates hr hr'
      exact ⟨z', run, row', (before.trans now).congr fun _ _ => by omega⟩)
    ⟨start, Writes.none (fun _ _ => by omega) _⟩
  refine ⟨p, w, run, kept, Writes.congr (fun r h => ?_) written⟩
  rw [visible, activeCol, ← lt_frameRows_iff_FRH]
  omega

end Lines

/-! ### The two passes -/

/-- A pass that is the combiner over an estimate demodulates it; of the working registers it touches only the tracker's
and its own hold registers. -/
theorem exec_demodulates {i : Instr} {est : FrameBuffer → Nat → Nat → Except FaultCause R} {value : Nat → Nat → R}
    {s : State} (hb : BoundsFree Config.impl s)
    (pass : exec i s = runPass i (fun n w => releaseCombiner n (releaseTracker n w)) (combineBody Config.impl est) s)
    (estimates : Estimates s.active est s.fb value) : ∃ t, exec i s = .next t
      ∧ PassFrame (tableNextOf s i) s t ∧ SameOut s t ∧ t.fb = { s.fb with yiq := t.fb.yiq }
      ∧ (∀ r h, visible s.active r → activeCol s.active h → yiq t.fb r h = demodulated s.active s.fb value r h)
      ∧ (∀ r h, ¬ (visible s.active r ∧ activeCol s.active h) → yiq t.fb r h = yiq s.fb r h)
      ∧ t.work.vi = s.work.vi ∧ t.work.vq = s.work.vq ∧ t.work.fi = s.work.fi ∧ t.work.fq = s.work.fq := by
  obtain ⟨p, w, run, kept, written⟩ := combineBody_demodulates (x := s.scratch) hb estimates
  have frame := finishPass_passFrame i (fun n w => releaseCombiner n (releaseTracker n w)) s
    { s.scratch with fb := { s.fb with yiq := p }, work := w }
  rw [nextStage_eq_tableNext] at frame
  simp only [otherRegisters, Prod.mk.injEq] at kept
  refine ⟨_, pass.trans (runPass_ok run), frame, finishPass_sameOut _ _ s rfl, ?_⟩
  rw [finishPass_fb, finishPass_work]
  exact ⟨rfl, fun r h row col => (written r h).1 ⟨row, col⟩, fun r h => (written r h).2, kept⟩

/-- The blend of the two estimates by the motion map (44 R184). -/
def mixedEstimate (fb : FrameBuffer) (r h : Nat) : R :=
  c2d fb r h * kmap fb r h + c3d fb r h * (1 - kmap fb r h)

theorem estimates_from2d (cfg : ConfigRegs) (fb : FrameBuffer) :
    Estimates cfg (estimateFrom2d Config.impl) fb (c2d fb) := fun _ _ p _ => readCell_eq (inCapacity_of_pixel p) ..

theorem estimates_mixed (cfg : ConfigRegs) (fb : FrameBuffer) :
    Estimates cfg (estimateMixed Config.impl) fb (mixedEstimate fb) := by
  intro r h p plane
  simp only [estimateMixed, readCell_eq (inCapacity_of_pixel p), bind_ok_eq]
  rfl

/-- Settles O27: IQCOMB is the combiner over `C2D`. -/
theorem iqcombDemodulatesThe2dEstimate : Obligations.IqcombDemodulatesThe2dEstimate := fun s hb =>
  exec_demodulates hb (exec_iqcomb s) (estimates_from2d s.active s.fb)

/-- Settles O28: IQMIX is the combiner over the blend. -/
theorem iqmixBlendsByTheMotionMap : Obligations.IqmixBlendsByTheMotionMap := fun s hb =>
  exec_demodulates hb (exec_iqmix s) (estimates_mixed s.active s.fb)

end Sys2Proof.Combiner
end

section
/-! PROOFS. CLPF (45 R191 to R193): each channel's filter is fed at every second column and its output held between; a
column writes the held outputs two columns to its left, where no later column of the line reads. And the flag `CLPFHQ`
changes no step of a DECODE. -/

namespace Sys2Proof.ChromaLowPass

open Sys2Proof Sys2Proof.Machine Sys2Proof.Safety Sys2Proof.Reference Sys2Proof.Laws Sys2Proof.StepLaws
  Sys2Proof.ByteBounds Sys2Proof.FaultFree Sys2Proof.FrameSetup Sys2Proof.FirLines Sys2Proof.WindowLoops
  Sys2Proof.Sep3dMotion Sys2Proof.Combiner

/-! ### One channel of the low-pass (45 R191) -/

/-- What the channel fed at the columns of parity `p` holds after column `h`: `lowPassI` at parity 0, `lowPassQ` at
parity 1. -/
def lowPass (p : Nat) (coeffs : List R) (u : Nat → R) (avs h : Nat) : R :=
  if h % 2 = p then everySecond coeffs u avs h else if avs < h then everySecond coeffs u avs (h - 1) else 0

theorem lowPass_zero : lowPass 0 = lowPassI := rfl

theorem lowPass_one : lowPass 1 = lowPassQ := rfl

/-- A column of the other parity keeps what the column before it left. -/
theorem lowPass_other {p h : Nat} (other : (h + 1) % 2 = p) (coeffs : List R) (u : Nat → R) (avs : Nat) :
    lowPass p coeffs u avs h = if avs < h then lowPass p coeffs u avs (h - 1) else 0 := by
  rw [lowPass, if_neg (by omega)]
  split
  · rw [lowPass, if_pos (by omega)]
  · rfl

/-- Before column `h` of a line: the delay line `d` of the channel holds what `u` gave it at the columns of its parity,
and its hold register `v` what the column before left, 0 at the start of the line. -/
structure Channel (t : Taps) (u : Nat → R) (p avs h : Nat) (d : List R) (v : R) : Prop where
  line : d = lineOf (tapCoeffs t).length (past u avs (h + (h + p) % 2))
  held : v = if avs < h then lowPass p (tapCoeffs t) u avs (h - 1) else 0

theorem channel_start (t : Taps) (u : Nat → R) (p avs : Nat) : Channel t u p avs avs (freshFir t) 0 :=
  ⟨freshFir_eq_past t u (by omega), (if_neg avs.lt_irrefl).symm⟩

/-- After a column of the window the hold register has the channel's value of that column. -/
theorem Channel.value {t : Taps} {u : Nat → R} {p avs h : Nat} {d : List R} {v : R}
    (c : Channel t u p avs (h + 1) d v) (hh : avs ≤ h) : v = lowPass p (tapCoeffs t) u avs h :=
  c.held.trans (if_pos (Nat.lt_succ_of_le hh))

/-- A column of the channel's parity feeds it. -/
theorem Channel.fed {t : Taps} {u : Nat → R} {p avs h : Nat} {d : List R} {v : R} (c : Channel t u p avs h d v)
    (own : h % 2 = p) (hh : avs ≤ h) : Channel t u p avs (h + 1) (feed t d (u h)).2 (feed t d (u h)).1 := by
  have line := c.line
  rw [show h + (h + p) % 2 = h by omega] at line
  rw [line, feed_past t u hh]
  refine ⟨?_, ?_⟩
  · rw [show h + 1 + (h + 1 + p) % 2 = h + 2 by omega]
  · rw [if_pos (Nat.lt_succ_of_le hh), Nat.add_sub_cancel, lowPass, if_pos own]

/-- A column of the other parity leaves it as it is. -/
theorem Channel.waits {t : Taps} {u : Nat → R} {p avs h : Nat} {d : List R} {v : R} (c : Channel t u p avs h d v)
    (other : (h + 1) % 2 = p) (hh : avs ≤ h) : Channel t u p avs (h + 1) d v := by
  refine ⟨?_, ?_⟩
  · rw [show h + 1 + (h + 1 + p) % 2 = h + (h + p) % 2 by omega]
    exact c.line
  · rw [if_pos (Nat.lt_succ_of_le hh), Nat.add_sub_cancel, lowPass_other other]
    exact c.held

/-! ### The two channels of a line -/

theorem advanceLowPass_even {h : Nat} (even : h % 2 = 0) (taps : Taps × Taps) (v : Yiq) (w : Work) :
    advanceLowPass taps (phase h) v w = { w with vi := (feed taps.1 w.fi v.i).1, fi := (feed taps.1 w.fi v.i).2 } := by
  rcases (by omega : h % 4 = 0 ∨ h % 4 = 2) with q | q <;> simp [phase, Config.phases, advanceLowPass, q]

theorem advanceLowPass_odd {h : Nat} (odd : h % 2 = 1) (taps : Taps × Taps) (v : Yiq) (w : Work) :
    advanceLowPass taps (phase h) v w = { w with vq := (feed taps.2 w.fq v.q).1, fq := (feed taps.2 w.fq v.q).2 } := by
  rcases (by omega : h % 4 = 1 ∨ h % 4 = 3) with q | q <;> simp [phase, Config.phases, advanceLowPass, q]

/-- The working registers a column advances are the low-pass's own. -/
theorem advanceLowPass_frame (taps : Taps × Taps) (ph : Phase) (v : Yiq) (w : Work) :
    ∃ vi vq fi fq, advanceLowPass taps ph v w = { w with vi := vi, vq := vq, fi := fi, fq := fq } := by
  cases ph <;> exact ⟨_, _, _, _, rfl⟩

/-- Before column `h` of a line of cells `row`: both channels of the low-pass. -/
structure Channels (taps : Taps × Taps) (row : Nat → Yiq) (avs h : Nat) (w : Work) : Prop where
  i : Channel taps.1 (fun c => (row c).i) 0 avs h w.fi w.vi
  q : Channel taps.2 (fun c => (row c).q) 1 avs h w.fq w.vq

theorem channels_lineStart (taps : Taps × Taps) (row : Nat → Yiq) (avs : Nat) (w : Work) :
    Channels taps row avs avs (clpfLineStart taps w) := ⟨channel_start .., channel_start ..⟩

/-- A column feeds the channel of its parity; the other one waits. -/
theorem Channels.advance {taps : Taps × Taps} {row : Nat → Yiq} {avs h : Nat} {w : Work}
    (c : Channels taps row avs h w) (hh : avs ≤ h) :
    Channels taps row avs (h + 1) (advanceLowPass taps (phase h) (row h) w) := by
  obtain ⟨i, q⟩ := c
  rcases Nat.mod_two_eq_zero_or_one h with even | odd
  · rw [advanceLowPass_even even]
    exact ⟨i.fed even hh, q.waits (by omega) hh⟩
  · rw [advanceLowPass_odd odd]
    exact ⟨i.waits (by omega) hh, q.fed odd hh⟩

/-! ### One column -/

/-- What a column of CLPF does inside the capacity. -/
def smoothColumn (taps : Taps × Taps) (r h : Nat) (x : Scratch) : Scratch :=
  let w := advanceLowPass taps (phase h) (yiq x.fb r h) x.work
  { x with
    fb := { x.fb with yiq := setCell yiqKind x.fb.yiq r (h - 2) ⟨(yiq x.fb r (h - 2)).y, w.vi, w.vq⟩ }
    work := w }

theorem clpfColumn_eq {P : Impl} {cfg : ConfigRegs} {r h : Nat} (p : Pixel P cfg r h) (taps : Taps × Taps)
    (x : Scratch) : clpfColumn P taps r h x = .ok (smoothColumn taps r h x) := by
  have left := p.left
  have target : (h : Int) - Config.clpfShift = (h - 2 : Nat) := by
    rw [Config.clpfShift]
    omega
  have capacity' : inCapacity P r (h - 2 : Nat) = true :=
    p.inCapacity (by omega) p.row.le (by omega) (by omega)
  simp only [clpfColumn, target, readCell_eq (inCapacity_of_pixel p), readCell_eq capacity', writeCell_eq capacity',
    bind_ok_eq, Int.toNat_natCast]
  rfl

theorem smoothColumn_writes {taps : Taps × Taps} {value : Nat → Nat → Yiq} {r h : Nat} {x : Scratch}
    (cell : value r (h - 2)
      = ⟨(yiq x.fb r (h - 2)).y, (smoothColumn taps r h x).work.vi, (smoothColumn taps r h x).work.vq⟩) :
    Writes (fun z : Scratch => yiq z.fb) value (fun r' c => r' = r ∧ c = h - 2) x (smoothColumn taps r h x) := by
  have written := setCell_writes yiqKind x.fb.yiq value r (h - 2)
  rw [cell] at written
  exact written

/-! ### The body of CLPF (45 R191, R193) -/

/-- Both settings of `CLPFHQ` select the standard coefficients (45 R192). -/
theorem lowPassTaps_eq (P : Impl) (hq : Bool) : lowPassTaps P hq = (P.firlpI, P.firlpQ) := by
  cases hq <;> rfl

/-- What CLPF writes into the cell two columns left of an active column: its Y, and the outputs held there. -/
def smoothed (P : Impl) (cfg : ConfigRegs) (fb : FrameBuffer) (r c : Nat) : Yiq :=
  ⟨(yiq fb r c).y, lowPassI (tapCoeffs P.firlpI) (fun c => (yiq fb r c).i) cfg.AVS (c + 2),
    lowPassQ (tapCoeffs P.firlpQ) (fun c => (yiq fb r c).q) cfg.AVS (c + 2)⟩

/-- The cells that the columns before column `h` of row `r` write, and those of the rows before it. -/
def Before (cfg : ConfigRegs) (r h r' c : Nat) : Prop :=
  cfg.FVL ≤ r' ∧ (cfg.AVS ≤ c + 2 ∧ c + 2 < cfg.AVE) ∧ (r' < r ∨ r' = r ∧ c + 2 < h)

/-- CLPF, started from `x`, stands before column `h` of row `r`: of `x` only `YIQ` and the low-pass's own registers
changed, and of `YIQ` the cells written so far. -/
structure SmoothedTo (P : Impl) (cfg : ConfigRegs) (x : Scratch) (r h : Nat) (y : Scratch) : Prop where
  frame : ∃ p vi vq fi fq, y = { x with
    fb := { x.fb with yiq := p }, work := { x.work with vi := vi, vq := vq, fi := fi, fq := fq } }
  written : Writes (fun z : Scratch => yiq z.fb) (smoothed P cfg x.fb) (Before cfg r h) x y

section Lines

variable {P : Impl} {cfg : ConfigRegs} {x y : Scratch} {r h : Nat}

theorem smoothedTo_start (P : Impl) (cfg : ConfigRegs) (x : Scratch) : SmoothedTo P cfg x cfg.FVL cfg.AVS x :=
  ⟨⟨_, _, _, _, _, rfl⟩, Writes.none (fun r' c => by unfold Before; omega) x⟩

theorem SmoothedTo.lineStart (line : SmoothedTo P cfg x r h y) (taps : Taps × Taps) :
    SmoothedTo P cfg x r h { y with work := clpfLineStart taps y.work } := by
  obtain ⟨⟨p, vi, vq, fi, fq, rfl⟩, written⟩ := line
  exact ⟨⟨_, _, _, _, _, rfl⟩, written⟩

/-- A full row is the start of the next one. -/
theorem SmoothedTo.nextRow (line : SmoothedTo P cfg x r (max cfg.AVS cfg.AVE) y) :
    SmoothedTo P cfg x (r + 1) cfg.AVS y :=
  ⟨line.frame, line.written.congr fun r' c => by unfold Before; omega⟩

/-- A column reads its two cells as `x` has them: only cells further to the left are written (45 R193). -/
theorem SmoothedTo.reads (line : SmoothedTo P cfg x r h y) {c : Nat} (hc : h ≤ c + 2) : yiq y.fb r c = yiq x.fb r c :=
  (line.written r c).2 fun ⟨_, _, before⟩ => by omega

/-- A column of a line writes its cell and advances the channels. -/
theorem SmoothedTo.column (line : SmoothedTo P cfg x r h y)
    (channels : Channels (P.firlpI, P.firlpQ) (yiq x.fb r) cfg.AVS h y.work) (pixel : Pixel P cfg r h)
    (hr : cfg.FVL ≤ r) (hh : cfg.AVS ≤ h) (hh' : h < cfg.AVE) :
    SmoothedTo P cfg x r (h + 1) (smoothColumn (P.firlpI, P.firlpQ) r h y)
      ∧ Channels (P.firlpI, P.firlpQ) (yiq x.fb r) cfg.AVS (h + 1)
        (smoothColumn (P.firlpI, P.firlpQ) r h y).work := by
  have left := pixel.left
  have fed : yiq y.fb r h = yiq x.fb r h := line.reads (by omega)
  have target : yiq y.fb r (h - 2) = yiq x.fb r (h - 2) := line.reads (by omega)
  have next : Channels (P.firlpI, P.firlpQ) (yiq x.fb r) cfg.AVS (h + 1)
      (smoothColumn (P.firlpI, P.firlpQ) r h y).work := by
    rw [smoothColumn, fed]
    exact channels.advance hh
  have value : smoothed P cfg x.fb r (h - 2) = ⟨(yiq y.fb r (h - 2)).y,
      (smoothColumn (P.firlpI, P.firlpQ) r h y).work.vi, (smoothColumn (P.firlpI, P.firlpQ) r h y).work.vq⟩ := by
    rw [target, next.i.value hh, next.q.value hh, smoothed, lowPass_zero, lowPass_one, Nat.sub_add_cancel left]
  refine ⟨⟨?_, (line.written.trans (smoothColumn_writes value)).congr fun r' c => by unfold Before; omega⟩, next⟩
  obtain ⟨p, vi, vq, fi, fq, rfl⟩ := line.frame
  obtain ⟨vi', vq', fi', fq', advanced⟩ := advanceLowPass_frame (P.firlpI, P.firlpQ) (phase h) _
    { x.work with vi := vi, vq := vq, fi := fi, fq := fq }
  exact ⟨_, vi', vq', fi', fq', congrArg (Scratch.mk _ _) advanced⟩

/-- Under the conditions of R68 the body of CLPF smooths the cells two columns left of the visible, active ones. -/
theorem clpfBody_smooths {s : State} (hb : BoundsFree P s) (x : Scratch) :
    ∃ y, clpfBody P s x = .ok y
      ∧ SmoothedTo P s.active x (max s.active.FVL s.active.frameRows) s.active.AVS y := by
  refine forRange_run (fun r => SmoothedTo P s.active x r s.active.AVS) (fun r y hr hr' before => ?_)
    (smoothedTo_start P s.active x)
  rw [clpfLine, lowPassTaps_eq]
  obtain ⟨z, run, line, -⟩ := forRange_run
    (fun h z => SmoothedTo P s.active x r h z
      ∧ Channels (P.firlpI, P.firlpQ) (yiq x.fb r) s.active.AVS h z.work)
    (fun h z hh hh' ⟨line, channels⟩ => by
      have pixel := pixel_of_boundsFree hb hr hr' hh hh'
      exact ⟨_, clpfColumn_eq pixel _ z, line.column channels pixel hr hh hh'⟩)
    ⟨before.lineStart (P.firlpI, P.firlpQ), channels_lineStart ..⟩
  exact ⟨z, run, line.nextRow⟩

end Lines

/-- Settles O33: the loop over the window smooths it cell by cell; the low-pass's own registers are released, its delay
lines discarded. -/
theorem clpfFiltersChromaTwoColumnsLeft : Obligations.ClpfFiltersChromaTwoColumnsLeft := by
  intro s hb
  obtain ⟨_, run, ⟨p, vi, vq, fi, fq, rfl⟩, written⟩ := clpfBody_smooths hb s.scratch
  refine ⟨_, (exec_clpf s).trans (runPass_ok run), finishPass_passFrame .clpf _ s _, finishPass_sameOut _ _ s rfl, ?_⟩
  rw [finishPass_fb, finishPass_work]
  refine ⟨rfl, fun r h row col => ?_, fun r c outside => (written r c).2 fun inside => outside ?_,
    rfl, rfl, rfl, rfl, rfl, rfl, rfl⟩
  · obtain ⟨top, bottom⟩ := row
    obtain ⟨first, last⟩ := col
    have bottom' := (lt_frameRows_iff_FRH s.active r).2 bottom
    have left := (pixel_of_boundsFree hb top bottom' first last).left
    refine ((written r (h - 2)).1 ⟨top, by omega⟩).trans ?_
    rw [smoothed, Nat.sub_add_cancel left]
    rfl
  · unfold Before at inside
    rw [visible, activeCol, ← lt_frameRows_iff_FRH]
    omega

/-! ### The flag `CLPFHQ` (45 R192) -/

/-- The configuration with the other setting of `CLPFHQ`. -/
def otherHq (c : ConfigRegs) : ConfigRegs := { c with mode := c.mode ^^^ 0x08#6 }

/-- The state with the other setting of the active `CLPFHQ`. -/
def flipHq (s : State) : State := { s with active := otherHq s.active }

theorem otherHq_mono (c : ConfigRegs) : (otherHq c).mono = c.mono := by simp [otherHq, ConfigRegs.mono]

theorem otherHq_wp100 (c : ConfigRegs) : (otherHq c).wp100 = c.wp100 := by simp [otherHq, ConfigRegs.wp100]

theorem otherHq_clpfOn (c : ConfigRegs) : (otherHq c).clpfOn = c.clpfOn := by simp [otherHq, ConfigRegs.clpfOn]

theorem otherHq_m3d (c : ConfigRegs) : (otherHq c).m3d = c.m3d := by simp [otherHq, ConfigRegs.m3d]

theorem otherHq_ovl (c : ConfigRegs) : (otherHq c).ovl = c.ovl := by simp [otherHq, ConfigRegs.ovl]

theorem nextStage_otherHq (c : ConfigRegs) (i : Instr) : nextStage (otherHq c) i = nextStage c i := by
  simp only [nextStage, otherHq_clpfOn, otherHq_m3d, otherHq_ovl]

theorem advance_flipHq (code : StageCode) (s : State) : advance code (flipHq s) = flipHq (advance code s) := by
  unfold advance
  split <;> rfl

theorem finishPass_flipHq (i : Instr) (release : Nat → Work → Work) (s : State) (x : Scratch) :
    finishPass i release (flipHq s) x = flipHq (finishPass i release s x) := by
  rw [finishPass, show (flipHq s).active = otherHq s.active from rfl, nextStage_otherHq]
  exact advance_flipHq (nextStage s.active i)
    (releaseCounters (s.withScratch { x with work := release s.free x.work }))

theorem raise_flipHq (cause : FaultCause) (s : State) : raise cause (flipHq s) = flipHq (raise cause s) := by
  cases cause <;> rfl

/-- A pass whose body does not depend on the flag commutes with a change of it. -/
theorem runPass_flipHq {body : State → Scratch → Except FaultCause Scratch} {s : State}
    (same : body (flipHq s) = body s) (i : Instr) (release : Nat → Work → Work) :
    runPass i release body (flipHq s) = mapNext flipHq (runPass i release body s) := by
  have body_eq : body (flipHq s) (flipHq s).scratch = body s s.scratch := congrFun same s.scratch
  rcases runPass_cases i release body s with ⟨x, hx, hrun⟩ | ⟨cause, hx, hrun⟩
  · rw [hrun, runPass_ok (body_eq.trans hx), finishPass_flipHq]
    rfl
  · rw [hrun, runPass_error (body_eq.trans hx), raise_flipHq]
    rfl

/-- MOTION reads the estimator and `PREV` of the state. -/
theorem motionBody_flipHq (P : Impl) (s : State) : motionBody P (flipHq s) = motionBody P s := by
  have answer : motionAnswer P (flipHq s) = motionAnswer P s := rfl
  unfold motionBody
  rw [answer]

/-- CLPF reads the flag, but both tap lists it selects are the same. -/
theorem clpfBody_flipHq (P : Impl) (s : State) : clpfBody P (flipHq s) = clpfBody P s := by
  have line : clpfLine P (otherHq s.active) = clpfLine P s.active := by
    unfold clpfLine
    simp only [lowPassTaps_eq]
    rfl
  exact funext fun x => congrArg (fun body => forRange s.active.FVL s.active.frameRows body x) line

/-- TORGB reads the flags `MONO` and `WP100` only. -/
theorem torgbBody_flipHq (P : Impl) (s : State) : torgbBody P (flipHq s) = torgbBody P s := by
  have gain (c : ConfigRegs) : lumaGain P (otherHq c) = lumaGain P c := by
    simp only [lumaGain, otherHq_wp100]
    rfl
  have chroma (c : ConfigRegs) (burst : R) : chromaGain P (otherHq c) burst = chromaGain P c burst := by
    simp only [chromaGain, otherHq_wp100]
    rfl
  have rgb (burst : R) (v : Yiq) : rgbReal P (otherHq s.active) burst v = rgbReal P s.active burst v := by
    simp only [rgbReal, lumaValue, chromaPair, gain, chroma, otherHq_mono]
    rfl
  have column : torgbColumn P (otherHq s.active) = torgbColumn P s.active := by
    unfold torgbColumn
    simp only [rgb]
    rfl
  exact funext fun x => congrArg (fun column : Nat → Nat → _ => forRange s.active.FVL s.active.frameRows
    (fun r => forRange s.active.AVS s.active.AVE (column r)) x) column

/-- No pass depends on the flag: of the bodies only CLPF's and TORGB's read the mode register at all. -/
theorem exec_flipHq {i : Instr} {c : StageCode} (code : encode i = .uop c) (s : State) :
    exec i (flipHq s) = mapNext flipHq (exec i s) := by
  cases i with
  | nop => cases code
  | config => cases code
  | decode => cases code
  | resetprev => cases code
  | fbinit => exact runPass_flipHq (body := fbinitBody) rfl _ _
  | ilace => exact runPass_flipHq (body := ilaceBody Config.impl) rfl _ _
  | sep1d => exact runPass_flipHq (body := sep1dBody Config.impl) rfl _ _
  | sep2d => exact runPass_flipHq (body := sep2dBody Config.impl) rfl _ _
  | iqcomb => exact runPass_flipHq (body := combineBody Config.impl (estimateFrom2d Config.impl)) rfl _ _
  | motion =>
    rw [exec_motion, exec_motion]
    exact runPass_flipHq (motionBody_flipHq Config.impl s) _ _
  | sep3d => exact runPass_flipHq (body := sep3dBody Config.impl) rfl _ _
  | iqmix => exact runPass_flipHq (body := combineBody Config.impl (estimateMixed Config.impl)) rfl _ _
  | clpf => exact runPass_flipHq (clpfBody_flipHq Config.impl s) _ _
  | ynr => exact runPass_flipHq (body := ynrBody Config.impl) rfl _ _
  | cnr => exact runPass_flipHq (body := cnrBody Config.impl) rfl _ _
  | yclean => exact runPass_flipHq (body := ycleanBody Config.impl) rfl _ _
  | torgb => exact runPass_flipHq (torgbBody_flipHq Config.impl s) _ _
  | overlay => exact runPass_flipHq (body := overlayBody Config.impl) rfl _ _
  | storeprev =>
    exact congrArg Host.Outcome.next (finishPass_flipHq .storeprev keepWork { s with prev := s.fb } s.scratch)

/-- A step of a BUSY block commutes with a change of the flag; one that finds no stage code in `SEQ` is refused in both
states. -/
theorem step_flipHq {s : State} (busy : s.status.run = .busy) : step (flipHq s) = mapNext flipHq (step s) := by
  have busy' : (flipHq s).status.run = .busy := busy
  cases stage : decodeStage s.seq with
  | ok i =>
    rw [step_busy busy stage, step_busy busy' stage]
    exact exec_flipHq (encode_of_decodeStage stage) s
  | error e =>
    have stage' : decodeStage (flipHq s).seq = .error e := stage
    simp only [step, stepWith, busy, busy', passStep, stage, stage', if_true, mapNext]
    rfl

/-- Settles O34. -/
theorem clpfHqHasNoEffect : Obligations.ClpfHqHasNoEffect :=
  ⟨fun P => (lowPassTaps_eq P true).trans (lowPassTaps_eq P false).symm, fun _ busy => step_flipHq busy⟩

end Sys2Proof.ChromaLowPass
end

section
/-! PROOFS. YNR and CNR (46 R200 to R203): a noise reducer replaces the active cells of a line one by one, each by a
function of its own value, so a cell's turn still reads what the line held before it. YNR's residuals are clipped to
its threshold; CNR's threshold is 0, so its clipped residuals are 0 too. -/

namespace Sys2Proof.NoiseReduction

open Sys2Proof Sys2Proof.Machine Sys2Proof.Safety Sys2Proof.Reference Sys2Proof.Laws Sys2Proof.ByteBounds
  Sys2Proof.FaultFree Sys2Proof.FrameSetup Sys2Proof.WindowLoops Sys2Proof.Sep2d Sys2Proof.Sep3dMotion
  Sys2Proof.Combiner

/-! ### Clipping (00_scope R11) and the thresholds (46 R201, R202) -/

theorem abs_clip_le {t : R} (nonneg : 0 ≤ t) (v : R) : |clip v t| ≤ t := by
  have ordered : -t ≤ t := by linarith
  rw [clip, clamp_eq_max_min ordered]
  exact abs_le.2 ⟨le_max_left .., max_le ordered (min_le_left ..)⟩

theorem clip_zero (v : R) : clip v 0 = 0 := abs_nonpos_iff.1 (abs_clip_le le_rfl v)

theorem cnrThreshold_eq (cfg : ConfigRegs) : cnrThreshold cfg = 0 := zero_mul _

theorem ynrThreshold_nonneg (P : Impl) {cfg : ConfigRegs} (calibrated : cfg.BLK < cfg.WHT) :
    0 ≤ ynrThreshold P cfg := by
  have levels : toR cfg.blk ≤ toR cfg.wht := Nat.cast_le.2 calibrated.le
  have factor : 0 ≤ nonnegVal P.ynrFactor := by
    unfold nonnegVal
    positivity
  exact mul_nonneg factor (div_nonneg (sub_nonneg.2 levels) (by norm_num))

/-! ### One column (46 R200) -/

/-- What a column of a noise reducer does inside the capacity. -/
def denoiseCell (cfg : ConfigRegs) (f : Nat → Yiq → Yiq) (r h : Nat) (x : Scratch) : Scratch :=
  { x with fb := { x.fb with yiq := setCell yiqKind x.fb.yiq r h (f (h - cfg.AVS) (yiq x.fb r h)) } }

section Columns

variable {P : Impl} {cfg : ConfigRegs} {f : Nat → Yiq → Yiq} {r h : Nat} {x y : Scratch}

theorem denoiseColumn_of_inCapacity (capacity : inCapacity P r h = true) :
    denoiseColumn P cfg f r h x = .ok (denoiseCell cfg f r h x) := by
  simp only [denoiseColumn, readCell_eq capacity, writeCell_eq capacity, bind_ok_eq, Int.toNat_natCast]
  rfl

theorem denoiseColumn_ok (run : denoiseColumn P cfg f r h x = .ok y) : y = denoiseCell cfg f r h x := by
  obtain ⟨_, -, rest⟩ := bind_ok run
  obtain ⟨_, write, -⟩ := bind_ok rest
  rw [denoiseColumn_of_inCapacity (writeCell_ok write).1] at run
  exact (Except.ok.inj run).symm

theorem denoiseCell_reads_of_fixed (fixed : ∀ j v, f j v = v) (r' h' : Nat) :
    yiq (denoiseCell cfg f r h x).fb r' h' = yiq x.fb r' h' := by
  refine (cellAt_setCell ..).trans ?_
  split
  · obtain ⟨rfl, rfl⟩ := ‹r' = r ∧ h' = h›
    exact fixed ..
  · rfl

end Columns

/-! ### A pass that writes `YIQ` alone -/

/-- Of a scratch state at most `YIQ` changed. -/
def OnlyYiq (x y : Scratch) : Prop := ∃ p, y = { x with fb := { x.fb with yiq := p } }

theorem OnlyYiq.refl (x : Scratch) : OnlyYiq x x := ⟨x.fb.yiq, rfl⟩

theorem OnlyYiq.trans {x y z : Scratch} (first : OnlyYiq x y) (second : OnlyYiq y z) : OnlyYiq x z := by
  obtain ⟨_, rfl⟩ := first
  obtain ⟨q, rfl⟩ := second
  exact ⟨q, rfl⟩

theorem denoiseCell_onlyYiq (cfg : ConfigRegs) (f : Nat → Yiq → Yiq) (r h : Nat) (x : Scratch) :
    OnlyYiq x (denoiseCell cfg f r h x) := ⟨_, rfl⟩

/-- A pass that uses no working register and whose body writes `YIQ` alone leaves the rest of the block alone. -/
theorem exec_of_onlyYiq {i : Instr} {body : State → Scratch → Except FaultCause Scratch} {s : State} {y : Scratch}
    (pass : exec i s = runPass i keepWork body s) (run : body s s.scratch = .ok y) (only : OnlyYiq s.scratch y) :
    ∃ t, exec i s = .next t ∧ PassFrame (nextStage s.active i) s t ∧ SameOut s t ∧ t.work = s.work
      ∧ t.fb = { s.fb with yiq := t.fb.yiq } ∧ t.fb = y.fb := by
  obtain ⟨p, rfl⟩ := only
  refine ⟨_, pass.trans (runPass_ok run), finishPass_passFrame i keepWork s _, finishPass_sameOut _ _ s rfl,
    finishPass_work .., ?_⟩
  rw [finishPass_fb]
  exact ⟨rfl, rfl⟩

/-! ### CNR (46 R202, R203) -/

/-- Of a scratch state at most the stored form of `YIQ` changed: every cell of it reads as before. -/
structure SameCells (x y : Scratch) : Prop where
  only : OnlyYiq x y
  reads : ∀ r h, yiq y.fb r h = yiq x.fb r h

theorem SameCells.trans {x y z : Scratch} (first : SameCells x y) (second : SameCells y z) : SameCells x z :=
  ⟨first.only.trans second.only, fun r h => (second.reads r h).trans (first.reads r h)⟩

theorem SameCells.refl (x : Scratch) : SameCells x x := ⟨.refl x, fun _ _ => rfl⟩

/-- A noise reducer whose function gives every value back changes no cell. -/
theorem denoiseLine_sameCells {P : Impl} {cfg : ConfigRegs} {f : Nat → Yiq → Yiq} (fixed : ∀ j v, f j v = v)
    {r a b : Nat} {x y : Scratch} (run : forRange a b (denoiseColumn P cfg f r) x = .ok y) : SameCells x y := by
  refine forRange_keeps (SameCells x) (fun h z z' _ _ before column => before.trans ?_) (.refl x) run
  rw [denoiseColumn_ok column]
  exact ⟨denoiseCell_onlyYiq .., denoiseCell_reads_of_fixed fixed⟩

/-- With the threshold 0 a clipped residual is 0, whatever the residual (46 R203). -/
theorem cnrLine_sameCells {P : Impl} {cfg : ConfigRegs} {r : Nat} {x y : Scratch} (run : cnrLine P cfg r x = .ok y) :
    SameCells x y := by
  obtain ⟨lineI, -, rest⟩ := bind_ok run
  obtain ⟨lineQ, -, loop⟩ := bind_ok rest
  refine denoiseLine_sameCells (fun j v => ?_) loop
  simp only [cnrThreshold_eq, clip_zero, sub_zero]

theorem cnrBody_sameCells {P : Impl} {s : State} {x y : Scratch} (run : cnrBody P s x = .ok y) : SameCells x y :=
  forRange_keeps (SameCells x) (fun _ _ _ _ _ before line => before.trans (cnrLine_sameCells line)) (.refl x) run

/-- Settles O36: every turn of CNR writes a cell's own value back; under the conditions of R68 no turn faults. -/
theorem cnrChangesNothing : Obligations.CnrChangesNothing := by
  refine ⟨fun P s x y run => (cnrBody_sameCells run).reads, fun s hb => ?_⟩
  obtain ⟨y, run⟩ := cnrBody_completes hb s.scratch
  obtain ⟨only, reads⟩ := cnrBody_sameCells run
  obtain ⟨t, pass, frame, out, work, fb, stored⟩ := exec_of_onlyYiq (exec_cnr s) run only
  exact ⟨t, pass, frame, out, work, fb, stored ▸ reads⟩

/-! ### One line of a noise reducer (46 R200) -/

theorem mapM_ok_eq {α β : Type} {f : α → Except FaultCause β} {g : α → β} {l : List α}
    (each : ∀ a ∈ l, f a = .ok (g a)) : l.mapM f = .ok (l.map g) := by
  induction l with
  | nil => rfl
  | cons a rest ih =>
    rw [List.mapM_cons, each a List.mem_cons_self, bind_ok_eq, ih fun b hb => each b (List.mem_cons_of_mem _ hb)]
    rfl

/-- The values of one line's active columns (46 R200). -/
def lineValues (cfg : ConfigRegs) (fb : FrameBuffer) (part : Yiq → R) (r : Nat) : List R :=
  (List.range' cfg.AVS (cfg.AVE - cfg.AVS)).map fun c => part (yiq fb r c)

/-- From `x` to `y` of the scratch state the cells of `YIQ` in `region` took their `value`, and nothing else changed. -/
structure Denoised (value : Nat → Nat → Yiq) (region : Nat → Nat → Prop) (x y : Scratch) : Prop where
  only : OnlyYiq x y
  written : Writes (fun z : Scratch => yiq z.fb) value region x y

section Denoised

variable {value : Nat → Nat → Yiq} {A B C : Nat → Nat → Prop} {x y z : Scratch}

theorem Denoised.inside (d : Denoised value A x y) {r h : Nat} (member : A r h) : yiq y.fb r h = value r h :=
  (d.written r h).1 member

theorem Denoised.outside (d : Denoised value A x y) {r h : Nat} (notMember : ¬ A r h) : yiq y.fb r h = yiq x.fb r h :=
  (d.written r h).2 notMember

theorem Denoised.none (empty : ∀ r h, ¬ A r h) (x : Scratch) : Denoised value A x x := ⟨.refl x, .none empty x⟩

theorem Denoised.trans (first : Denoised value A x y) (second : Denoised value B y z)
    (union : ∀ r h, A r h ∨ B r h ↔ C r h) : Denoised value C x z :=
  ⟨first.only.trans second.only, (first.written.trans second.written).congr union⟩

theorem Denoised.congr {value' : Nat → Nat → Yiq} (d : Denoised value A x y) (same : ∀ r h, A r h ↔ B r h)
    (values : ∀ r h, B r h → value r h = value' r h) : Denoised value' B x y :=
  ⟨d.only, fun r h => ⟨fun member => (d.inside ((same r h).2 member)).trans (values r h member),
    fun notMember => d.outside fun member => notMember ((same r h).1 member)⟩⟩

theorem denoiseCell_denoised {cfg : ConfigRegs} {f : Nat → Yiq → Yiq} {r h : Nat}
    (cell : value r h = f (h - cfg.AVS) (yiq x.fb r h)) :
    Denoised value (fun r' h' => r' = r ∧ h' = h) x (denoiseCell cfg f r h x) := by
  have written := setCell_writes yiqKind x.fb.yiq value r h
  rw [cell] at written
  exact ⟨denoiseCell_onlyYiq .., written⟩

end Denoised

section Lines

variable {P : Impl} {s : State} {r : Nat}

theorem readLine_eq (hb : BoundsFree P s) (hr : s.active.FVL ≤ r) (hr' : r < s.active.frameRows) (fb : FrameBuffer)
    (part : Yiq → R) : readLine P s.active fb part r = .ok (lineValues s.active fb part r) := by
  have columns : (do let c ← List.range' s.active.AVS (s.active.AVE - s.active.AVS); pure (c : Int))
      = (List.range' s.active.AVS (s.active.AVE - s.active.AVS)).map fun c : Nat => (c : Int) := List.map_eq_flatMap.symm
  rw [readLine, columns, List.mapM_map]
  refine mapM_ok_eq fun c hc => ?_
  obtain ⟨first, last⟩ := List.mem_range'_1.1 hc
  have capacity := inCapacity_of_pixel (pixel_of_boundsFree hb hr hr' first (by omega))
  rw [Function.comp_apply, readCell_eq capacity]
  rfl

/-- The active cells of a line. -/
def OnLine (cfg : ConfigRegs) (r r' h : Nat) : Prop := r' = r ∧ activeCol cfg h

/-- Under the conditions of R68 the loop over a visible line replaces each active cell by `f` of its position and of the
value it had before the line. -/
theorem denoiseLine_denoises (hb : BoundsFree P s) (hr : s.active.FVL ≤ r) (hr' : r < s.active.frameRows)
    (f : Nat → Yiq → Yiq) (x : Scratch) :
    ∃ y, forRange s.active.AVS s.active.AVE (denoiseColumn P s.active f r) x = .ok y
      ∧ Denoised (fun r h => f (h - s.active.AVS) (yiq x.fb r h)) (OnLine s.active r) x y := by
  obtain ⟨y, run, denoised⟩ := forRange_run
    (fun h => Denoised (fun r h => f (h - s.active.AVS) (yiq x.fb r h))
      (fun r' h' => r' = r ∧ s.active.AVS ≤ h' ∧ h' < h) x)
    (fun h y hh hh' before => by
      have capacity := inCapacity_of_pixel (pixel_of_boundsFree hb hr hr' hh hh')
      have unread : yiq y.fb r h = yiq x.fb r h := before.outside (by omega)
      exact ⟨_, denoiseColumn_of_inCapacity capacity,
        before.trans (denoiseCell_denoised (by rw [unread])) fun _ _ => by omega⟩)
    (.none (fun _ _ => by omega) x)
  exact ⟨y, run, denoised.congr (fun _ _ => by unfold OnLine activeCol; omega) fun _ _ _ => rfl⟩

/-! ### YNR (46 R200, R201) -/

/-- What YNR writes into a visible, active cell: its Y less the clipped residual of the line. -/
def cleaned (P : Impl) (cfg : ConfigRegs) (fb : FrameBuffer) (r h : Nat) : Yiq :=
  { yiq fb r h with
    y := (yiq fb r h).y - clip (P.resY (lineValues cfg fb Yiq.y r) (h - cfg.AVS)) (ynrThreshold P cfg) }

/-- A line that reads the same in two frames is cleaned alike. -/
theorem cleaned_congr {cfg : ConfigRegs} {fb fb' : FrameBuffer} (same : ∀ h, yiq fb' r h = yiq fb r h) (h : Nat) :
    cleaned P cfg fb' r h = cleaned P cfg fb r h := by
  simp only [cleaned, lineValues, same]

/-- A line of YNR cleans its active cells; the residuals come from the line before any subtraction. -/
theorem ynrLine_cleans (hb : BoundsFree P s) (hr : s.active.FVL ≤ r) (hr' : r < s.active.frameRows) (x : Scratch) :
    ∃ y, ynrLine P s.active r x = .ok y ∧ Denoised (cleaned P s.active x.fb) (OnLine s.active r) x y := by
  rw [ynrLine, readLine_eq hb hr hr', bind_ok_eq]
  obtain ⟨y, run, denoised⟩ := denoiseLine_denoises hb hr hr' _ x
  refine ⟨y, run, denoised.congr (fun _ _ => .rfl) ?_⟩
  rintro _ h ⟨rfl, -⟩
  rfl

/-- Under the conditions of R68 the body of YNR cleans the visible, active cells: no line writes a cell of a later one. -/
theorem ynrBody_cleans (hb : BoundsFree P s) (x : Scratch) :
    ∃ y, ynrBody P s x = .ok y
      ∧ Denoised (cleaned P s.active x.fb) (fun r h => visible s.active r ∧ activeCol s.active h) x y := by
  obtain ⟨y, run, denoised⟩ := forRange_run
    (fun r => Denoised (cleaned P s.active x.fb)
      (fun r' h => (s.active.FVL ≤ r' ∧ r' < r) ∧ activeCol s.active h) x)
    (fun r y hr hr' before => by
      have unread (h : Nat) : yiq y.fb r h = yiq x.fb r h := before.outside (by omega)
      obtain ⟨z, run, line⟩ := ynrLine_cleans hb hr hr' y
      have now : Denoised (cleaned P s.active x.fb) (OnLine s.active r) y z :=
        line.congr (fun _ _ => .rfl) fun _ h ⟨row, _⟩ => row ▸ cleaned_congr unread h
      exact ⟨z, run, before.trans now fun _ _ => by unfold OnLine activeCol; omega⟩)
    (.none (fun _ _ => by omega) x)
  refine ⟨y, run, denoised.congr (fun r h => ?_) fun _ _ _ => rfl⟩
  rw [visible, ← lt_frameRows_iff_FRH]
  exact and_congr_left' (by omega)

theorem abs_cleaned_sub_le {cfg : ConfigRegs} (calibrated : cfg.BLK < cfg.WHT) (fb : FrameBuffer) (r h : Nat) :
    |(cleaned P cfg fb r h).y - (yiq fb r h).y| ≤ ynrThreshold P cfg := by
  rw [cleaned, sub_sub_cancel_left, abs_neg]
  exact abs_clip_le (ynrThreshold_nonneg P calibrated) _

/-- A cell moves by its clipped residual or not at all. -/
theorem Denoised.abs_sub_le {region : Nat → Nat → Prop} {x y : Scratch} {cfg : ConfigRegs}
    (d : Denoised (cleaned P cfg x.fb) region x y) (calibrated : cfg.BLK < cfg.WHT) (r h : Nat) :
    |(yiq y.fb r h).y - (yiq x.fb r h).y| ≤ ynrThreshold P cfg := by
  by_cases member : region r h
  · rw [d.inside member]
    exact abs_cleaned_sub_le calibrated x.fb r h
  · rw [d.outside member, sub_self, abs_zero]
    exact ynrThreshold_nonneg P calibrated

end Lines

/-- Settles O35: the loop over the visible lines cleans them one by one. -/
theorem ynrSubtractsTheClippedResidual : Obligations.YnrSubtractsTheClippedResidual := by
  intro s hb
  obtain ⟨y, run, denoised⟩ := ynrBody_cleans hb s.scratch
  obtain ⟨t, pass, frame, out, work, fb, stored⟩ := exec_of_onlyYiq (exec_ynr s) run denoised.only
  refine ⟨t, pass, frame, out, work, fb, ?_⟩
  rw [stored]
  exact ⟨fun _ _ row col => denoised.inside ⟨row, col⟩, fun _ _ => denoised.outside, denoised.abs_sub_le⟩

end Sys2Proof.NoiseReduction
end

section
/-! PROOFS. YCLEAN (47 R210, R211): a column adds to its own Y the signed chroma of a column the line has not reached,
so both still read what they held before the pass; the line carries its inversion state. -/

namespace Sys2Proof.LumaCleanup

open Sys2Proof Sys2Proof.Machine Sys2Proof.Safety Sys2Proof.Reference Sys2Proof.Laws Sys2Proof.ByteBounds
  Sys2Proof.FaultFree Sys2Proof.FrameSetup Sys2Proof.PhaseTracker Sys2Proof.WindowLoops Sys2Proof.Sep3dMotion
  Sys2Proof.Combiner Sys2Proof.NoiseReduction

/-! ### One column -/

/-- The correction term by the phase of the column is the one by the column's remainder. -/
theorem cleanupTerm_phase (h : Nat) (v : Yiq) : cleanupTerm (phase h) v = cleanupAt v h := by
  rcases (by omega : h % 4 = 0 ∨ h % 4 = 1 ∨ h % 4 = 2 ∨ h % 4 = 3) with q | q | q | q <;>
    simp [phase, Config.phases, cleanupTerm, cleanupAt, q]

/-- A pixel with `c` added to its Y (47 R211). -/
def addY (c : R) (v : Yiq) : Yiq := { v with y := v.y + c }

/-- A column of YCLEAN replaces its cell as a noise reducer would. -/
theorem ycleanColumn_eq {P : Impl} {cfg : ConfigRegs} {r h : Nat} (p : Pixel P cfg r h) (x : Scratch) :
    ycleanColumn P r h x =
      .ok (denoiseCell cfg (fun _ => addY (sgn P x.work.inv * cleanupAt (yiq x.fb r (h + 2)) h)) r h x) := by
  have right : ((h : Int) + 2) = ((h + 2 : Nat) : Int) := rfl
  have neighbour : inCapacity P r (h + 2 : Nat) = true := p.inCapacity (by omega) p.row.le (by omega) (by omega)
  have capacity := inCapacity_of_pixel p
  simp only [ycleanColumn, right, readCell_eq neighbour, readCell_eq capacity, writeCell_eq capacity, bind_ok_eq,
    Int.toNat_natCast, cleanupTerm_phase]
  rfl

/-! ### One line -/

/-- What YCLEAN writes into a visible, active cell (47 R210). -/
def ycleaned (cfg : ConfigRegs) (fb : FrameBuffer) (r h : Nat) : Yiq :=
  addY (lineSign cfg.FVL fb r * cleanupAt (yiq fb r (h + 2)) h) (yiq fb r h)

section Lines

variable {s : State} {x y : Scratch} {r : Nat}

/-- The columns of a visible line whose inversion state stands in `INV` clean its active cells. -/
theorem ycleanColumns_clean (hb : BoundsFree Config.impl s) (hr : s.active.FVL ≤ r) (hr' : r < s.active.frameRows)
    (inv : x.work.inv = inversionAt s.active.FVL x.fb.ph1 x.fb.ph2 r) :
    ∃ y, forRange s.active.AVS s.active.AVE (ycleanColumn Config.impl r) x = .ok y
      ∧ Denoised (ycleaned s.active x.fb) (OnLine s.active r) x y := by
  have sign : lineSign s.active.FVL x.fb r = sgn Config.impl x.work.inv := by
    rw [inv]
    rfl
  obtain ⟨y, run, cleaned⟩ := forRange_run
    (fun h => Denoised (ycleaned s.active x.fb) (fun r' h' => r' = r ∧ s.active.AVS ≤ h' ∧ h' < h) x)
    (fun h y hh hh' before => by
      have own : yiq y.fb r h = yiq x.fb r h := before.outside (by omega)
      have neighbour : yiq y.fb r (h + 2) = yiq x.fb r (h + 2) := before.outside (by omega)
      have inverted : y.work.inv = x.work.inv := by
        obtain ⟨_, rfl⟩ := before.only
        rfl
      exact ⟨_, ycleanColumn_eq (pixel_of_boundsFree hb hr hr' hh hh') y,
        before.trans (denoiseCell_denoised (by rw [ycleaned, sign, own, neighbour, inverted])) fun _ _ => by omega⟩)
    (.none (fun _ _ => by omega) x)
  exact ⟨y, run, cleaned.congr (fun _ _ => by unfold OnLine activeCol; omega) fun _ _ _ => rfl⟩

/-- The working registers without the tracker's. -/
def untracked (w : Work) : R × R × R × R × List R × List R := (w.si, w.sq, w.vi, w.vq, w.fi, w.fq)

theorem untracked_trackerVisit (r : Nat) (w : Work) : untracked (trackerVisit r w) = untracked w := by
  unfold trackerVisit
  split <;> rfl

/-- Before row `r`: the visible rows above it are cleaned; beside `YIQ` only the tracker moved, and it stands at `r`. -/
structure CleanedTo (cfg : ConfigRegs) (x : Scratch) (r : Nat) (y : Scratch) : Prop where
  frame : ∃ p w, y = { x with fb := { x.fb with yiq := p }, work := w }
  tracked : TrackedTo cfg.FVL x.fb r y.work
  others : untracked y.work = untracked x.work
  written : Writes (fun z : Scratch => yiq z.fb) (ycleaned cfg x.fb)
    (fun r' h => (cfg.FVL ≤ r' ∧ r' < r) ∧ activeCol cfg h) x y

theorem cleanedTo_start (cfg : ConfigRegs) (x : Scratch) :
    CleanedTo cfg x cfg.FVL { x with work := trackerInit x.fb x.work } :=
  ⟨⟨x.fb.yiq, _, rfl⟩, trackedTo_init x.fb x.work cfg.FVL, rfl, .none (fun _ _ => by omega) _⟩

/-- A line of YCLEAN visits the tracker and cleans its active cells; they read as before the pass until then. -/
theorem CleanedTo.line (hb : BoundsFree Config.impl s) (hr : s.active.FVL ≤ r) (hr' : r < s.active.frameRows)
    (before : CleanedTo s.active x r y) :
    ∃ z, ycleanLine Config.impl s.active r y = .ok z ∧ CleanedTo s.active x (r + 1) z := by
  obtain ⟨⟨plane, w, rfl⟩, tracked, others, written⟩ := before
  have unread (h : Nat) : cellAt yiqKind plane r h = yiq x.fb r h := (written r h).2 (by omega)
  obtain ⟨_, run, ⟨plane', rfl⟩, line⟩ := ycleanColumns_clean
    (x := { x with fb := { x.fb with yiq := plane }, work := trackerVisit r w }) hb hr hr' tracked.inv
  have now : Writes (cellAt yiqKind) (ycleaned s.active x.fb) (OnLine s.active r) plane plane' := fun r' h =>
    ⟨fun ⟨row, col⟩ => by
      subst row
      exact ((line r' h).1 ⟨rfl, col⟩).trans (by simp only [ycleaned, yiq, unread, lineSign]),
      (line r' h).2⟩
  exact ⟨_, run, ⟨plane', _, rfl⟩, tracked.visit hr, (untracked_trackerVisit r w).trans others,
    Writes.congr (fun _ _ => by unfold OnLine activeCol; omega) (Writes.trans written now)⟩

end Lines

/-- Settles O37: the loop over the visible lines cleans them one by one; of the working registers it moves the tracker's
alone. -/
theorem ycleanAddsTheSignedNeighbourChroma : Obligations.YcleanAddsTheSignedNeighbourChroma := by
  intro s hb
  obtain ⟨_, run, ⟨plane, w, rfl⟩, -, others, written⟩ := forRange_run (CleanedTo s.active s.scratch)
    (fun _ _ hr hr' before => before.line hb hr hr') (cleanedTo_start s.active s.scratch)
  have window (r h : Nat) : visible s.active r ∧ activeCol s.active h ↔
      (s.active.FVL ≤ r ∧ r < max s.active.FVL s.active.frameRows) ∧ activeCol s.active h := by
    rw [visible, ← lt_frameRows_iff_FRH]
    exact and_congr_left' (by omega)
  simp only [untracked, Prod.mk.injEq] at others
  refine ⟨_, (exec_yclean s).trans (runPass_ok run), finishPass_passFrame .yclean releaseTracker s _,
    finishPass_sameOut _ _ s rfl, ?_⟩
  rw [finishPass_fb, finishPass_work]
  exact ⟨rfl, fun r h row col => (written r h).1 ((window r h).1 ⟨row, col⟩),
    fun r h outside => (written r h).2 (outside ∘ (window r h).2), others⟩

end Sys2Proof.LumaCleanup
end

section
/-! PROOFS. The pixels in `OUT` (20_memory R61, R69; 47 R218): different channels of a frame lie at different addresses,
so a loop over the visible, active pixels stores each channel once and a pixel's channels are unwritten until its turn. -/

namespace Sys2Proof.OutputPixels

open Sys2Proof Sys2Proof.Machine Sys2Proof.Safety Sys2Proof.Reference Sys2Proof.Laws Sys2Proof.ByteBounds
  Sys2Proof.FaultFree

/-! ### Addresses (47 R218) -/

/-- No channel of a frame starts at the second byte of another. -/
theorem outAddr_ne_succ (fw r h ch r' h' ch' : Nat) : outAddr fw r h ch ≠ outAddr fw r' h' ch' + 1 := by
  unfold outAddr
  omega

theorem outAddr_injective {fw r h ch r' h' ch' : Nat} (col : h < fw) (col' : h' < fw) (three : ch < 3)
    (three' : ch' < 3) (same : outAddr fw r h ch = outAddr fw r' h' ch') : r = r' ∧ h = h' ∧ ch = ch' := by
  have address (r h ch : Nat) : outAddr fw r h ch = 2 * (3 * (h + r * fw) + 6 + ch) := by
    unfold outAddr
    ring
  rw [address, address] at same
  have pixel : h + r * fw = h' + r' * fw := by omega
  have positive : 0 < fw := by omega
  have row := congrArg (· / fw) pixel
  have column := congrArg (· % fw) pixel
  simp only [Nat.add_mul_div_right _ _ positive, Nat.div_eq_of_lt col, Nat.div_eq_of_lt col',
    Nat.add_mul_mod_self_right, Nat.mod_eq_of_lt col, Nat.mod_eq_of_lt col'] at row column
  omega

theorem col_lt_FW {P : Impl} {cfg : ConfigRegs} {r h : Nat} (p : Pixel P cfg r h) : h < cfg.FW :=
  (Nat.le_add_right h 2).trans_lt p.right

/-! ### 16-bit values -/

theorem wordAt_congr {sp : ByteSpace} {m m' : ByteBuf} {a : Nat} (low : byteAt sp m' a = byteAt sp m a)
    (high : byteAt sp m' (a + 1) = byteAt sp m (a + 1)) : wordAt sp m' a = wordAt sp m a := by
  rw [wordAt, wordAt, low, high]

/-- `OUT` after a 16-bit value is stored at an address. -/
def setWord (m : ByteBuf) (a : Nat) (v : Sample) : ByteBuf :=
  setByte (setByte m a (v.extractLsb' 0 8)) (a + 1) (v.extractLsb' 8 8)

theorem wordAt_setWord (sp : ByteSpace) (m : ByteBuf) (a : Nat) (v : Sample) : wordAt sp (setWord m a v) a = v := by
  rw [wordAt, setWord, byteAt_setByte_self, byteAt_setByte_other _ _ (by omega), byteAt_setByte_self, high_append_low]

theorem byteAt_setWord_other (sp : ByteSpace) (m : ByteBuf) {a b : Nat} (v : Sample) (low : b ≠ a) (high : b ≠ a + 1) :
    byteAt sp (setWord m a v) b = byteAt sp m b := by
  rw [setWord, byteAt_setByte_other _ _ high, byteAt_setByte_other _ _ low]

/-- Every channel of a pixel can be stored (20_memory R65, R69). -/
theorem memWrite_channel {P : Impl} {cfg : ConfigRegs} {r h ch : Nat} (p : Pixel P cfg r h) (three : ch < 3)
    (m : ByteBuf) (v : Sample) :
    memWrite cfg.outLen m (outAddr cfg.FW r h ch) v = .ok (setWord m (outAddr cfg.FW r h ch) v) :=
  memWrite_eq (p.outAddr_le (Nat.le_of_lt_succ three)) m v

/-- Every channel of a pixel can be read. -/
theorem memRead_channel {P : Impl} {cfg : ConfigRegs} {r h ch : Nat} (p : Pixel P cfg r h) (three : ch < 3)
    (m : ByteBuf) :
    memRead .out cfg.outLen m (outAddr cfg.FW r h ch) = .ok (wordAt .out m (outAddr cfg.FW r h ch)) :=
  memRead_eq (p.outAddr_le (Nat.le_of_lt_succ three)) m

/-! ### Stores of channels -/

/-- From `m` to `m'` the channels in `region`, all within the frame, took their `value`, and every byte that belongs to
none of them reads as before. -/
structure Stored (fw : Nat) (value : Nat → Nat → Nat → Sample) (region : Nat → Nat → Nat → Prop) (m m' : ByteBuf) :
    Prop where
  frame : ∀ r h ch, region r h ch → h < fw ∧ ch < 3
  inside : ∀ r h ch, region r h ch → wordAt .out m' (outAddr fw r h ch) = value r h ch
  outside : ∀ a, (∀ r h ch, region r h ch → a ≠ outAddr fw r h ch ∧ a ≠ outAddr fw r h ch + 1) →
    byteAt .out m' a = byteAt .out m a

section Stored

variable {fw : Nat} {value : Nat → Nat → Nat → Sample} {A B : Nat → Nat → Nat → Prop} {m m' m'' : ByteBuf}

theorem Stored.none (empty : ∀ r h ch, ¬ A r h ch) (m : ByteBuf) : Stored fw value A m m :=
  ⟨fun r h ch member => absurd member (empty r h ch), fun r h ch member => absurd member (empty r h ch),
    fun _ _ => rfl⟩

theorem Stored.congr (stored : Stored fw value A m m') (same : ∀ r h ch, A r h ch ↔ B r h ch) :
    Stored fw value B m m' := by
  obtain rfl : A = B := funext fun r => funext fun h => funext fun ch => propext (same r h ch)
  exact stored

/-- A channel of the frame outside the region reads as before. -/
theorem Stored.unwritten (stored : Stored fw value A m m') {r h ch : Nat} (col : h < fw) (three : ch < 3)
    (notMember : ¬ A r h ch) : wordAt .out m' (outAddr fw r h ch) = wordAt .out m (outAddr fw r h ch) := by
  have apart (r' h' ch' : Nat) (member : A r' h' ch') : outAddr fw r h ch ≠ outAddr fw r' h' ch' := by
    intro same
    obtain ⟨col', three'⟩ := stored.frame r' h' ch' member
    obtain ⟨rfl, rfl, rfl⟩ := outAddr_injective col col' three three' same
    exact notMember member
  exact wordAt_congr
    (stored.outside _ fun r' h' ch' member => ⟨apart r' h' ch' member, outAddr_ne_succ fw r h ch r' h' ch'⟩)
    (stored.outside _ fun r' h' ch' member =>
      ⟨(outAddr_ne_succ fw r' h' ch' r h ch).symm, fun same => apart r' h' ch' member (Nat.succ_injective same)⟩)

theorem Stored.trans (first : Stored fw value A m m') (second : Stored fw value B m' m'') :
    Stored fw value (fun r h ch => A r h ch ∨ B r h ch) m m'' where
  frame r h ch member := member.elim (first.frame r h ch) (second.frame r h ch)
  inside r h ch member := by
    by_cases again : B r h ch
    · exact second.inside r h ch again
    · have before := member.resolve_right again
      obtain ⟨col, three⟩ := first.frame r h ch before
      exact (second.unwritten col three again).trans (first.inside r h ch before)
  outside a apart := (second.outside a fun r h ch member => apart r h ch (.inr member)).trans
    (first.outside a fun r h ch member => apart r h ch (.inl member))

/-- A channel stored is itself the region. -/
theorem setWord_stored (r : Nat) {h ch : Nat} (col : h < fw) (three : ch < 3) (m : ByteBuf) :
    Stored fw value (fun r' h' ch' => r' = r ∧ h' = h ∧ ch' = ch) m
      (setWord m (outAddr fw r h ch) (value r h ch)) where
  frame := by
    rintro _ _ _ ⟨rfl, rfl, rfl⟩
    exact ⟨col, three⟩
  inside := by
    rintro _ _ _ ⟨rfl, rfl, rfl⟩
    exact wordAt_setWord ..
  outside a apart := by
    obtain ⟨low, high⟩ := apart r h ch ⟨rfl, rfl, rfl⟩
    exact byteAt_setWord_other _ _ _ low high

end Stored

/-! ### The loop over the pixels -/

section Window

variable {s : State} {value : Nat → Nat → Nat → Sample} {channels : Nat → Prop} {x : Scratch}
  {column : Nat → Nat → Scratch → Except FaultCause Scratch}

/-- The given channels of the pixels before pixel `(r, h)`, in the order of the loop. -/
def Before (cfg : ConfigRegs) (channels : Nat → Prop) (r h r' h' ch : Nat) : Prop :=
  (cfg.FVL ≤ r' ∧ (r' < r ∧ activeCol cfg h' ∨ r' = r ∧ cfg.AVS ≤ h' ∧ h' < h)) ∧ channels ch

theorem before_succ_iff {cfg : ConfigRegs} {r h : Nat} (row : cfg.FVL ≤ r) (col : cfg.AVS ≤ h) (r' h' ch : Nat) :
    Before cfg channels r h r' h' ch ∨ (r' = r ∧ h' = h ∧ channels ch) ↔ Before cfg channels r (h + 1) r' h' ch := by
  by_cases given : channels ch
  · simp only [Before, activeCol, given, and_true]
    omega
  · simp only [Before, given, and_false, or_false]

/-- The end of a line is the start of the next. -/
theorem before_line_iff (cfg : ConfigRegs) (r r' h' ch : Nat) :
    Before cfg channels r (max cfg.AVS cfg.AVE) r' h' ch ↔ Before cfg channels (r + 1) cfg.AVS r' h' ch := by
  unfold Before activeCol
  exact and_congr_left' (by omega)

/-- The loop, started from `x`, has stored the channels of the pixels before `(r, h)` and changed nothing but `OUT`. -/
def StoredTo (s : State) (value : Nat → Nat → Nat → Sample) (channels : Nat → Prop) (x : Scratch) (r h : Nat)
    (y : Scratch) : Prop :=
  ∃ m, y = { x with out := m } ∧ Stored s.active.FW value (Before s.active channels r h) x.out m

/-- Under the conditions of R68 a loop that stores the given channels of a pixel on its turn, which until then read as
at the start, stores those of all visible, active pixels. -/
theorem window_stores (hb : BoundsFree Config.impl s)
    (turn : ∀ r h m, Pixel Config.impl s.active r h →
      (∀ ch, ch < 3 → wordAt .out m (outAddr s.active.FW r h ch) = wordAt .out x.out (outAddr s.active.FW r h ch)) →
      ∃ m', column r h { x with out := m } = .ok { x with out := m' }
        ∧ Stored s.active.FW value (fun r' h' ch => r' = r ∧ h' = h ∧ channels ch) m m') :
    ∃ m, forRange s.active.FVL s.active.frameRows (fun r => forRange s.active.AVS s.active.AVE (column r)) x
        = .ok { x with out := m }
      ∧ Stored s.active.FW value (fun r h ch => (visible s.active r ∧ activeCol s.active h) ∧ channels ch) x.out m := by
  have pixel : ∀ r, s.active.FVL ≤ r → r < s.active.frameRows → ∀ h y, s.active.AVS ≤ h → h < s.active.AVE →
      StoredTo s value channels x r h y → ∃ z, column r h y = .ok z ∧ StoredTo s value channels x r (h + 1) z := by
    rintro r hr hr' h _ hh hh' ⟨m, rfl, before⟩
    have p := pixel_of_boundsFree hb hr hr' hh hh'
    obtain ⟨m', run, now⟩ := turn r h m p fun ch three => before.unwritten (col_lt_FW p) three (by unfold Before; omega)
    exact ⟨_, run, m', rfl, (before.trans now).congr (before_succ_iff hr hh)⟩
  have line : ∀ r y, s.active.FVL ≤ r → r < s.active.frameRows → StoredTo s value channels x r s.active.AVS y →
      ∃ z, forRange s.active.AVS s.active.AVE (column r) y = .ok z
        ∧ StoredTo s value channels x (r + 1) s.active.AVS z := by
    intro r y hr hr' before
    obtain ⟨z, run, m, rfl, stored⟩ := forRange_run (StoredTo s value channels x r) (pixel r hr hr') before
    exact ⟨_, run, m, rfl, stored.congr (before_line_iff s.active r)⟩
  obtain ⟨_, run, m, rfl, stored⟩ := forRange_run (fun r => StoredTo s value channels x r s.active.AVS) line
    ⟨x.out, rfl, .none (fun _ _ _ => by unfold Before; omega) _⟩
  refine ⟨m, run, stored.congr fun r h ch => ?_⟩
  rw [Before, visible, ← lt_frameRows_iff_FRH]
  exact and_congr_left' (by unfold activeCol; omega)

end Window

/-- A pass that uses no working register and whose body writes `OUT` alone leaves the rest of the block alone. -/
theorem exec_of_onlyOut {i : Instr} {body : State → Scratch → Except FaultCause Scratch} {s : State} {m : ByteBuf}
    (pass : exec i s = runPass i keepWork body s) (run : body s s.scratch = .ok { s.scratch with out := m }) :
    ∃ t, exec i s = .next t ∧ PassFrame (nextStage s.active i) s t ∧ t.work = s.work ∧ t.fb = s.fb
      ∧ t.mem.out = m :=
  ⟨_, pass.trans (runPass_ok run), FrameSetup.finishPass_passFrame i keepWork s _, finishPass_work .., finishPass_fb ..,
    congrArg Memory.out (finishPass_mem ..)⟩

end Sys2Proof.OutputPixels
end

section
/-! PROOFS. TORGB (47 R213 to R218): the converter's arithmetic, and the three channels of each pixel at their
addresses. OVERLAY (47 R219): the saturating tint of red and blue. -/

namespace Sys2Proof.RgbOverlay

open Sys2Proof Sys2Proof.Machine Sys2Proof.Safety Sys2Proof.Reference Sys2Proof.Laws Sys2Proof.FaultFree
  Sys2Proof.FrameSetup Sys2Proof.Sequencer Sys2Proof.Combiner Sys2Proof.OutputPixels

/-! ### The converter (47 R213 to R216) -/

section Converter

variable {P : Impl} {cfg : ConfigRegs} {burst : R} {v : Yiq}

theorem chromaPair_mono (mono : cfg.mono = true) : chromaPair P cfg burst v = (0, 0) := if_pos mono

theorem chromaPair_color (color : ¬ cfg.mono = true) :
    chromaPair P cfg burst v = (v.i * chromaGain P cfg burst, v.q * chromaGain P cfg burst) := if_neg color

/-- A pixel without chroma has none after the gain either. -/
theorem chromaPair_of_noChroma (y : R) : chromaPair P cfg burst ⟨y, 0, 0⟩ = (0, 0) := by
  unfold chromaPair
  split <;> simp

/-- Without chroma the matrix gives the luma value in every channel (47 R216). -/
theorem rgbReal_of_noChroma (colorless : chromaPair P cfg burst v = (0, 0)) :
    rgbReal P cfg burst v = (lumaValue P cfg v, lumaValue P cfg v, lumaValue P cfg v) := by
  simp only [rgbReal, colorless, mul_zero, add_zero]

theorem lumaValue_black (i q : R) : lumaValue P cfg ⟨cfg.blk.toNat, i, q⟩ = 0 := by
  rw [lumaValue, toR, sub_self, zero_mul]

theorem lumaValue_white (calibrated : cfg.blk.toNat < cfg.wht.toNat) (white : cfg.wp100 = true) (i q : R) :
    lumaValue P cfg ⟨cfg.wht.toNat, i, q⟩ = 65535 := by
  have range : (cfg.wht.toNat : R) - cfg.blk.toNat ≠ 0 := (sub_pos.2 (Nat.cast_lt.2 calibrated)).ne'
  simp only [lumaValue, lumaGain, white, if_true, toR]
  exact mul_div_cancel₀ _ range

end Converter

/-- Settles O39: the gains by the flags `WP100` and `MONO`; a reference level without chroma is its luma value in every
channel. -/
theorem rgbConverterFollowsItsFormulas : Obligations.RgbConverterFollowsItsFormulas := by
  intro c burst
  refine ⟨fun v => ?_, posVal_pos _, fun calibrated white => ?_⟩
  · intro whiteGain y chroma i q
    have luma : lumaValue Config.impl c v = y := rfl
    have pair : chromaPair Config.impl c burst v = (i, q) := by
      by_cases mono : c.mode.getLsbD 0 = true
      · simp only [chromaPair_mono mono, i, q, if_pos mono]
      · simp only [chromaPair_color mono, i, q, if_neg mono]
        rfl
    refine ⟨luma, pair, ?_⟩
    simp only [rgbReal, luma, pair]
    rfl
  · rw [rgbReal_of_noChroma (chromaPair_of_noChroma _), rgbReal_of_noChroma (chromaPair_of_noChroma _),
      lumaValue_black, lumaValue_white calibrated white]
    exact ⟨rfl, rfl⟩

/-! ### TORGB (47 R213, R217, R218) -/

/-- The channel of a number: red, green, blue (47 R218). -/
def channelOf (rgb : R × R × R) : Nat → R
  | 0 => rgb.1
  | 1 => rgb.2.1
  | _ => rgb.2.2

/-- What TORGB stores in a channel of a pixel (47 R217). -/
def converted (cfg : ConfigRegs) (fb : FrameBuffer) (r h ch : Nat) : Sample :=
  channelValue Config.impl (channelOf (rgbReal Config.impl cfg fb.burst (yiq fb r h)) ch)

theorem maxSample_eq : ((Config.maxSample : Nat) : R) = 65535 := by norm_num [Config.maxSample]

theorem channelValue_impl (v : R) :
    channelValue Config.impl v = BitVec.ofNat 16 (clamp v 0 65535).floor.toNat := by
  rw [channelValue, maxSample_eq]
  rfl

/-- A column of TORGB stores the three channels of its pixel. -/
theorem torgbColumn_stores {cfg : ConfigRegs} {r h : Nat} (p : Pixel Config.impl cfg r h) (x : Scratch)
    (m : ByteBuf) : ∃ m', torgbColumn Config.impl cfg r h { x with out := m } = .ok { x with out := m' }
      ∧ Stored cfg.FW (converted cfg x.fb) (fun r' h' ch => r' = r ∧ h' = h ∧ ch < 3) m m' := by
  have col := col_lt_FW p
  have stored := ((setWord_stored r col (by omega : 0 < 3) m).trans (setWord_stored r col (by omega : 1 < 3) _)).trans
    (setWord_stored (value := converted cfg x.fb) r col (by omega : 2 < 3) _)
  refine ⟨_, ?_, stored.congr fun r' h' ch => by omega⟩
  simp (disch := omega) only [torgbColumn, readCell_eq (inCapacity_of_pixel p), bind_ok_eq, memWrite_channel p,
    Int.toNat_natCast]
  rfl

/-- Settles O38: the loop over the visible, active pixels stores them one by one. -/
theorem torgbStoresTheConvertedPixels : Obligations.TorgbStoresTheConvertedPixels := by
  intro s hb
  obtain ⟨m, run, stored⟩ := window_stores (x := s.scratch) (column := torgbColumn Config.impl s.active) hb
    fun r h m p _ => torgbColumn_stores p s.scratch m
  obtain ⟨t, pass, frame, work, fb, out⟩ := exec_of_onlyOut (exec_torgb s) run
  rw [nextStage_eq_tableNext] at frame
  refine ⟨t, pass, frame, work, fb, ?_⟩
  rw [out]
  refine ⟨fun r h row col => ?_, fun a apart =>
    stored.outside a fun r h ch ⟨⟨row, col⟩, three⟩ => apart r h ch row col three⟩
  have channel (ch : Nat) (three : ch < 3) := (stored.inside r h ch ⟨⟨row, col⟩, three⟩).trans (channelValue_impl _)
  exact ⟨channel 0 (by omega), channel 1 (by omega), channel 2 (by omega)⟩

/-- Settles O40: in monochrome mode the three real channel values that O38 stores are the luma value. -/
theorem monochromeStoresEqualChannels : Obligations.MonochromeStoresEqualChannels := by
  intro s hb mono
  obtain ⟨t, pass, -, -, fb, stored, -⟩ := torgbStoresTheConvertedPixels s hb
  refine ⟨t, pass, fb, fun r h row col => ?_⟩
  obtain ⟨red, green, blue⟩ := stored r h row col
  rw [red, green, blue, rgbReal_of_noChroma (chromaPair_mono mono)]
  exact ⟨rfl, rfl⟩

/-! ### OVERLAY (47 R219) -/

/-- The tint saturates at 65535. -/
theorem tinted_toNat {k : R} (nonneg : 0 ≤ k) (old : Sample) :
    (tinted k old).toNat = min 65535 (old.toNat + (k * 65535).floor.toNat) := by
  have floor_nonneg : 0 ≤ (k * 65535).floor := Rat.le_floor_iff.2 (by push_cast; positivity)
  rw [tinted, maxSample_eq, BitVec.toNat_ofInt, Config.maxSample]
  omega

/-- What OVERLAY stores in a channel of a pixel. -/
def overlaid (cfg : ConfigRegs) (x : Scratch) (r h ch : Nat) : Sample :=
  tinted (kmap x.fb r h) (wordAt .out x.out (outAddr cfg.FW r h ch))

/-- A channel of a pixel that still reads as in `x` takes its tinted value. -/
theorem tintChannel_of_unwritten {cfg : ConfigRegs} {r h ch : Nat} (p : Pixel Config.impl cfg r h) (three : ch < 3)
    {x : Scratch} {m : ByteBuf}
    (unwritten : wordAt .out m (outAddr cfg.FW r h ch) = wordAt .out x.out (outAddr cfg.FW r h ch)) :
    tintChannel cfg (kmap x.fb r h) r h ch m = .ok (setWord m (outAddr cfg.FW r h ch) (overlaid cfg x r h ch)) := by
  rw [tintChannel, memRead_channel p three, bind_ok_eq, memWrite_channel p three, unwritten, overlaid]

/-- A column of OVERLAY tints red and blue of its pixel, which still reads as before the pass. -/
theorem overlayColumn_stores {cfg : ConfigRegs} {r h : Nat} (p : Pixel Config.impl cfg r h) {x : Scratch} {m : ByteBuf}
    (unwritten : ∀ ch, ch < 3 → wordAt .out m (outAddr cfg.FW r h ch) = wordAt .out x.out (outAddr cfg.FW r h ch)) :
    ∃ m', overlayColumn Config.impl cfg r h { x with out := m } = .ok { x with out := m' }
      ∧ Stored cfg.FW (overlaid cfg x) (fun r' h' ch => r' = r ∧ h' = h ∧ (ch = 0 ∨ ch = 2)) m m' := by
  have col := col_lt_FW p
  have readK : readCell Config.impl (realKind .k) x.fb.k r h = .ok (kmap x.fb r h) :=
    readCell_eq (inCapacity_of_pixel p) ..
  have red := tintChannel_of_unwritten p (by omega) (unwritten 0 (by omega))
  have redStored : Stored cfg.FW (overlaid cfg x) (fun r' h' ch => r' = r ∧ h' = h ∧ ch = 0) m _ :=
    setWord_stored r col (by omega) m
  have blue := tintChannel_of_unwritten p (by omega)
    ((redStored.unwritten (r := r) col (by omega) (by omega)).trans (unwritten 2 (by omega)))
  refine ⟨_, ?_, (redStored.trans (setWord_stored r col (by omega : 2 < 3) _)).congr fun r' h' ch => by omega⟩
  simp only [overlayColumn, readK, red, blue, bind_ok_eq]

/-- Settles O41: the loop over the visible, active pixels tints them one by one. -/
theorem overlayTintsRedAndBlue : Obligations.OverlayTintsRedAndBlue := by
  intro s hb inRange
  obtain ⟨m, run, stored⟩ := window_stores (x := s.scratch) (column := overlayColumn Config.impl s.active) hb
    fun r h m p unwritten => overlayColumn_stores p unwritten
  obtain ⟨t, pass, frame, work, fb, out⟩ := exec_of_onlyOut (exec_overlay s) run
  refine ⟨t, pass, frame, work, fb, ?_⟩
  rw [out]
  refine ⟨fun r h ch row col channel => ?_, fun a apart =>
    stored.outside a fun r h ch ⟨⟨row, col⟩, channel⟩ => apart r h ch row col channel⟩
  obtain ⟨nonneg, -⟩ := inRange r h row col
  rw [stored.inside r h ch ⟨⟨row, col⟩, channel⟩]
  exact tinted_toNat nonneg _

end Sys2Proof.RgbOverlay
end

section
/-! PROOFS. Exceptions (60_exceptions R231, R234, R236, R238, R240): the causes each pass can raise, that a block in
FAULTED ignores its host but for a reset, and that `LOG` holds violations of the limits only. -/

namespace Sys2Proof.Exceptions

open Sys2Proof Sys2Proof.Machine Sys2Proof.Safety Sys2Proof.Laws Sys2Proof.StepLaws

/-! ### The causes of a pass (60_exceptions R234) -/

/-- The causes a pass can raise: its bounds, and for FBINIT and MOTION their own check. -/
def PassCause (i : Instr) (cause : FaultCause) : Prop :=
  cause = .calibration ∧ i = .fbinit ∨ cause = .motion ∧ i = .motion ∨ cause = .bounds

/-- Every fault of a body is a cause of its pass. -/
def RaisesPassCauses (i : Instr) (body : State → Scratch → Except FaultCause Scratch) : Prop :=
  ∀ s x cause, body s x = .error cause → PassCause i cause

theorem raisesPassCauses_of_bounds {body : State → Scratch → Except FaultCause Scratch}
    (h : ∀ {s x cause}, body s x = .error cause → cause = .bounds) (i : Instr) : RaisesPassCauses i body :=
  fun _ _ _ he => .inr (.inr (h he))

theorem fbinitBody_raises : RaisesPassCauses .fbinit fbinitBody := by
  intro s x cause he
  rcases fbinitBody_cases s x with ⟨-, e⟩ | ⟨-, e⟩ <;> rw [e] at he <;> cases he
  exact .inl ⟨rfl, rfl⟩

theorem motionBody_raises (P : Impl) : RaisesPassCauses .motion (motionBody P) := by
  intro s x cause he
  rcases motionBody_cases P s x with ⟨-, e⟩ | ⟨-, e⟩ <;> rw [e] at he <;> cases he
  exact .inr (.inl ⟨rfl, rfl⟩)

/-- A stage code names STOREPREV, which checks nothing, or a pass whose body raises causes of that pass only. -/
theorem exec_raises {i : Instr} {c : StageCode} (code : encode i = .uop c) :
    i = .storeprev ∨ ∃ release body, (∀ s, exec i s = runPass i release body s) ∧ RaisesPassCauses i body := by
  cases i with
  | nop => cases code
  | config => cases code
  | decode => cases code
  | resetprev => cases code
  | fbinit => exact .inr ⟨_, _, exec_fbinit, fbinitBody_raises⟩
  | ilace => exact .inr ⟨_, _, exec_ilace, raisesPassCauses_of_bounds ilaceBody_fault _⟩
  | sep1d => exact .inr ⟨_, _, exec_sep1d, raisesPassCauses_of_bounds sep1dBody_fault _⟩
  | sep2d => exact .inr ⟨_, _, exec_sep2d, raisesPassCauses_of_bounds sep2dBody_fault _⟩
  | iqcomb =>
    exact .inr ⟨_, _, exec_iqcomb, raisesPassCauses_of_bounds (combineBody_fault estimateFrom2d_fault) _⟩
  | motion => exact .inr ⟨_, _, exec_motion, motionBody_raises _⟩
  | sep3d => exact .inr ⟨_, _, exec_sep3d, raisesPassCauses_of_bounds sep3dBody_fault _⟩
  | iqmix => exact .inr ⟨_, _, exec_iqmix, raisesPassCauses_of_bounds (combineBody_fault estimateMixed_fault) _⟩
  | clpf => exact .inr ⟨_, _, exec_clpf, raisesPassCauses_of_bounds clpfBody_fault _⟩
  | ynr => exact .inr ⟨_, _, exec_ynr, raisesPassCauses_of_bounds ynrBody_fault _⟩
  | cnr => exact .inr ⟨_, _, exec_cnr, raisesPassCauses_of_bounds cnrBody_fault _⟩
  | yclean => exact .inr ⟨_, _, exec_yclean, raisesPassCauses_of_bounds ycleanBody_fault _⟩
  | torgb => exact .inr ⟨_, _, exec_torgb, raisesPassCauses_of_bounds torgbBody_fault _⟩
  | overlay => exact .inr ⟨_, _, exec_overlay, raisesPassCauses_of_bounds overlayBody_fault _⟩
  | storeprev => exact .inl rfl

/-! ### The fault entry of a pass (60_exceptions R236, R240) -/

/-- A pass that ends leaves the block BUSY, or IDLE at the end of the sequence (40_sequencer R124). -/
theorem finishPass_not_faulted {s : State} (busy : s.status.run = .busy) (i : Instr) (release : Nat → Work → Work)
    (x : Scratch) : (finishPass i release s x).status.run ≠ .faulted := by
  obtain ⟨-, status⟩ := FaultFree.finishPass_endsAt i release s x
  rw [status]
  split
  · simp
  · simp [busy]

/-- A pass that leaves the block in FAULTED raised one of its causes, and its next state is that fault's entry. -/
theorem exec_faulted {s t : State} {i : Instr} {c : StageCode} (code : encode i = .uop c)
    (busy : s.status.run = .busy) (h : exec i s = .next t) (faulted : t.status.run = .faulted) :
    ∃ cause, t = raise cause s ∧ PassCause i cause := by
  rcases exec_raises code with rfl | ⟨release, body, frame, causes⟩
  · cases h
    exact absurd faulted (finishPass_not_faulted (s := { s with prev := s.fb }) busy _ _ _)
  · rw [frame] at h
    rcases runPass_cases i release body s with ⟨x, -, hrun⟩ | ⟨cause, raised, hrun⟩ <;> rw [hrun] at h <;> cases h
    · exact absurd faulted (finishPass_not_faulted busy _ _ _)
    · exact ⟨cause, rfl, causes _ _ _ raised⟩

/-- The causes of a pass are raised inside it, so its entry records `SEQ` (60_exceptions R236 (3)). -/
theorem faultStage_of_passCause {i : Instr} {cause : FaultCause} (h : PassCause i cause) (s : State) :
    faultStage cause s = s.seq := by
  rcases h with ⟨rfl, -⟩ | ⟨rfl, -⟩ | rfl <;> rfl

/-- Settles O43: the pass in `SEQ` raised one of its causes, and the entry of a fault raised inside a pass is precise. -/
theorem passFaultsArePrecise : Obligations.PassFaultsArePrecise := by
  intro s t i busy hd hstep faulted
  rw [step_busy busy hd] at hstep
  obtain ⟨cause, rfl, isCause⟩ := exec_faulted (encode_of_decodeStage hd) busy hstep faulted
  have entered := ByteBounds.faultEntered_raise cause s
  rw [faultStage_of_passCause isCause] at entered
  exact ⟨cause, entered, isCause⟩

/-! ### FAULTED (60_exceptions R238; 10_state R35) -/

/-- At most the host's last answer and the estimator changed: nothing of the block itself. -/
def OnlyEnvironment (s t : State) : Prop := t = { s with answer := t.answer, estimate := t.estimate }

/-- A host write in FAULTED is ignored. -/
theorem hostWrite_onlyEnvironment {s : State} (faulted : s.status.run = .faulted) (t : State) :
    OnlyEnvironment s (hostWrite s t) := by
  rcases hostWrite_cases s t with ⟨-, ignored⟩ | ⟨notFaulted, -⟩
  · rw [ignored]
    rfl
  · exact absurd faulted notFaulted

/-- A write to `CMD` in FAULTED is ignored, whatever the word. -/
theorem issueCommand_of_faulted {s : State} (faulted : s.status.run = .faulted) (w : Word) :
    issueCommand exec w s = .next s := by
  rcases issueCommand_cases w s with ⟨idle, -⟩ | ⟨idle, -⟩ | ⟨-, ignored⟩
  · simp [faulted] at idle
  · simp [faulted] at idle
  · exact ignored

/-- In FAULTED every action but a reset is an ignored write, a read, or the estimator's own. -/
theorem hostAct_of_faulted {a : HostAction} (notReset : a ≠ .reset) {s t : State} (faulted : s.status.run = .faulted)
    (h : hostAct exec a s = .next t) : OnlyEnvironment s t := by
  cases a with
  | reset => exact absurd rfl notReset
  | wr reg v =>
    by_cases cmd : reg = 0
    · subst cmd
      change issueCommand exec v s = .next t at h
      rw [issueCommand_of_faulted faulted] at h
      cases h
      rfl
    · simp only [hostAct, cmd, if_false] at h
      cases h
      exact hostWrite_onlyEnvironment faulted _
  | wrBurst q => cases h; exact hostWrite_onlyEnvironment faulted _
  | load1 bytes => cases h; exact hostWrite_onlyEnvironment faulted _
  | load2 bytes => cases h; exact hostWrite_onlyEnvironment faulted _
  | put1 addr b => cases h; exact hostWrite_onlyEnvironment faulted _
  | put2 addr b => cases h; exact hostWrite_onlyEnvironment faulted _
  | rd reg => cases h; rfl
  | getOut addr => cases h; rfl
  | estimate broken => cases h; rfl

/-- Settles O44: a FAULTED block runs no pass, so its step is the host's next action, and only a reset does anything. -/
theorem faultedIsLeftOnlyByReset : Obligations.FaultedIsLeftOnlyByReset := by
  intro s t faulted hstep
  have notBusy : s.status.run ≠ .busy := by simp [faulted]
  cases hh : s.host with
  | nil =>
    rw [step_quiet notBusy hh] at hstep
    cases hstep
    exact .inr (by rw [List.tail_nil, ← hh])
  | cons a rest =>
    rw [step_host notBusy hh] at hstep
    by_cases isReset : a = .reset
    · subst isReset
      cases hstep
      exact .inl ⟨rfl, rfl⟩
    · have environment : OnlyEnvironment s.popHost t := hostAct_of_faulted isReset faulted hstep
      rw [← hh]
      exact .inr environment

/-! ### `LOG` (60_exceptions R231, R233) -/

theorem logHoldsViolations_congr {s t : State} (h : LogHoldsViolations s) (log : t.log = s.log) :
    LogHoldsViolations t := by
  simpa only [LogHoldsViolations, log] using h

theorem logHoldsViolations_append {s t : State} {events : List LogEvent} (h : LogHoldsViolations s)
    (new : LogHoldsViolations { s with log := events }) (log : t.log = s.log ++ events) : LogHoldsViolations t := by
  intro e he
  rw [log] at he
  rcases List.mem_append.1 he with old | added
  · exact h e old
  · exact new e added

/-- A CONFIG logs a warning only where its condition holds, with the value that violates the limit; for the height the
condition is on the integer `FRH` and the value the number of frame rows. -/
theorem warningEvents_violate (c : ConfigRegs) (s : State) : LogHoldsViolations { s with log := warningEvents c } := by
  intro e he
  obtain ⟨w, hw, rfl⟩ := List.mem_map.1 he
  have condition : warns c w = true := (List.mem_filter.1 hw).2
  cases w with
  | width =>
    have wide : c.FW > 910 := of_decide_eq_true condition
    exact wide
  | height =>
    have high : c.FRH > 525 := of_decide_eq_true condition
    exact (ByteBounds.lt_frameRows_iff_FRH c 525).2 high
  | activeStart =>
    have early : c.AVS < 16 := of_decide_eq_true condition
    exact early

/-- Settles O54: of the writers of `LOG` a CONFIG appends violations and a reset empties it. -/
theorem everyStepKeepsLogViolations : Obligations.EveryStepKeepsLogViolations := by
  intro s t h hstep
  rcases ControlState.step_writers hstep with ⟨-, -, same⟩ | ⟨-, -, -, -, same⟩ | ⟨-, -, -, -, grown⟩ |
    ⟨-, -, -, -, same⟩ | ⟨-, -, -, -, empty⟩
  · exact logHoldsViolations_congr h same
  · exact logHoldsViolations_congr h same
  · exact logHoldsViolations_append h (warningEvents_violate s.shadow s) grown
  · exact logHoldsViolations_congr h same
  · intro e he
    simp [empty] at he

end Sys2Proof.Exceptions
end
